-- ==== Sys2Proof/Word.lean ====
section
/-! DEFINITION. The word types of the block: every transaction moves one 32-bit word (spec/00_scope.md R8). -/

namespace Sys2Proof

/-- A 32-bit word: register values, WDATA, RDATA and register numbers (00_scope.md R8). -/
abbrev Word := BitVec 32

/-- One half of a register number: its base part or its offset part (00_scope.md R6, R7). -/
abbrev Half := BitVec 16

/-- One byte of a register of the window. -/
abbrev Byte := BitVec 8

end Sys2Proof
end

