-- ==== Sys2Proof/Config.lean ====
section
/-! DEFINITION. What an implementation fixes (spec/00_scope.md section 3: OPEN parameters and configuration inputs), the
illustrative instantiation P0 (spec/95_test_vectors.md section 0), and the free values the spec leaves open. Parameters and
configuration inputs are fields of State, so that a statement about every state is one about every value of them. -/

namespace Sys2Proof

/-- A bit field of a 32-bit register: least significant bit position and width (00_scope.md R12). -/
structure Field where
  lsb : Nat
  width : Nat
  deriving DecidableEq, Repr

/-- How the bus maps the four bytes of a word to byte addresses (20_memory.md R63, BUS_BYTE_ORDER, OPEN). -/
inductive ByteOrder where
  | little
  | big
  deriving DecidableEq, Repr

/-- The OPEN parameters of 00_scope.md R9 to R13 and 20_memory.md R63, each under the spec's name. -/
structure Params where
  /-- AW, the width of a bus address (R9). -/
  aw : Nat
  /-- IDX_OFF, the byte offset of the index register from BASE (R10). -/
  idxOff : Nat
  /-- BUS_BYTE_ORDER (R63). -/
  byteOrder : ByteOrder
  /-- R_MII_CTRL (R11). -/
  rMiiCtrl : Word
  /-- R_PCS_TYPE (R11). -/
  rPcsType : Word
  /-- R_AN_CTRL (R11). -/
  rAnCtrl : Word
  /-- R_DIG_CTRL (R11). -/
  rDigCtrl : Word
  /-- R_2P5G (R11; 92 D17: R_DIG_CTRL by default). -/
  r2p5g : Word
  /-- R_USXG_MODE (R11). -/
  rUsxgMode : Word
  /-- R_MII_DIG_CTRL (R11). -/
  rMiiDigCtrl : Word
  /-- F_SOFT_RST, a bit of R_MII_CTRL (R12). -/
  fSoftRst : Field
  /-- F_AN_EN, a bit of R_MII_CTRL (R12). -/
  fAnEn : Field
  /-- F_PCS_TYPE, a field of R_PCS_TYPE (R12). -/
  fPcsType : Field
  /-- F_AN_MODE, a field of R_AN_CTRL (R12). -/
  fAnMode : Field
  /-- F_TX_CFG, a field of R_AN_CTRL (R12). -/
  fTxCfg : Field
  /-- F_AN_INTR_EN, a bit of R_AN_CTRL (R12). -/
  fAnIntrEn : Field
  /-- F_EN_2P5G, a bit of R_2P5G (R12). -/
  fEn2p5g : Field
  /-- F_USXG_EN, a bit of R_DIG_CTRL (R12). -/
  fUsxgEn : Field
  /-- F_VR_RST, a bit of R_DIG_CTRL (R12). -/
  fVrRst : Field
  /-- F_USXG_MODE, a field of R_USXG_MODE (R12). -/
  fUsxgMode : Field
  /-- F_MAC_AUTO_SW, a bit of R_MII_DIG_CTRL (R12). -/
  fMacAutoSw : Field
  /-- V_AN_MODE_SGMII, the SGMII mode encoding (R13). -/
  vAnModeSgmii : Word
  deriving DecidableEq, Repr

/-- A run of bus byte addresses where the platform maps the PCS register window (20_memory.md R64, 70 R241 (1)). -/
structure Region where
  start : Nat
  size : Nat
  deriving DecidableEq, Repr

/-- The configuration inputs of 00_scope.md R14, with the platform's mapping of the window (20_memory.md R64, R68). -/
structure ConfigIn where
  /-- BASE. -/
  base : Nat
  /-- FIXED_SPEED_TEST, the spec's T. -/
  fixedSpeedTest : Bool
  /-- UNSUPPORTED_MODE_FAILS. -/
  unsupportedModeFails : Bool
  /-- POLL_LIMIT: none, or a bound L. -/
  pollLimit : Option Nat
  /-- Where the platform maps the window. -/
  mapping : List Region
  deriving DecidableEq, Repr

namespace Config

/-- V_PCS_TYPE_SGMII (00_scope.md R13). -/
def vPcsTypeSgmii : Word := 1#32

/-- P0, the spec's own illustrative parameter set (95_test_vectors.md section 0): not the chip's register map (92 D6).
DESIGN CHOICE: BUS_BYTE_ORDER, which P0 does not give, is little (log 17). -/
def p0 : Params where
  aw := 32
  idxOff := 0x00010000
  byteOrder := .little
  rMiiCtrl := 0x00010000#32
  rPcsType := 0x00020000#32
  rAnCtrl := 0x00010008#32
  rDigCtrl := 0x00020004#32
  r2p5g := 0x00020004#32
  rUsxgMode := 0x00020008#32
  rMiiDigCtrl := 0x00010004#32
  fSoftRst := ⟨15, 1⟩
  fAnEn := ⟨12, 1⟩
  fPcsType := ⟨0, 4⟩
  fAnMode := ⟨1, 2⟩
  fTxCfg := ⟨3, 1⟩
  fAnIntrEn := ⟨0, 1⟩
  fEn2p5g := ⟨2, 1⟩
  fUsxgEn := ⟨9, 1⟩
  fVrRst := ⟨15, 1⟩
  fUsxgMode := ⟨10, 3⟩
  fMacAutoSw := ⟨9, 1⟩
  vAnModeSgmii := 2#32

/-- The configuration inputs the vectors of 95_test_vectors.md use unless they say otherwise; the mapping (the window's
64 KB and the index register above it) is this model's DESIGN CHOICE (log 5, log 11). -/
def p0Inputs : ConfigIn where
  base := 0x1000
  fixedSpeedTest := false
  unsupportedModeFails := true
  pollLimit := none
  mapping := [⟨0x1000, 0x10004⟩]

/-- FREE VALUE: the word the chip's window returns to the n-th data read (93 U8, U4, U5, U11: any value). Log 9. -/
opaque windowWord : Nat → Word

/-- FREE VALUE: what the byte at an address of the logical register space holds at power-on (10_state.md R38; 93 U15: any
value). Log 8. -/
opaque powerOnByte : Nat → Byte

/-- FREE VALUE: what IDX holds at power-on (10_state.md R38: unknown). Log 7. -/
opaque powerOnIdx : Word

/-- FREE VALUE: the draw N of 10_state.md R33, a number of poll reads or never clearing, where the schedule gives none.
Log 10. -/
opaque vrPolls : Nat → Option Nat

end Config

end Sys2Proof
end

