-- ==== Sys2Proof/Syntax.lean ====
section
/-! DEFINITION. The four commands of the block (spec/00_scope.md R3), one constructor per row of spec/opcode_table.json. -/

namespace Sys2Proof

/-- The PCS operating mode of INIT, one constructor per MODE code (30_encoding.md R83): both `other` codes behave alike but
are two encodings. -/
inductive PcsMode where
  /-- MODE = 00. -/
  | sgmii
  /-- MODE = 01. -/
  | usxgmii
  /-- MODE = 10, what the assembler's OTHER gives (R90). -/
  | other
  /-- MODE = 11, the second `other` code. -/
  | other3
  deriving DecidableEq, Repr

/-- One command. Every constructor carries REGNUM and WDATA: a command that does not use them ignores them
(30_encoding.md R84), and acceptance latches them all the same (41_accessor.md R100). -/
inductive Instr where
  /-- READ (41_accessor.md R110). -/
  | read (regnum wdata : Word)
  /-- WRITE (41_accessor.md R111). -/
  | write (regnum wdata : Word)
  /-- INIT (42_sequencer.md R150). -/
  | init (mode : PcsMode) (regnum wdata : Word)
  /-- SETANE (42_sequencer.md R170). -/
  | setane (en : Bool) (regnum wdata : Word)
  deriving DecidableEq, Repr

end Sys2Proof
end

