-- ==== Sys2Proof/Decode.lean ====
section
/-! DEFINITION. The command record and its decoding and encoding (spec/30_encoding.md R80 to R89). Decoding is total over all
2^72 records and rejects an illegal control byte by name. -/

namespace Sys2Proof

/-- A command as it stands on the command port: CTL[7:0], REGNUM[31:0], WDATA[31:0] (30_encoding.md R80). -/
structure Record where
  ctl : BitVec 8
  regnum : Word
  wdata : Word
  deriving DecidableEq, Repr

/-- CTL[1:0] (30_encoding.md R81). -/
def Record.op (r : Record) : BitVec 2 := r.ctl.extractLsb' 0 2

/-- CTL[3:2] (R81). -/
def Record.mode (r : Record) : BitVec 2 := r.ctl.extractLsb' 2 2

/-- CTL[4] (R81). -/
def Record.en (r : Record) : Bool := r.ctl.getLsbD 4

/-- CTL[7:5] (R81). -/
def Record.rsv (r : Record) : BitVec 3 := r.ctl.extractLsb' 5 3

/-- Why a control byte is illegal (30_encoding.md R85). -/
inductive Reject where
  /-- RSV is not 000. -/
  | reservedBits
  /-- OP is not INIT and MODE is not 00. -/
  | modeWithoutInit
  /-- OP is not SETANE and EN is not 0. -/
  | enWithoutSetane
  deriving DecidableEq, Repr

/-- MODE codes (30_encoding.md R83). -/
def PcsMode.ofCode (m : BitVec 2) : PcsMode :=
  if m = 0#2 then .sgmii else if m = 1#2 then .usxgmii else if m = 2#2 then .other else .other3

/-- The code of a mode (30_encoding.md R83). -/
def PcsMode.code : PcsMode → BitVec 2
  | .sgmii => 0#2
  | .usxgmii => 1#2
  | .other => 2#2
  | .other3 => 3#2

/-- Decoding (30_encoding.md R85, R87): illegal control bytes first, then by OP (R82). -/
def decode (r : Record) : Except Reject Instr :=
  if r.rsv ≠ 0#3 then .error .reservedBits
  else if r.op ≠ 2#2 ∧ r.mode ≠ 0#2 then .error .modeWithoutInit
  else if r.op ≠ 3#2 ∧ r.en = true then .error .enWithoutSetane
  else if r.op = 0#2 then .ok (.read r.regnum r.wdata)
  else if r.op = 1#2 then .ok (.write r.regnum r.wdata)
  else if r.op = 2#2 then .ok (.init (PcsMode.ofCode r.mode) r.regnum r.wdata)
  else .ok (.setane r.en r.regnum r.wdata)

/-- A control byte from its fields, RSV = 000 (30_encoding.md R81). -/
def controlByte (en : Bool) (mode op : BitVec 2) : BitVec 8 := 0#3 ++ BitVec.ofBool en ++ mode ++ op

/-- The record of a command (30_encoding.md R81 to R83, R89). -/
def encode : Instr → Record
  | .read r d => ⟨controlByte false 0#2 0#2, r, d⟩
  | .write r d => ⟨controlByte false 0#2 1#2, r, d⟩
  | .init m r d => ⟨controlByte false m.code 2#2, r, d⟩
  | .setane e r d => ⟨controlByte e 0#2 3#2, r, d⟩

/-- The 72 bits of a record. DESIGN CHOICE (log 3): CTL is bits 7:0, REGNUM bits 39:8, WDATA bits 71:40, the order in which
30_encoding.md R80 and spec/opcode_table.json list them. -/
def Record.toBits (r : Record) : BitVec 72 := r.wdata ++ r.regnum ++ r.ctl

/-- The record of 72 bits. -/
def Record.ofBits (w : BitVec 72) : Record := ⟨w.extractLsb' 0 8, w.extractLsb' 8 32, w.extractLsb' 40 32⟩

/-- Decoding of the 72 bits of a command. -/
def decodeBits (w : BitVec 72) : Except Reject Instr := decode (Record.ofBits w)

/-- The 72 bits of a command. -/
def encodeBits (i : Instr) : BitVec 72 := (encode i).toBits

/-- The record whose low `nbits` bits are those of `w`, every bit above them 0 (a row of spec/opcode_table.json gives only
the 8 bits of CTL, so REGNUM and WDATA are then 0). -/
def tableRecord (nbits w : Nat) : Record := Record.ofBits (BitVec.ofNat 72 (w % 2 ^ nbits))

/-- The instruction of a word numbered as spec/opcode_table.json numbers it; none where the decoder refuses. -/
def decodeTableWord (nbits w : Nat) : Option Instr := (decode (tableRecord nbits w)).toOption

end Sys2Proof
end

