-- ==== Sys2Proof/WellFormed.lean ====
section
/-! DEFINITION. Well-formedness. The types of Syntax.lean admit exactly the operands the encoding admits, so every `Instr` is
well formed; what can be ill formed is a parameter set (spec/92_eei_decisions.md D34, spec/93 U10) or a configuration input
(spec/00_scope.md R9, R14). -/

namespace Sys2Proof

/-- A field lies inside a 32-bit register and has at least one bit (00_scope.md R12). -/
def Field.inWord (f : Field) : Bool := decide (1 ≤ f.width) && decide (f.lsb + f.width ≤ 32)

/-- A field the spec calls a bit (00_scope.md R12: w = 1). -/
def Field.isBit (f : Field) : Bool := f.width == 1

/-- Two fields share no bit position. -/
def Field.disjoint (f g : Field) : Bool :=
  decide (f.lsb + f.width ≤ g.lsb) || decide (g.lsb + g.width ≤ f.lsb)

/-- Every field the block names, with its register (00_scope.md R12). -/
def Params.namedFields (p : Params) : List (Word × Field) :=
  [(p.rMiiCtrl, p.fSoftRst), (p.rMiiCtrl, p.fAnEn), (p.rPcsType, p.fPcsType), (p.rAnCtrl, p.fAnMode), (p.rAnCtrl, p.fTxCfg),
    (p.rAnCtrl, p.fAnIntrEn), (p.r2p5g, p.fEn2p5g), (p.rDigCtrl, p.fUsxgEn), (p.rDigCtrl, p.fVrRst),
    (p.rUsxgMode, p.fUsxgMode), (p.rMiiDigCtrl, p.fMacAutoSw)]

/-- AW >= 17 (R9), and IDX_OFF is an AW-bit offset (R64). -/
def Params.addressesFit (p : Params) : Bool := decide (17 ≤ p.aw) && decide (p.idxOff < 2 ^ p.aw)

/-- Every field lies in its register (R12). -/
def Params.fieldsInWord (p : Params) : Bool := p.namedFields.all fun x => x.2.inWord

/-- The seven fields the spec calls bits are one bit wide (R12). -/
def Params.bitsAreBits (p : Params) : Bool :=
  [p.fSoftRst, p.fAnEn, p.fAnIntrEn, p.fEn2p5g, p.fUsxgEn, p.fVrRst, p.fMacAutoSw].all Field.isBit

/-- Fields of equal registers are pairwise disjoint (92 D34). -/
def Params.fieldsDisjoint (p : Params) : Bool :=
  decide (p.namedFields.Pairwise fun x y => x.1 = y.1 → x.2.disjoint y.2 = true)

/-- V_AN_MODE_SGMII < 2^w(F_AN_MODE) (R13, 92 D34). -/
def Params.anModeFits (p : Params) : Bool := decide (p.vAnModeSgmii.toNat < 2 ^ p.fAnMode.width)

/-- A parameter set the spec gives a meaning (92 D34; a set that breaks this is refused: 93 U10). -/
def Params.wf (p : Params) : Bool :=
  p.addressesFit && p.fieldsInWord && p.bitsAreBits && p.fieldsDisjoint && p.anModeFits

/-- Configuration inputs the spec gives a meaning: BASE has AW bits (R9), and POLL_LIMIT is none or at least 1 (R14). -/
def ConfigIn.wf (c : ConfigIn) (p : Params) : Bool := decide (c.base < 2 ^ p.aw) && decide (c.pollLimit ≠ some 0)

end Sys2Proof
end

