-- ==== Sys2Proof/Machine/State.lean ====
section
/-! DEFINITION. The state of the machine as plain data: the block (spec/10_state.md section 2), the PCS register window
(section 3), the parameters and configuration inputs (spec/00_scope.md section 3), the command port, and the schedule of what
happens outside the block. -/

namespace Sys2Proof.Machine

/-- The steps of the sequencer, in the order of their codes 0x0 to 0xF (10_state.md R22). -/
inductive SeqStep where
  | idle | xrd | xwr | s1 | s2a | s2b | s2c | s3a | s3b | s3c | s3d | s3p | s4 | s5 | sane | resp
  deriving DecidableEq, Repr

/-- The phases of a step, in the order of their codes 0 to 3 (10_state.md R22): index write of a read, data read, index write
of a write, data write. -/
inductive Phase where
  | ri | rd | wi | wd
  deriving DecidableEq, Repr

/-- The sequencer state register `state` (10_state.md R22). -/
structure Seq where
  step : SeqStep
  phase : Phase
  deriving DecidableEq, Repr

/-- The command latch CMD (10_state.md R23). -/
structure Cmd where
  op : BitVec 2
  mode : BitVec 2
  en : Bool
  regnum : Word
  wdata : Word
  deriving DecidableEq, Repr

/-- The status codes 0 to 4 (60_exceptions.md R200); codes 5 to 7 are never produced and cannot be written (93 U16). -/
inductive Status where
  | ok | resetInProgress | unsupportedMode | pollTimeout | illegalCommand
  deriving DecidableEq, Repr

/-- The response register RSP (10_state.md R26). -/
structure Rsp where
  status : Status
  rdata : Word
  deriving DecidableEq, Repr

/-- What a bus transaction addresses: the index register or a data offset of the window (20_memory.md R50). -/
inductive Target where
  | index
  | data (offset : Half)
  deriving DecidableEq, Repr

/-- A 32-bit bus transaction as issued (20_memory.md R51). -/
inductive Request where
  | read (addr : Nat)
  | write (addr : Nat) (value : Word)
  deriving DecidableEq, Repr

/-- A completed bus transaction: address, direction, data (60_exceptions.md R217). -/
inductive Txn where
  | read (addr : Nat) (value : Word)
  | write (addr : Nat) (value : Word)
  deriving DecidableEq, Repr

/-- The registers of the reference window (10_state.md R36) as bytes of the 2^32-byte logical register space: the bytes written
since power-on. An unlisted byte holds its power-on draw (R38), a free value no listed byte can be compared with, so a listed
byte is never dropped (log 8). -/
abbrev Memory := List Host.Cell

/-- The canonical form of a memory: addresses strictly rising, each below 2^32. -/
abbrev Memory.wf (m : Memory) : Prop := m.Pairwise (fun x y => x.1 < y.1) ∧ ∀ c ∈ m, c.1 < 2 ^ 32

/-- Which window answers the block: the chip's, an oracle (00_scope.md R18, 93 U8), or the reference model of
10_state.md R36. -/
inductive WindowKind where
  | oracle | reference
  deriving DecidableEq, Repr

/-- The self-clearing of F_VR_RST in the reference window (10_state.md R33, R36): none is under way, or how many further poll
reads see the bit set (with 0 every read sees it clear), or never clearing. Log 10. -/
inductive VrReset where
  | none
  | setFor (n : Nat)
  | never
  deriving DecidableEq, Repr

/-- The PCS register window (10_state.md section 3). -/
structure Window where
  kind : WindowKind
  /-- IDX (R31). -/
  idx : Word
  /-- REG of the reference window (R36). -/
  reg : Memory
  vr : VrReset
  /-- The draws N of R33 for the coming S3D writes; when it is spent a draw is the free value `Config.vrPolls`. -/
  vrScript : List (Option Nat)
  /-- How many free values the window has drawn. -/
  draws : Nat
  deriving DecidableEq, Repr

/-- How the bus ends a transaction of the block: as the window answers it, or with a bus error (41_accessor.md R107), after
which a read returns `word` and the window receives `word` in place of the value written, both of them any value (93 U5);
`lands`: the access reaches the window at all. Log 21. -/
inductive BusEnd where
  | ok
  | error (word : Word) (lands : Bool)
  deriving DecidableEq, Repr

/-- What can happen at the block's outside (10_state.md R20). -/
inductive Event where
  /-- The block takes its turn. -/
  | block
  /-- The block makes its next transaction and the bus ends it with an error (41_accessor.md R107, 93 U5). -/
  | busError (word : Word) (lands : Bool)
  /-- The host presents a command (30_encoding.md R86). -/
  | present (r : Record)
  /-- The host takes the response (R86, 60_exceptions.md R211). -/
  | take
  /-- Block reset (70 R240); `applied`: the transaction in flight takes effect at the window (93 U7). -/
  | reset (applied : Bool)
  /-- The configuration inputs are set (10_state.md R30). -/
  | configure (c : ConfigIn)
  /-- Another bus master reads (`none`) or writes the window (20_memory.md R57, 70 R251). -/
  | master (t : Target) (w : Option Word)
  /-- The reference window changes one of its registers itself (20_memory.md R58, 10_state.md R34). -/
  | window (n v : Word)
  deriving DecidableEq, Repr

/-- The state of the machine. -/
structure State where
  params : Params
  cfg : ConfigIn
  seq : Seq
  cmd : Cmd
  /-- The working register (10_state.md R24). -/
  acc : Word
  /-- The poll-read counter (R25). The block has one only while POLL_LIMIT is set (R25, 60_exceptions.md R214): with none no
  phase reads or writes this field. Log 15. -/
  pollcnt : Nat
  rsp : Rsp
  window : Window
  /-- The command waiting on the command port, if one is presented (30_encoding.md R86). -/
  port : Option Record
  /-- The block's bus transactions so far, oldest first (60_exceptions.md R217). -/
  bus : List Txn
  /-- The responses the host has taken so far, oldest first (R217). -/
  taken : List Rsp
  /-- What happens outside the block, next first; an event that is not ready waits, and the block takes its turn. -/
  events : List Event
  deriving DecidableEq, Repr

/-- Why the machine stops with a fault. The spec gives the block none (60_exceptions.md R207). -/
inductive Fault where
  /-- Raised by `advance`: the state register holds a (step, phase) pair that 10_state.md R22's table does not have. Safe: no
  step reaches one from a legal state. -/
  | phaseNotUsed
  deriving DecidableEq, Repr

/-- Why a run has no meaning (spec/93_implementation_defined.md, treatment `refuse`). -/
inductive Refusal where
  /-- Raised by `exec`'s arms for an instruction without a meaning. Safe. -/
  | notModelled (mnemonic : String)
  /-- Raised by `busWrite`, `busRead` and another master's access: the transaction was issued at an address outside the PCS
  mapping, or a data address wrapped past the end of the address space (93 U1). Safe. -/
  | outsideMapping (q : Request)
  /-- Raised there too: the address is not a multiple of 4 (93 U2). Safe. -/
  | misaligned (q : Request)
  /-- Raised there too: the data access overlaps the index register (93 U3). Safe. -/
  | overlapsIndex (q : Request)
  /-- Raised there too: the offset is outside the reference window model (10_state.md R36). Safe. -/
  | outsideReference (q : Request)
  /-- Raised by the event `window`: the reference window has no register of that number (10_state.md R36). Safe. -/
  | noSuchRegister (n : Word)
  /-- Raised by the event `master`: another agent accesses the window while the block is BUSY (93 U6). Safe. -/
  | otherMaster
  /-- Raised by the event `configure`: a configuration input changes while a command runs or its response waits (93 U9,
  10_state.md R30). Safe. -/
  | configChanged
  /-- Raised by every step: the parameters or configuration inputs are ill formed (93 U10). Safe. -/
  | badParameters
  deriving DecidableEq, Repr

/-- The outcome of one step of this machine. -/
abbrev Result := Host.Outcome State Fault Refusal

/-- CMD after reset (10_state.md R37). -/
def Cmd.reset : Cmd := ⟨0#2, 0#2, false, 0#32, 0#32⟩

/-- RSP after reset (10_state.md R37). -/
def Rsp.reset : Rsp := ⟨.ok, 0#32⟩

/-- The window at power-on: the chip's (DESIGN CHOICE, log 6), every register a draw (10_state.md R38). -/
def Window.powerOn : Window where
  kind := .oracle
  idx := Config.powerOnIdx
  reg := []
  vr := .none
  vrScript := []
  draws := 0

/-- The machine after reset: the block as 10_state.md R37 says, the window as R38 says, the configuration inputs at the
defaults of 00_scope.md R14 where it has them. DESIGN CHOICE (logs 4, 5): the OPEN parameters are P0's. -/
def State.reset : State where
  params := Config.p0
  cfg := Config.p0Inputs
  seq := ⟨.idle, .ri⟩
  cmd := Cmd.reset
  acc := 0#32
  pollcnt := 0
  rsp := Rsp.reset
  window := Window.powerOn
  port := none
  bus := []
  taken := []
  events := []

end Sys2Proof.Machine
end

