-- ==== Sys2Proof/Machine/Operands.lean ====
section
/-! DEFINITION. The operand forms: the base/offset decomposer (spec/41_accessor.md R101), the field helpers
(spec/00_scope.md R17), and the codes of the state register (spec/10_state.md R22). -/

namespace Sys2Proof.Machine

/-- `hi(r) = r >> 16`, the base address of a register number (41_accessor.md R101, 00_scope.md R6). -/
def hi (r : Word) : Half := (r >>> 16).setWidth 16

/-- `lo(r) = r & 0xFFFF`, the offset of a register number (41_accessor.md R101, 00_scope.md R7). -/
def lo (r : Word) : Half := (r &&& 0xFFFF#32).setWidth 16

/-- `zext_32(hi(r))`, the word an index write of r writes (41_accessor.md R102). -/
def indexWord (r : Word) : Word := (hi r).setWidth 32

/-- `a +_AW b` (00_scope.md R16). -/
def addAW (aw a b : Nat) : Nat := (a + b) % 2 ^ aw

/-- `mask(F) = (2^w - 1) << lsb` (00_scope.md R17). -/
def mask (f : Field) : Word := BitVec.ofNat 32 (2 ^ f.width - 1) <<< f.lsb

/-- `ins(F, v) = (v << lsb) & mask(F)` (R17). -/
def ins (f : Field) (v : Word) : Word := (v <<< f.lsb) &&& mask f

/-- `ext(F, x) = (x & mask(F)) >> lsb` (R17). -/
def ext (f : Field) (x : Word) : Word := (x &&& mask f) >>> f.lsb

/-- `clr(F, x) = x & ~mask(F)` (R17). -/
def clr (f : Field) (x : Word) : Word := x &&& ~~~(mask f)

/-- `setf(F, x, v) = clr(F, x) | ins(F, v)` (R17). -/
def setf (f : Field) (x v : Word) : Word := clr f x ||| ins f v

/-- `setb(F, x) = x | mask(F)` (R17). -/
def setb (f : Field) (x : Word) : Word := x ||| mask f

/-- The code of a step (10_state.md R22). -/
def SeqStep.code : SeqStep → BitVec 4
  | .idle => 0x0#4 | .xrd => 0x1#4 | .xwr => 0x2#4 | .s1 => 0x3#4
  | .s2a => 0x4#4 | .s2b => 0x5#4 | .s2c => 0x6#4 | .s3a => 0x7#4
  | .s3b => 0x8#4 | .s3c => 0x9#4 | .s3d => 0xA#4 | .s3p => 0xB#4
  | .s4 => 0xC#4 | .s5 => 0xD#4 | .sane => 0xE#4 | .resp => 0xF#4

/-- The code of a phase (10_state.md R22). -/
def Phase.code : Phase → BitVec 2
  | .ri => 0#2 | .rd => 1#2 | .wi => 2#2 | .wd => 3#2

/-- The phases each step uses (10_state.md R22, column "phases it uses"). -/
def SeqStep.uses : SeqStep → Phase → Bool
  | .idle, _ | .resp, _ => false
  | .xrd, f | .s1, f | .s3p, f => f == .ri || f == .rd
  | .xwr, f => f == .wi || f == .wd
  | .s2a, _ | .s2b, _ | .s2c, _ | .s3a, _ | .s3b, _ | .s3c, _ | .s3d, _ | .s4, _ | .s5, _ | .sane, _ => true

/-- The register each step accesses (10_state.md R22, last column); IDLE and RESP access none, and the word given for them
is used nowhere. -/
def SeqStep.register (p : Params) (c : Cmd) : SeqStep → Word
  | .xrd | .xwr => c.regnum
  | .s1 | .sane => p.rMiiCtrl
  | .s2a | .s3a => p.rPcsType
  | .s2b | .s4 => p.rAnCtrl
  | .s2c => p.r2p5g
  | .s3b | .s3d | .s3p => p.rDigCtrl
  | .s3c => p.rUsxgMode
  | .s5 => p.rMiiDigCtrl
  | .idle | .resp => 0#32

/-- BUSY: neither IDLE nor RESP (00_scope.md R19). -/
def SeqStep.busy : SeqStep → Bool
  | .idle | .resp => false
  | .xrd | .xwr | .s1 | .s2a | .s2b | .s2c | .s3a | .s3b | .s3c | .s3d | .s3p | .s4 | .s5 | .sane => true

/-- The steps of an INIT (42_sequencer.md R150). -/
def SeqStep.ofInit : SeqStep → Bool
  | .s1 | .s2a | .s2b | .s2c | .s3a | .s3b | .s3c | .s3d | .s3p | .s4 | .s5 => true
  | .idle | .xrd | .xwr | .sane | .resp => false

/-- The register the current step accesses. -/
def State.reg (s : State) : Word := s.seq.step.register s.params s.cmd

/-- CMD as acceptance of a record latches it (41_accessor.md R100); RSV is not latched (10_state.md R23). -/
def Cmd.ofRecord (r : Record) : Cmd := ⟨r.op, r.mode, r.en, r.regnum, r.wdata⟩

end Sys2Proof.Machine
end

