-- ==== Sys2Proof/Machine/Flags.lean ====
section
/-! DEFINITION. The block has no condition flags (spec/10_state.md R29): what stands here is the two status bits of the
window it tests, and the codes of the one status it reports (spec/60_exceptions.md R200). -/

namespace Sys2Proof.Machine

/-- F_SOFT_RST reads set in a word of R_MII_CTRL (42_sequencer.md R134, step S1). -/
def softResetSet (p : Params) (a : Word) : Bool := ext p.fSoftRst a == 1#32

/-- F_VR_RST reads set in a word of R_DIG_CTRL (42_sequencer.md R134, step S3P). -/
def vrResetSet (p : Params) (a : Word) : Bool := ext p.fVrRst a == 1#32

/-- The poll has made its last read (42_sequencer.md R134, R163): POLL_LIMIT = L and pollcnt = L. -/
def pollSpent (limit : Option Nat) (count : Nat) : Bool := limit == some count

/-- The code of a status (60_exceptions.md R200). -/
def Status.code : Status → BitVec 3
  | .ok => 0#3
  | .resetInProgress => 1#3
  | .unsupportedMode => 2#3
  | .pollTimeout => 3#3
  | .illegalCommand => 4#3

/-- The 35-bit response record (30_encoding.md R80). DESIGN CHOICE (log 20): STATUS is bits 2:0, RDATA bits 34:3. -/
def Rsp.toBits (r : Rsp) : BitVec 35 := r.rdata ++ r.status.code

end Sys2Proof.Machine
end

