-- ==== Sys2Proof/Machine/Ops.lean ====
section
/-! DEFINITION. The named operations: updates of the state, memory by bytes and words, acceptance, completion of a command
(with an error or without), the return from it, and block reset. -/

namespace Sys2Proof.Machine

/-- Run `f` after an operation that answered a next state. -/
def andThen {α β : Type} (o : Host.Outcome α Fault Refusal) (f : α → Host.Outcome β Fault Refusal) :
    Host.Outcome β Fault Refusal :=
  match o with
  | .next a => f a
  | .fault r => .fault r
  | .refused r => .refused r

/-! Updates of one field, and their frame lemmas in Laws/State.lean. -/

def State.withCfg (s : State) (c : ConfigIn) : State := { s with cfg := c }
def State.withSeq (s : State) (q : Seq) : State := { s with seq := q }
def State.withCmd (s : State) (c : Cmd) : State := { s with cmd := c }
def State.withAcc (s : State) (a : Word) : State := { s with acc := a }
def State.withPollcnt (s : State) (n : Nat) : State := { s with pollcnt := n }
def State.withRsp (s : State) (r : Rsp) : State := { s with rsp := r }
def State.withWindow (s : State) (w : Window) : State := { s with window := w }
def State.withPort (s : State) (r : Option Record) : State := { s with port := r }
def State.withBus (s : State) (b : List Txn) : State := { s with bus := b }
def State.withTaken (s : State) (t : List Rsp) : State := { s with taken := t }
def State.withEvents (s : State) (e : List Event) : State := { s with events := e }

/-! Memory: the registers of the reference window. -/

/-- The byte an address was last given, none where nothing was written since power-on. -/
def Memory.lookup : Memory → Nat → Option Byte
  | [], _ => none
  | c :: m, a => if c.1 = a then some c.2 else Memory.lookup m a

/-- What an address reads as: its byte, or the power-on draw (10_state.md R38). Log 8. -/
def Memory.byte (m : Memory) (a : Nat) : Byte := (m.lookup a).getD (Config.powerOnByte a)

/-- Write one byte, keeping the addresses rising. -/
def Memory.put : Memory → Nat → Byte → Memory
  | [], a, b => [(a, b)]
  | c :: m, a, b =>
    if a < c.1 then (a, b) :: c :: m else if a = c.1 then (a, b) :: m else c :: Memory.put m a b

/-- The address of byte `k` of the word at register number `n` (10_state.md R36: n is a multiple of 4). -/
def byteAddr (n : Word) (k : Nat) : Nat := (n + BitVec.ofNat 32 k).toNat

/-- Which byte of a word, counted from its least significant, stands at byte address `k` of the word (20_memory.md R63). -/
def byteIndex (o : ByteOrder) (k : Nat) : Nat :=
  match o with
  | .little => k
  | .big => 3 - k

/-- Byte `j` of a word, counted from its least significant. -/
def wordByte (v : Word) (j : Nat) : Byte := v.extractLsb' (8 * j) 8

/-- REG[n] (10_state.md R36). -/
def Memory.loadWord (m : Memory) (o : ByteOrder) (n : Word) : Word :=
  m.byte (byteAddr n (byteIndex o 3)) ++ m.byte (byteAddr n (byteIndex o 2)) ++
    m.byte (byteAddr n (byteIndex o 1)) ++ m.byte (byteAddr n (byteIndex o 0))

/-- REG[n] <- v (10_state.md R36). -/
def Memory.storeWord (m : Memory) (o : ByteOrder) (n v : Word) : Memory :=
  (((m.put (byteAddr n 0) (wordByte v (byteIndex o 0))).put (byteAddr n 1) (wordByte v (byteIndex o 1))).put
    (byteAddr n 2) (wordByte v (byteIndex o 2))).put (byteAddr n 3) (wordByte v (byteIndex o 3))

/-! Commands: acceptance, completion, return, block reset. -/

/-- Acceptance latches the command (41_accessor.md R100). -/
def State.accept (s : State) (c : Cmd) : State := s.withCmd c

/-- `finish(s, d)`: the command completes with a status and data (00_scope.md R18). -/
def State.finish (s : State) (st : Status) (d : Word) : State := (s.withRsp ⟨st, d⟩).withSeq ⟨.resp, .ri⟩

/-- `raise E`, the block's form of taking an exception (00_scope.md R18, 60_exceptions.md R201, R210): status E, data 0, and
the response becomes valid; nothing else is saved and nothing is undone. -/
def State.raise (s : State) (e : Status) : State := s.finish e 0#32

/-- The return: the host takes the response and the block is IDLE again; nothing is restored (60_exceptions.md R211,
30_encoding.md R86). -/
def State.takeResponse (s : State) : State := (s.withTaken (s.taken ++ [s.rsp])).withSeq ⟨.idle, .ri⟩

/-- Block reset: every piece of block state takes its value of 10_state.md R37 (70 R240); the window, the parameters, the
inputs and the command port are not the block's. -/
def State.blockReset (s : State) : State :=
  ((((s.withSeq ⟨.idle, .ri⟩).withCmd Cmd.reset).withAcc 0#32).withPollcnt 0).withRsp Rsp.reset

end Sys2Proof.Machine
end

