-- ==== Sys2Proof/Machine/Window.lean ====
section
/-! DEFINITION. The PCS register window (spec/10_state.md section 3) and the block's bus transactions with it
(spec/20_memory.md, spec/41_accessor.md section 3). -/

namespace Sys2Proof.Machine

/-- The logical register a data offset reaches: `{IDX[15:0], o}` (10_state.md R31). -/
def Window.select (w : Window) (o : Half) : Word := w.idx.setWidth 16 ++ o

/-- The self-clearing that a draw N begins (10_state.md R33): a number of poll reads, or never clearing. -/
def VrReset.ofDraw : Option Nat → VrReset
  | .some n => .setFor n
  | .none => .never

/-- S3D's write starts the self-clearing with a draw N (10_state.md R33, R36): the schedule's next, or a free value. -/
def Window.startReset (w : Window) : Window :=
  match w.vrScript with
  | n :: rest => { w with vr := .ofDraw n, vrScript := rest }
  | [] => { w with vr := .ofDraw (Config.vrPolls w.draws), draws := w.draws + 1 }

/-- A write the window receives; `x` is the step the block makes it in. An index write sets IDX in either window
(10_state.md R31); a data write sets REG in the reference window (R36), and what the chip's registers then hold is the
window's (93 U11). A write of R_DIG_CTRL starts the self-clearing of F_VR_RST in step S3D and ends it in any other, since a
word written reads back as it was written (41_accessor.md R112). Log 10. -/
def Window.write (p : Params) (x : SeqStep) (t : Target) (v : Word) (w : Window) : Window :=
  match t with
  | .index => { w with idx := v }
  | .data o =>
    match w.kind with
    | .oracle => w
    | .reference =>
      let w' : Window := { w with reg := w.reg.storeWord p.byteOrder (w.select o) v }
      if w.select o = p.rDigCtrl then if x = .s3d then w'.startReset else { w' with vr := .none } else w'

/-- A read of R_DIG_CTRL, which holds `v`, in the reference window (10_state.md R36): a poll read sees F_VR_RST set while the
draw lasts; from then on every read sees it clear, and it clears in REG. -/
def Window.readDigCtrl (p : Params) (x : SeqStep) (v : Word) (w : Window) : Word × Window :=
  match w.vr with
  | .none => (v, w)
  | .never => if x = .s3p then (setb p.fVrRst v, w) else (v, w)
  | .setFor (k + 1) => if x = .s3p then (setb p.fVrRst v, { w with vr := .setFor k }) else (v, w)
  | .setFor 0 => (clr p.fVrRst v, { w with reg := w.reg.storeWord p.byteOrder p.rDigCtrl (clr p.fVrRst v) })

/-- A read the window answers: IDX holds the last value written to it (10_state.md R31); the chip's window answers a data
read with a free value (93 U8); the reference window answers REG, F_VR_RST of R_DIG_CTRL self-clearing (R36). -/
def Window.read (p : Params) (x : SeqStep) (t : Target) (w : Window) : Word × Window :=
  match t with
  | .index => (w.idx, w)
  | .data o =>
    match w.kind with
    | .oracle => (Config.windowWord w.draws, { w with draws := w.draws + 1 })
    | .reference =>
      let v := w.reg.loadWord p.byteOrder (w.select o)
      if w.select o = p.rDigCtrl then w.readDigCtrl p x v else (v, w)

/-- What the window makes of a write that the bus ends so (41_accessor.md R107, 93 U5). -/
def Window.receive (e : BusEnd) (p : Params) (x : SeqStep) (t : Target) (v : Word) (w : Window) : Window :=
  match e with
  | .ok => w.write p x t v
  | .error word lands => if lands then w.write p x t word else w

/-- What a read that the bus ends so returns, and the window after it (41_accessor.md R107, 93 U5). -/
def Window.answer (e : BusEnd) (p : Params) (x : SeqStep) (t : Target) (w : Window) : Word × Window :=
  match e with
  | .ok => w.read p x t
  | .error word lands => (word, if lands then (w.read p x t).2 else w)

/-- The byte offset of a target from BASE (20_memory.md R64). -/
def State.offsetOf (s : State) : Target → Nat
  | .index => s.params.idxOff
  | .data o => o.toNat

/-- The bus address of a target: `BASE +_AW offset` (20_memory.md R64). -/
def State.addrOf (s : State) (t : Target) : Nat := addAW s.params.aw s.cfg.base (s.offsetOf t)

/-- The four bytes at `a` lie in the region. -/
def inRegion (a : Nat) (g : Region) : Bool := decide (g.start ≤ a) && decide (a + 4 ≤ g.start + g.size)

/-- The sum of a data address does not wrap (93 U1: `BASE +_AW offset`); the index address is taken modulo 2^AW without a range
check (20_memory.md R64). Log 11. -/
def State.staysInRange (s : State) : Target → Bool
  | .index => true
  | .data o => decide (s.cfg.base + o.toNat < 2 ^ s.params.aw)

/-- The address is one of the PCS mapping (20_memory.md R64; 93 U1). -/
def State.isMapped (s : State) (t : Target) : Bool :=
  s.staysInRange t && s.cfg.mapping.any (inRegion (s.addrOf t))

/-- The address is a multiple of 4 (20_memory.md R65; 93 U2). -/
def State.isAligned (s : State) (t : Target) : Bool := s.addrOf t % 4 == 0

/-- A data access does not overlap the index register (20_memory.md R67; 93 U3). -/
def State.missesIndex (s : State) : Target → Bool
  | .index => true
  | .data o =>
    decide (s.addrOf (.data o) + 4 ≤ s.addrOf .index) || decide (s.addrOf .index + 4 ≤ s.addrOf (.data o))

/-- The reference window has a register at the offset (10_state.md R36: `o[1:0] = 0`). -/
def State.inModel (s : State) : Target → Bool
  | .index => true
  | .data o => s.window.kind == .oracle || o.toNat % 4 == 0

/-- A transaction with this target has a meaning (93 U1, U2, U3; 10_state.md R36). -/
def State.accessible (s : State) (t : Target) : Bool :=
  s.isMapped t && s.isAligned t && s.missesIndex t && s.inModel t

/-- Why a transaction that is not `accessible` has no meaning, in the order U1, U2, U3, R36. -/
def State.refusalOf (s : State) (t : Target) (q : Request) : Refusal :=
  if s.isMapped t = false then .outsideMapping q
  else if s.isAligned t = false then .misaligned q
  else if s.missesIndex t = false then .overlapsIndex q
  else .outsideReference q

/-- `MemWrite(addr, 4, v)` by the block: one transaction, complete when this step ends however the bus ends it
(20_memory.md R51, R52, 41_accessor.md R107). -/
def busWrite (t : Target) (v : Word) (s : State) (e : BusEnd := .ok) : Result :=
  if s.accessible t then
    .next ((s.withWindow (s.window.receive e s.params s.seq.step t v)).withBus (s.bus ++ [.write (s.addrOf t) v]))
  else .refused (s.refusalOf t (.write (s.addrOf t) v))

/-- The word a data read of this target would return now. -/
def State.peek (s : State) (t : Target) (e : BusEnd := .ok) : Word := (s.window.answer e s.params s.seq.step t).1

/-- `MemRead(addr, 4)` by the block, the word taken into `acc` unchanged (41_accessor.md R104, R107, 20_memory.md R63). -/
def busRead (t : Target) (s : State) (e : BusEnd := .ok) : Result :=
  if s.accessible t then
    .next (((s.withWindow (s.window.answer e s.params s.seq.step t).2).withBus
      (s.bus ++ [.read (s.addrOf t) (s.peek t e)])).withAcc (s.peek t e))
  else .refused (s.refusalOf t (.read (s.addrOf t)))

/-- Another master's access to the window (20_memory.md R57, 70 R251): refused while the block is BUSY (70 R252, 93 U6),
otherwise it reaches the window as any access does; it is no transaction of the block. -/
def otherAccess (t : Target) (w : Option Word) (s : State) : Result :=
  if s.seq.step.busy then .refused .otherMaster
  else
    match w with
    | some v =>
      if s.accessible t then .next (s.withWindow (s.window.write s.params .idle t v))
      else .refused (s.refusalOf t (.write (s.addrOf t) v))
    | none =>
      if s.accessible t then .next (s.withWindow (s.window.read s.params .idle t).2)
      else .refused (s.refusalOf t (.read (s.addrOf t)))

/-- The window changes one of its registers itself (20_memory.md R58, 10_state.md R34). The chip's window shows a change only
in the words it returns, which are free already. DESIGN CHOICE: a change of R_DIG_CTRL sets REG only and leaves the
self-clearing of F_VR_RST as it was, on which the spec is silent. Log 22. -/
def windowChange (n v : Word) (s : State) : Result :=
  match s.window.kind with
  | .oracle => .next s
  | .reference =>
    if n.toNat % 4 = 0 then
      .next (s.withWindow { s.window with reg := s.window.reg.storeWord s.params.byteOrder n v })
    else .refused (.noSuchRegister n)

end Sys2Proof.Machine
end

