-- ==== Sys2Proof/Machine/Phases.lean ====
section
/-! DEFINITION. The step machinery shared by all commands (spec/42_sequencer.md section 1): the modify functions (R133), the
next-step function (R134) and the four phases (R130, R131; spec/41_accessor.md R102 to R106). -/

namespace Sys2Proof.Machine

/-- The modify function of a read-modify-write step, `t` = FIXED_SPEED_TEST (42_sequencer.md R133); the other steps write
`acc` as it is (XWR) or write nothing. -/
def SeqStep.modify (p : Params) (t : Bool) (x : SeqStep) (a : Word) : Word :=
  match x with
  | .s2a => setf p.fPcsType a Config.vPcsTypeSgmii
  | .s2b => setf p.fAnMode a p.vAnModeSgmii
  | .s2c => setb p.fEn2p5g a
  | .s3a => clr p.fPcsType a
  | .s3b => setb p.fUsxgEn a
  | .s3c => clr p.fUsxgMode a
  | .s3d => setb p.fVrRst a
  | .s4 => setb p.fAnIntrEn (clr p.fTxCfg a)
  | .s5 => if t then clr p.fMacAutoSw a else setb p.fMacAutoSw (clr p.fMacAutoSw a)
  | .sane => if t then clr p.fAnEn a else setb p.fAnEn a
  | .idle | .xrd | .xwr | .s1 | .s3p | .resp => a

/-- `state <- (x, RI)`. -/
def State.goto (s : State) (x : SeqStep) : State := s.withSeq ⟨x, .ri⟩

/-- The decision after S1's read (42_sequencer.md R134, R140, R152). -/
def afterS1 (s : State) : State :=
  if softResetSet s.params s.acc then s.raise .resetInProgress
  else if s.cmd.mode = 0#2 then s.goto .s2a
  else if s.cmd.mode = 1#2 then s.goto .s3a
  else s.goto .s4

/-- The status-poll arbiter's decision after a poll read, `pollcnt` counting that read (42_sequencer.md R134, R161 to R163). -/
def afterPoll (s : State) : State :=
  if vrResetSet s.params s.acc = false then s.goto .s4
  else if pollSpent s.cfg.pollLimit s.pollcnt then s.raise .pollTimeout
  else s.goto .s3p

/-- `pollcnt <- 0` when S3D completes (42_sequencer.md R161); with no POLL_LIMIT there is no counter (10_state.md R25,
60_exceptions.md R214). -/
def clearPoll (s : State) : State := if s.cfg.pollLimit = none then s else s.withPollcnt 0

/-- `next(X)` (42_sequencer.md R134), applied to the state in which step X's last phase has completed. -/
def completeStep (s : State) : State :=
  match s.seq.step with
  | .s1 => afterS1 s
  | .s2a => s.goto .s2b
  | .s2b => if s.cfg.fixedSpeedTest then s.goto .s2c else s.goto .s4
  | .s2c => s.goto .s4
  | .s3a => s.goto .s3b
  | .s3b => s.goto .s3c
  | .s3c => s.goto .s3d
  | .s3d => (clearPoll s).goto .s3p
  | .s3p => afterPoll s
  | .s4 => s.goto .s5
  | .s5 => s.finish .ok 0#32
  | .sane => s.finish .ok 0#32
  | .xrd => s.finish .ok s.acc
  | .xwr => s.finish .ok 0#32
  | .idle | .resp => s

/-! The phases; `e` is how the bus ends the transaction, which does not change the sequence (41_accessor.md R107). -/

/-- Phase RI: the index write of a read (41_accessor.md R104). -/
def phaseRI (s : State) (e : BusEnd := .ok) : Result :=
  andThen (busWrite .index (indexWord s.reg) s e) fun t => .next (t.withSeq ⟨s.seq.step, .rd⟩)

/-- The count of poll reads after a data read (42_sequencer.md R161), where there is a counter (10_state.md R25). -/
def countPoll (s : State) : State :=
  if s.seq.step = .s3p ∧ s.cfg.pollLimit ≠ none then s.withPollcnt (s.pollcnt + 1) else s

/-- Phase RD: the data read into `acc` (41_accessor.md R104); a step that writes goes on to WI, a step that only reads
decides (42_sequencer.md R130, R131). -/
def phaseRD (s : State) (e : BusEnd := .ok) : Result :=
  andThen (busRead (.data (lo s.reg)) s e) fun t =>
    if s.seq.step.uses .wi then .next (t.withSeq ⟨s.seq.step, .wi⟩) else .next (completeStep (countPoll t))

/-- Phase WI: `acc <- f_X(acc)` and the index write of a write (42_sequencer.md R130, 41_accessor.md R105). -/
def phaseWI (s : State) (e : BusEnd := .ok) : Result :=
  andThen (busWrite .index (indexWord s.reg) (s.withAcc (s.seq.step.modify s.params s.cfg.fixedSpeedTest s.acc)) e) fun t =>
    .next (t.withSeq ⟨s.seq.step, .wd⟩)

/-- Phase WD: the data write of `acc` (41_accessor.md R105), then the next step (42_sequencer.md R130). -/
def phaseWD (s : State) (e : BusEnd := .ok) : Result :=
  andThen (busWrite (.data (lo s.reg)) s.acc s e) fun t => .next (completeStep t)

/-- One step of a BUSY block: the transaction of its current phase (10_state.md R20 (a), R28, 41_accessor.md R106). -/
def advance (s : State) (e : BusEnd := .ok) : Result :=
  if s.seq.step.uses s.seq.phase then
    match s.seq.phase with
    | .ri => phaseRI s e
    | .rd => phaseRD s e
    | .wi => phaseWI s e
    | .wd => phaseWD s e
  else .fault .phaseNotUsed

/-- One block step on behalf of a command: its acceptance when the block is IDLE (41_accessor.md R100), its next transaction
when it is the command in flight; a command presented while another runs or a response waits is not accepted and waits
(30_encoding.md R86). `own` says which steps are the command's, `start` is what acceptance does after latching. Log 1. -/
def runCommand (c : Cmd) (own : SeqStep → Bool) (start : State → State) (s : State) : Result :=
  if s.seq.step = .idle then .next (start (s.accept c))
  else if own s.seq.step && s.cmd == c then advance s
  else .next s

end Sys2Proof.Machine
end

