-- ==== Sys2Proof/Machine/Accessor.lean ====
section
/-! DEFINITION. The commands of the Indirect Register Accessor (spec/41_accessor.md): READ and WRITE. -/

namespace Sys2Proof.Machine

/-- CMD of a READ (30_encoding.md R82). -/
def cmdRead (regnum wdata : Word) : Cmd := ⟨0#2, 0#2, false, regnum, wdata⟩

/-- READ (41_accessor.md R110): acceptance goes to (XRD, RI); then the index write of hi(r), then the data read at lo(r), whose
word is the response (`completeStep`, XRD). -/
def execRead (regnum wdata : Word) (s : State) : Result :=
  runCommand (cmdRead regnum wdata) (fun x => x == .xrd) (fun t => t.withSeq ⟨.xrd, .ri⟩) s

/-- CMD of a WRITE (30_encoding.md R82). -/
def cmdWrite (regnum wdata : Word) : Cmd := ⟨1#2, 0#2, false, regnum, wdata⟩

/-- WRITE (41_accessor.md R111): acceptance loads `acc` with WDATA and goes to (XWR, WI); then the index write of hi(r), then
the data write at lo(r). -/
def execWrite (regnum wdata : Word) (s : State) : Result :=
  runCommand (cmdWrite regnum wdata) (fun x => x == .xwr) (fun t => (t.withAcc wdata).withSeq ⟨.xwr, .wi⟩) s

end Sys2Proof.Machine
end

