-- ==== Sys2Proof/Machine/Sequencer.lean ====
section
/-! DEFINITION. The commands of the PCS Initialization Sequencer (spec/42_sequencer.md): INIT and SETANE. -/

namespace Sys2Proof.Machine

/-- CMD of an INIT (30_encoding.md R82, R83). -/
def cmdInit (mode : PcsMode) (regnum wdata : Word) : Cmd := ⟨2#2, mode.code, false, regnum, wdata⟩

/-- The mode check at acceptance of an INIT (42_sequencer.md R151). -/
def startInit (s : State) : State :=
  if (s.cmd.mode = 2#2 ∨ s.cmd.mode = 3#2) ∧ s.cfg.unsupportedModeFails = true then s.raise .unsupportedMode
  else s.withSeq ⟨.s1, .ri⟩

/-- INIT (42_sequencer.md R150): the mode check at acceptance, then the steps S1 to S5 in the order of R134, one transaction
a step, the poll of S3P included. -/
def execInit (mode : PcsMode) (regnum wdata : Word) (s : State) : Result :=
  runCommand (cmdInit mode regnum wdata) SeqStep.ofInit startInit s

/-- CMD of a SETANE (30_encoding.md R82). -/
def cmdSetane (en : Bool) (regnum wdata : Word) : Cmd := ⟨3#2, 0#2, en, regnum, wdata⟩

/-- Acceptance of a SETANE: with EN = 0 it completes at once, making no transaction (42_sequencer.md R170, R171). -/
def startSetane (s : State) : State := if s.cmd.en then s.withSeq ⟨.sane, .ri⟩ else s.finish .ok 0#32

/-- SETANE (42_sequencer.md R170): with EN = 1 the read-modify-write step SANE on R_MII_CTRL. -/
def execSetane (en : Bool) (regnum wdata : Word) (s : State) : Result :=
  runCommand (cmdSetane en regnum wdata) (fun x => x == .sane) startSetane s

end Sys2Proof.Machine
end

