-- ==== Sys2Proof/Machine/Dispatch.lean ====
section
/-! DEFINITION. One arm per command. -/

namespace Sys2Proof.Machine

def exec (i : Instr) (s : State) : Host.Outcome State Fault Refusal :=
  match i with
  | .read regnum wdata => Sys2Proof.Machine.execRead regnum wdata s
  | .write regnum wdata => Sys2Proof.Machine.execWrite regnum wdata s
  | .init mode regnum wdata => Sys2Proof.Machine.execInit mode regnum wdata s
  | .setane en regnum wdata => Sys2Proof.Machine.execSetane en regnum wdata s

end Sys2Proof.Machine
end

