-- ==== Sys2Proof/Machine/Turn.lean ====
section
/-! DEFINITION. One step of the machine: the block's turn (spec/30_encoding.md R86, spec/41_accessor.md R100) or an event from
outside the block (spec/10_state.md R20). -/

namespace Sys2Proof.Machine

/-- Acceptance of a record whose control byte is illegal: latched, no transaction, IllegalCommand (41_accessor.md R100,
60_exceptions.md R206). -/
def acceptIllegal (r : Record) (s : State) : State := (s.accept (Cmd.ofRecord r)).raise .illegalCommand

/-- The block meets the record on its command port while IDLE (41_accessor.md R100, 30_encoding.md R87). -/
def acceptRecord (r : Record) (s : State) : Result :=
  match decode r with
  | .ok i => exec i s
  | .error _ => .next (acceptIllegal r s)

/-- The block's turn. IDLE: it accepts the command on the port, or waits (70 R244). RESP: the response waits for the host
(30_encoding.md R86). BUSY: the transaction of the current phase. -/
def blockTurn (s : State) : Result :=
  match s.seq.step with
  | .idle =>
    match s.port with
    | none => .next s
    | some r => acceptRecord r (s.withPort none)
  | .resp => .next s
  | .xrd | .xwr | .s1 | .s2a | .s2b | .s2c | .s3a | .s3b | .s3c | .s3d | .s3p | .s4 | .s5 | .sane => advance s

/-- Block reset at any time (70 R240). `applied`: the transaction the block had in flight takes effect at the window first
(93 U7). -/
def resetTurn (applied : Bool) (s : State) : Result :=
  if applied && s.seq.step.busy then andThen (advance s) fun t => .next t.blockReset else .next s.blockReset

/-- The configuration inputs are set: only while the block is IDLE may they change (10_state.md R30, 70 R257; 93 U9). -/
def configure (c : ConfigIn) (s : State) : Result :=
  if c = s.cfg then .next s else if s.seq.step = .idle then .next (s.withCfg c) else .refused .configChanged

/-- An event can happen now: a command is presented when the port is free (30_encoding.md R86: no queue), a response is taken
when there is one, a bus error needs a transaction; every other event can always happen. Log 2. -/
def Event.ready (s : State) : Event → Bool
  | .present _ => s.port.isNone
  | .take => s.seq.step == .resp
  | .busError _ _ => s.seq.step.busy
  | .block | .reset _ | .configure _ | .master _ _ | .window _ _ => true

/-- An event that is ready happens. -/
def happen (e : Event) (s : State) : Result :=
  match e with
  | .block => blockTurn s
  | .busError word lands => advance s (.error word lands)
  | .present r => .next (s.withPort (some r))
  | .take => .next s.takeResponse
  | .reset applied => resetTurn applied s
  | .configure c => configure c s
  | .master t w => otherAccess t w s
  | .window n v => windowChange n v s

/-- The next event of the schedule if it is ready, else the block's turn. Ill-formed parameters give no run a meaning
(93 U10). -/
def turn (s : State) : Result :=
  if s.params.wf && s.cfg.wf s.params then
    match s.events with
    | [] => blockTurn s
    | e :: rest => if e.ready s then happen e (s.withEvents rest) else blockTurn s
  else .refused .badParameters

/-- The block IDLE with this record on its command port and nothing else about to happen. -/
def State.presenting (s : State) (r : Record) : State :=
  ((s.withSeq ⟨.idle, .ri⟩).withPort (some r)).withEvents []

end Sys2Proof.Machine
end

