-- ==== Sys2Proof/Machine/Step.lean ====
section
/-! DEFINITION. The step function, and how a command word is placed where the next step accepts it. -/

namespace Sys2Proof.Machine

/-- One step of the machine. -/
def step (s : State) : Host.Outcome State Fault Refusal := turn s

/-- `s` with the command of a table word on its command port, ready for acceptance by the very next step: the block IDLE, the
port holding the record, no event before it (log 23). -/
def State.withFetchWord (s : State) (nbits w : Nat) : State := s.presenting (tableRecord nbits w)

end Sys2Proof.Machine
end

