-- ==== Sys2Proof/Machine/Assembler.lean ====
section
/-! DEFINITION. The host's side of the command port: assembler syntax, the pseudo-command MODIFY and the written form of a
response (spec/30_encoding.md R90 to R92). Nothing here is a step of the block. Text is a list of characters. -/

namespace Sys2Proof.Machine

/-- A line of assembler: one command, or MODIFY (30_encoding.md R90, R91). -/
inductive AsmLine where
  | command (i : Instr)
  | modify (regnum clearmask setmask : Word)
  deriving DecidableEq, Repr

/-- Put a finished token before the others. -/
def pushToken (tok : List Char) (rest : List (List Char)) : List (List Char) := if tok = [] then rest else tok :: rest

/-- Tokens: runs of characters between blanks; a comma is a token of its own. `tok` is the token being read. -/
def lex (tok : List Char) : List Char → List (List Char)
  | [] => pushToken tok []
  | c :: cs =>
    if c = ' ' then pushToken tok (lex [] cs)
    else if c = ',' then pushToken tok ([','] :: lex [] cs)
    else lex (tok ++ [c]) cs

/-- The value of a hexadecimal digit of either case. -/
def hexDigit (c : Char) : Option Nat :=
  let n := c.toNat
  if 48 ≤ n ∧ n ≤ 57 then some (n - 48)
  else if 97 ≤ n ∧ n ≤ 102 then some (n - 87)
  else if 65 ≤ n ∧ n ≤ 70 then some (n - 55)
  else none

/-- The value of digits in a base, on top of what was read already. -/
def digits (base acc : Nat) : List Char → Option Nat
  | [] => some acc
  | c :: cs =>
    match hexDigit c with
    | some d => if d < base then digits base (acc * base + d) cs else none
    | none => none

/-- A number: hex `0x...` or decimal, of at most 32 bits (30_encoding.md R90, 00_scope.md R8). -/
def number (t : List Char) : Option Word :=
  let value : Option Nat :=
    match t with
    | [] => none
    | ['0', 'x'] => none
    | '0' :: 'x' :: ds => digits 16 0 ds
    | ds => digits 10 0 ds
  match value with
  | some n => if n < 2 ^ 32 then some (BitVec.ofNat 32 n) else none
  | none => none

/-- The mode names of INIT; `MODE=11` is the only way to write the second `other` code (30_encoding.md R90, R92). -/
def modeName (t : List Char) : Option PcsMode :=
  if t = ['S', 'G', 'M', 'I', 'I'] then some .sgmii
  else if t = ['U', 'S', 'X', 'G', 'M', 'I', 'I'] then some .usxgmii
  else if t = ['O', 'T', 'H', 'E', 'R'] then some .other
  else if t = ['M', 'O', 'D', 'E', '=', '1', '1'] then some .other3
  else none

/-- The operand of SETANE. -/
def enName (t : List Char) : Option Bool := if t = ['0'] then some false else if t = ['1'] then some true else none

/-- A command from a mnemonic in capitals and its operand tokens. Operand words a command does not use are 0 (log 24). -/
def parseTokens (m : List Char) (args : List (List Char)) : Option AsmLine :=
  if m = ['R', 'E', 'A', 'D'] then
    match args with
    | [r] => (number r).map fun r => .command (.read r 0#32)
    | _ => none
  else if m = ['W', 'R', 'I', 'T', 'E'] then
    match args with
    | [r, [','], v] => (number r).bind fun r => (number v).map fun v => .command (.write r v)
    | _ => none
  else if m = ['I', 'N', 'I', 'T'] then
    match args with
    | [a] => (modeName a).map fun a => .command (.init a 0#32 0#32)
    | _ => none
  else if m = ['S', 'E', 'T', 'A', 'N', 'E'] then
    match args with
    | [e] => (enName e).map fun e => .command (.setane e 0#32 0#32)
    | _ => none
  else if m = ['M', 'O', 'D', 'I', 'F', 'Y'] then
    match args with
    | [r, [','], c, [','], v] =>
      (number r).bind fun r => (number c).bind fun c => (number v).map fun v => .modify r c v
    | _ => none
  else none

/-- One line of assembler, mnemonics in either case (30_encoding.md R90). -/
def assemble (line : List Char) : Option AsmLine :=
  match lex [] line with
  | m :: args => parseTokens (m.map Char.toUpper) args
  | [] => none

/-- The first command of `MODIFY regnum, clearmask, setmask` (30_encoding.md R91). -/
def modifyRead (regnum : Word) : Instr := .read regnum 0#32

/-- Its second command, from the RDATA of the first one's response (30_encoding.md R91). -/
def modifyWrite (regnum clearmask setmask rdata : Word) : Instr := .write regnum ((rdata &&& ~~~clearmask) ||| setmask)

/-- The written name of a status (60_exceptions.md R200). -/
def Status.name : Status → String
  | .ok => "OK"
  | .resetInProgress => "ResetInProgress"
  | .unsupportedMode => "UnsupportedMode"
  | .pollTimeout => "PollTimeout"
  | .illegalCommand => "IllegalCommand"

/-- A digit below 16 as it is written in hexadecimal. -/
def hexChar (n : Nat) : Char := if n < 10 then Char.ofNat (48 + n) else Char.ofNat (55 + n)

/-- A word as `0x` and eight hexadecimal digits. -/
def hexWord (v : Word) : List Char :=
  '0' :: 'x' :: [7, 6, 5, 4, 3, 2, 1, 0].map fun k => hexChar (v.extractLsb' (4 * k) 4).toNat

/-- A response as it is written, `-> <STATUS>[, <RDATA>]` (30_encoding.md R90). -/
def Rsp.written (r : Rsp) (withData : Bool) : List Char :=
  ['-', '>', ' '] ++ r.status.name.toList ++ if withData then [',', ' '] ++ hexWord r.rdata else []

end Sys2Proof.Machine
end

