-- ==== Sys2Proof/Safety.lean ====
section
/-! DEFINITION. What counts as a safe run, in the terms the statements use: runs of the machine and of one command, when a
register can be accessed, the transactions a command makes, and the invariant every step keeps. -/

namespace Sys2Proof.Machine

/-- `k` steps of the machine. -/
def run : Nat → State → Result
  | 0, s => .next s
  | k + 1, s => andThen (step s) (run k)

/-- `k` block steps on behalf of one command: its acceptance and then its transactions (log 1). -/
def execRun (i : Instr) : Nat → State → Result
  | 0, s => .next s
  | k + 1, s => andThen (exec i s) (execRun i k)

/-- The parameters and configuration inputs have a meaning (93 U10). -/
def State.wellSet (s : State) : Bool := s.params.wf && s.cfg.wf s.params

/-- The two transactions of an access to register r have a meaning (70 R241 (1), (2)). -/
def State.canAccess (s : State) (r : Word) : Bool := s.accessible .index && s.accessible (.data (lo r))

/-- INIT's registers in every mode, and SETANE's, can be accessed (70 R241). -/
def State.canAccessAll (s : State) : Bool :=
  [s.params.rMiiCtrl, s.params.rPcsType, s.params.rAnCtrl, s.params.rDigCtrl, s.params.r2p5g, s.params.rUsxgMode,
    s.params.rMiiDigCtrl].all s.canAccess

/-- The index write of register r (41_accessor.md R102), the spec's `I(r)` (42_sequencer.md R155). -/
def State.indexTxn (s : State) (r : Word) : Txn := .write (s.addrOf .index) (indexWord r)

/-- A data read of register r returning v, the spec's `R(r)`. -/
def State.readTxn (s : State) (r v : Word) : Txn := .read (s.addrOf (.data (lo r))) v

/-- A data write of v to register r, the spec's `W(r)`. -/
def State.writeTxn (s : State) (r v : Word) : Txn := .write (s.addrOf (.data (lo r))) v

/-- The four transactions of a read-modify-write step X that reads `a` (42_sequencer.md R130). -/
def State.rmwTxns (s : State) (x : SeqStep) (a : Word) : List Txn :=
  let r := x.register s.params s.cmd
  [s.indexTxn r, s.readTxn r a, s.indexTxn r, s.writeTxn r (x.modify s.params s.cfg.fixedSpeedTest a)]

/-- The word of register r in the reference window: REG[r] (10_state.md R36). -/
def State.regValue (s : State) (r : Word) : Word := s.window.reg.loadWord s.params.byteOrder r

/-- The window as a data read of register r finds it once its index write is made. -/
def Window.selecting (w : Window) (r : Word) : Window := { w with idx := indexWord r }

/-- The word a data read of register r would return now, its index write made first (R104). -/
def State.wouldRead (s : State) (x : SeqStep) (r : Word) : Word :=
  ((s.window.selecting r).read s.params x (.data (lo r))).1

/-- Byte address a is one of the four bytes of register n. -/
def inRegister (n : Word) (a : Nat) : Prop :=
  a = byteAddr n 0 ∨ a = byteAddr n 1 ∨ a = byteAddr n 2 ∨ a = byteAddr n 3

/-- The steps of a command are run for that command: the latch holds the operation, and for INIT the mode and the inputs that
lead to the step (42_sequencer.md R134, R143, R151). -/
def SeqStep.runsFor (x : SeqStep) (c : Cmd) (g : ConfigIn) : Bool :=
  match x with
  | .idle | .resp => true
  | .xrd => c.op == 0#2
  | .xwr => c.op == 1#2
  | .s1 | .s4 | .s5 => c.op == 2#2 && !((c.mode == 2#2 || c.mode == 3#2) && g.unsupportedModeFails)
  | .s2a | .s2b => c.op == 2#2 && c.mode == 0#2
  | .s2c => c.op == 2#2 && c.mode == 0#2 && g.fixedSpeedTest
  | .s3a | .s3b | .s3c | .s3d | .s3p => c.op == 2#2 && c.mode == 1#2
  | .sane => c.op == 3#2 && c.en

/-- Between an index write and its data access, IDX selects the register meant (41_accessor.md R106, R113). A bus error on the
index write can break this (93 U5), so it is no part of `Inv`. -/
abbrev State.selectsRegister (s : State) : Prop :=
  s.seq.step.busy = true → (s.seq.phase = .rd ∨ s.seq.phase = .wd) → s.window.idx = indexWord s.reg

/-- What holds in every state a run reaches. -/
structure Inv (s : State) : Prop where
  /-- The memory is in canonical form. -/
  memory : s.window.reg.wf
  /-- A BUSY block is in a phase its step uses (10_state.md R22). -/
  phase : s.seq.step.busy = true → s.seq.step.uses s.seq.phase = true
  /-- The step belongs to the latched command (10_state.md R23, 42_sequencer.md R134). -/
  latch : s.seq.step.runsFor s.cmd s.cfg = true
  /-- A WRITE holds its value in `acc` (10_state.md R24). -/
  writeValue : s.seq.step = .xwr → s.acc = s.cmd.wdata
  /-- `pollcnt` never passes POLL_LIMIT (41_accessor.md R108, 42_sequencer.md R163). -/
  poll : s.seq.step = .s3p → ∀ l, s.cfg.pollLimit = some l → s.pollcnt < l
  /-- RDATA is 0 unless the response is a READ's OK (10_state.md R26). -/
  response : s.seq.step = .resp → s.rsp.rdata = 0#32 ∨ (s.rsp.status = .ok ∧ s.cmd.op = 0#2)

end Sys2Proof.Machine
end

