-- ==== Sys2Proof/Certificates/Slice0/Obligations.lean ====
section
/-! DEFINITION. The statements for the provers, from the numbered rules of spec/. OBLIGATIONS.json lists them. `exec i s` is one
block step on behalf of command i, and `execRun i k s` is k of them: how a command's steps are cut into calls is the model's
choice (log 1). -/

open Sys2Proof Sys2Proof.Machine

/-! ## Encoding -/

/-- Decoding and encoding of the 72 bits of a command are inverse to each other: every word a command is encoded as decodes
to that command with every operand, and a word that decodes is the encoding of what it decodes to (30_encoding.md R81 to R83,
R87, R89; the place of each word among the 72 bits is the model's choice, log 3). -/
def Obligations.DecodeAndEncodeAreInverse : Prop :=
  ∀ (w : BitVec 72) (i : Instr), decodeBits w = .ok i ↔ w = encodeBits i

/-- 30_encoding.md R89: the eight control bytes of the opcode map and what they stand for, words written out from the map. -/
def Obligations.ControlBytesDecodeAsTheMapSays : Prop :=
  ∀ r d : Word,
    decode ⟨0x00#8, r, d⟩ = .ok (.read r d) ∧ decode ⟨0x01#8, r, d⟩ = .ok (.write r d) ∧
    decode ⟨0x02#8, r, d⟩ = .ok (.init .sgmii r d) ∧ decode ⟨0x06#8, r, d⟩ = .ok (.init .usxgmii r d) ∧
    decode ⟨0x0A#8, r, d⟩ = .ok (.init .other r d) ∧ decode ⟨0x0E#8, r, d⟩ = .ok (.init .other3 r d) ∧
    decode ⟨0x03#8, r, d⟩ = .ok (.setane false r d) ∧ decode ⟨0x13#8, r, d⟩ = .ok (.setane true r d)

/-- 30_encoding.md R85: which control bytes are illegal, that exactly eight are legal, and that an illegal command is accepted,
makes no transaction and completes with IllegalCommand. -/
def Obligations.IllegalControlBytesAreAnsweredSo : Prop :=
  (∀ r : Record, (∃ e, decode r = .error e) ↔
    (r.rsv ≠ 0#3 ∨ (r.op ≠ 2#2 ∧ r.mode ≠ 0#2) ∨ (r.op ≠ 3#2 ∧ r.en = true))) ∧
  (∀ r : Record, (∃ i, decode r = .ok i) ↔
    r.ctl ∈ [0x00#8, 0x01#8, 0x02#8, 0x06#8, 0x0A#8, 0x0E#8, 0x03#8, 0x13#8]) ∧
  (∀ (s : State) (r : Record) (e : Reject), s.wellSet = true → s.events = [] → s.seq.step = .idle → s.port = some r →
    decode r = .error e →
    step s = .next { s with seq := ⟨.resp, .ri⟩, cmd := ⟨r.op, r.mode, r.en, r.regnum, r.wdata⟩,
                            rsp := ⟨.illegalCommand, 0#32⟩, port := none })

/-- One step runs the decoded command (30_encoding.md R86, R87, 41_accessor.md R100, 10_state.md R20): an IDLE block runs the
meaning of the command on its port, a BUSY block the meaning of the command it latched, where the latch fits the step (as it
does in every state of `Inv`). -/
def Obligations.StepRunsTheDecodedCommand : Prop :=
  (∀ (s : State) (r : Record) (i : Instr), s.wellSet = true → s.events = [] → s.seq.step = .idle → s.port = some r →
    decode r = .ok i → step s = exec i { s with port := none }) ∧
  (∀ (s : State) (r : Record) (i : Instr), s.wellSet = true → s.events = [] → s.seq.step.busy = true →
    s.seq.step.runsFor s.cmd s.cfg = true → decode r = .ok i → s.cmd = ⟨r.op, r.mode, r.en, r.regnum, r.wdata⟩ →
    step s = exec i s)

/-- A table word placed for the next step is run by it as the command it decodes to (30_encoding.md R86, R87, 41_accessor.md
R100; how a command comes to the port is the model's choice, log 23). -/
def Obligations.PlacedWordIsRunNext : Prop :=
  ∀ (s : State) (nbits w : Nat) (i : Instr), s.wellSet = true → decodeTableWord nbits w = some i →
    step (s.withFetchWord nbits w) = exec i { s with seq := ⟨.idle, .ri⟩, port := none, events := [] }

/-! ## Acceptance, reset, responses -/

/-- 41_accessor.md R100: acceptance latches the command and dispatches it in one step, without a bus transaction. -/
def Obligations.AcceptanceLatchesAndDispatches : Prop :=
  ∀ (s : State) (q : Record), s.wellSet = true → s.events = [] → s.seq.step = .idle → s.port = some q →
    ∃ t, step s = .next t ∧ t.cmd = ⟨q.op, q.mode, q.en, q.regnum, q.wdata⟩ ∧ t.port = none ∧ t.bus = s.bus ∧
      t.window = s.window ∧ t.params = s.params ∧ t.cfg = s.cfg ∧ t.taken = s.taken ∧ t.pollcnt = s.pollcnt ∧
      (∀ e, decode q = .error e → t.seq.step = .resp ∧ t.rsp = ⟨.illegalCommand, 0#32⟩ ∧ t.acc = s.acc) ∧
      (∀ r d, decode q = .ok (.read r d) → t.seq = ⟨.xrd, .ri⟩ ∧ t.acc = s.acc ∧ t.rsp = s.rsp) ∧
      (∀ r d, decode q = .ok (.write r d) → t.seq = ⟨.xwr, .wi⟩ ∧ t.acc = d ∧ t.rsp = s.rsp) ∧
      (∀ m r d, decode q = .ok (.init m r d) → t.acc = s.acc ∧
        if (m = .other ∨ m = .other3) ∧ s.cfg.unsupportedModeFails = true then
          t.seq.step = .resp ∧ t.rsp = ⟨.unsupportedMode, 0#32⟩
        else t.seq = ⟨.s1, .ri⟩ ∧ t.rsp = s.rsp) ∧
      (∀ e r d, decode q = .ok (.setane e r d) → t.acc = s.acc ∧
        if e = true then t.seq = ⟨.sane, .ri⟩ ∧ t.rsp = s.rsp else t.seq.step = .resp ∧ t.rsp = ⟨.ok, 0#32⟩)

/-- 10_state.md R37: the block after reset, and that it then waits for a command. -/
def Obligations.ResetLeavesTheBlockIdle : Prop :=
  State.reset.seq = ⟨.idle, .ri⟩ ∧ State.reset.cmd = ⟨0#2, 0#2, false, 0#32, 0#32⟩ ∧ State.reset.acc = 0#32 ∧
    State.reset.pollcnt = 0 ∧ State.reset.rsp.status.code = 0#3 ∧ State.reset.rsp.rdata = 0#32 ∧
    State.reset.seq.step ≠ .resp ∧ step State.reset = .next State.reset

/-- 70_reset_and_hazards.md R240: block reset at any time gives the block its values of R37 and issues no transaction of its
own, or only the one that was in flight. That the event carries whether that one took effect, and that the command port keeps
its record, are the model's choices (log 18). -/
def Obligations.BlockResetAbandonsTheCommand : Prop :=
  ∀ (s : State) (applied : Bool) (rest : List Event), s.wellSet = true → s.events = .reset applied :: rest →
    (applied = false ∨ s.seq.step.busy = false →
      step s = .next { s with seq := ⟨.idle, .ri⟩, cmd := ⟨0#2, 0#2, false, 0#32, 0#32⟩, acc := 0#32, pollcnt := 0,
                              rsp := ⟨.ok, 0#32⟩, events := rest }) ∧
    (applied = true → s.seq.step.busy = true → ∀ u, advance s = .next u →
      step s = .next { s with seq := ⟨.idle, .ri⟩, cmd := ⟨0#2, 0#2, false, 0#32, 0#32⟩, acc := 0#32, pollcnt := 0,
                              rsp := ⟨.ok, 0#32⟩, events := rest, window := u.window, bus := u.bus })

/-- 60_exceptions.md R211, 30_encoding.md R86: a response waits until the host takes it; taking it returns the block to IDLE
and restores nothing. That RSP keeps its value when it is taken is the model's reading (log 20). -/
def Obligations.ResponseWaitsAndIsTaken : Prop :=
  ∀ s : State, s.wellSet = true → s.seq.step = .resp →
    (s.events = [] → step s = .next s) ∧
    (∀ rest, s.events = .take :: rest →
      step s = .next { s with seq := ⟨.idle, .ri⟩, taken := s.taken ++ [s.rsp], events := rest })

/-- 30_encoding.md R86: a command presented while the block is not IDLE is not accepted and waits, whatever else happens; it
is neither dropped nor replaced. That it waits through a block reset too is the model's choice (log 18). -/
def Obligations.PresentedCommandWaits : Prop :=
  ∀ (s t : State) (r : Record), s.seq.step ≠ .idle → s.port = some r → step s = .next t → t.port = some r

/-- 60_exceptions.md R200: every way a status can come about, and the codes. -/
def Obligations.EveryErrorHasItsCause : Prop :=
  (Status.ok.code = 0#3 ∧ Status.resetInProgress.code = 1#3 ∧ Status.unsupportedMode.code = 2#3 ∧
    Status.pollTimeout.code = 3#3 ∧ Status.illegalCommand.code = 4#3) ∧
  ∀ s t : State, step s = .next t → s.seq.step ≠ .resp → t.seq.step = .resp →
    match t.rsp.status with
    | .ok =>
      (s.seq = ⟨.xrd, .rd⟩ ∧ t.rsp.rdata = t.acc) ∨
      (s.seq.phase = .wd ∧ (s.seq.step = .xwr ∨ s.seq.step = .s5 ∨ s.seq.step = .sane) ∧ t.rsp.rdata = 0#32) ∨
      (s.seq.step = .idle ∧ t.rsp.rdata = 0#32 ∧ ∃ q r d, s.port = some q ∧ decode q = .ok (.setane false r d))
    | .resetInProgress => s.seq = ⟨.s1, .rd⟩ ∧ softResetSet s.params t.acc = true ∧ t.rsp.rdata = 0#32
    | .unsupportedMode => s.seq.step = .idle ∧ s.cfg.unsupportedModeFails = true ∧ t.rsp.rdata = 0#32 ∧
        ∃ q m r d, s.port = some q ∧ decode q = .ok (.init m r d) ∧ (m = .other ∨ m = .other3)
    | .pollTimeout => s.seq = ⟨.s3p, .rd⟩ ∧ vrResetSet s.params t.acc = true ∧ s.cfg.pollLimit = some t.pollcnt ∧
        t.pollcnt = s.pollcnt + 1 ∧ t.rsp.rdata = 0#32
    | .illegalCommand => s.seq.step = .idle ∧ t.rsp.rdata = 0#32 ∧ ∃ q e, s.port = some q ∧ decode q = .error e

/-! ## The Accessor -/

/-- 41_accessor.md R101: the halves of a register number; the last conjunct, that the split loses no bit, is what the spec
derives from them. -/
def Obligations.SplitOfARegisterNumber : Prop :=
  ∀ r : Word, hi r = r.extractLsb' 16 16 ∧ lo r = r.extractLsb' 0 16 ∧ (hi r).setWidth 32 = r >>> 16 ∧
    (lo r).setWidth 32 = r &&& 0xFFFF#32 ∧ ((hi r).setWidth 32 <<< 16) ||| (lo r).setWidth 32 = r

/-- 41_accessor.md R104: a logical read, in whatever step, is the index write and then the data read, whose word goes to `acc`
unchanged. -/
def Obligations.LogicalReadIsIndexWriteThenDataRead : Prop :=
  ∀ (s : State) (x : SeqStep), s.seq = ⟨x, .ri⟩ → x.uses .ri = true → s.canAccess s.reg = true →
    ∃ s₁ s₂, advance s = .next s₁ ∧ advance s₁ = .next s₂ ∧
      s₁.seq = ⟨x, .rd⟩ ∧ s₁.window = { s.window with idx := indexWord s.reg } ∧ s₁.acc = s.acc ∧
      s₁.bus = s.bus ++ [s.indexTxn s.reg] ∧
      s₂.acc = s.wouldRead x s.reg ∧ s₂.bus = s.bus ++ [s.indexTxn s.reg, s.readTxn s.reg (s.wouldRead x s.reg)] ∧
      s₂.window.idx = indexWord s.reg

/-- 41_accessor.md R105: a logical write, in whatever step, is the index write and then the data write. -/
def Obligations.LogicalWriteIsIndexWriteThenDataWrite : Prop :=
  ∀ (s : State) (x : SeqStep), s.seq = ⟨x, .wi⟩ → x.uses .wi = true → s.canAccess s.reg = true →
    ∃ s₁ s₂, advance s = .next s₁ ∧ advance s₁ = .next s₂ ∧
      s₁.seq = ⟨x, .wd⟩ ∧ s₁.window = { s.window with idx := indexWord s.reg } ∧
      s₁.acc = x.modify s.params s.cfg.fixedSpeedTest s.acc ∧ s₁.bus = s.bus ++ [s.indexTxn s.reg] ∧
      s₂.bus = s.bus ++ [s.indexTxn s.reg, s.writeTxn s.reg (x.modify s.params s.cfg.fixedSpeedTest s.acc)] ∧
      s₂.window = s₁.window.write s.params x (.data (lo s.reg)) (x.modify s.params s.cfg.fixedSpeedTest s.acc)

/-- 41_accessor.md R110: READ completes after its acceptance and its two transactions, with the word the data read returned;
everything not named keeps its value. -/
def Obligations.ReadRunsToItsResponse : Prop :=
  ∀ (s : State) (r d : Word), s.seq.step = .idle → s.canAccess r = true →
    ∃ s₁ s₂, exec (.read r d) s = .next s₁ ∧ exec (.read r d) s₁ = .next s₂ ∧
      s₁ = { s with seq := ⟨.xrd, .ri⟩, cmd := cmdRead r d } ∧
      exec (.read r d) s₂ = .next
        { s with seq := ⟨.resp, .ri⟩, cmd := cmdRead r d, acc := s.wouldRead .xrd r, rsp := ⟨.ok, s.wouldRead .xrd r⟩,
                 window := ((s.window.selecting r).read s.params .xrd (.data (lo r))).2,
                 bus := s.bus ++ [s.indexTxn r, s.readTxn r (s.wouldRead .xrd r)] }

/-- 41_accessor.md R111: WRITE completes after its acceptance and its two transactions; everything not named keeps its
value. -/
def Obligations.WriteRunsToItsResponse : Prop :=
  ∀ (s : State) (r v : Word), s.seq.step = .idle → s.canAccess r = true →
    ∃ s₁ s₂, exec (.write r v) s = .next s₁ ∧ exec (.write r v) s₁ = .next s₂ ∧
      s₁ = { s with seq := ⟨.xwr, .wi⟩, cmd := cmdWrite r v, acc := v } ∧
      exec (.write r v) s₂ = .next
        { s with seq := ⟨.resp, .ri⟩, cmd := cmdWrite r v, acc := v, rsp := ⟨.ok, 0#32⟩,
                 window := (s.window.selecting r).write s.params .xwr (.data (lo r)) v,
                 bus := s.bus ++ [s.indexTxn r, s.writeTxn r v] }

/-- The round trip of 41_accessor.md R112 (which the spec derives): under the reference window, a host that writes a register
and then reads it is answered OK, 0 and OK, v, whichever the register and whatever F_VR_RST was doing (log 10). The host's two
commands as a schedule are the model's form (log 2). -/
def Obligations.WriteThenReadReturnsTheValue : Prop :=
  ∀ (s : State) (r v d : Word), s.wellSet = true → s.seq.step = .idle → s.port = none → s.window.kind = .reference →
    s.canAccess r = true → s.events = [.present (encode (.write r v)), .take, .present (encode (.read r d)), .take] →
    ∃ t, run 10 s = .next t ∧ t.taken = s.taken ++ [⟨.ok, 0#32⟩, ⟨.ok, v⟩] ∧ t.seq.step = .idle ∧ t.regValue r = v ∧
      t.window.idx = indexWord r ∧ t.port = none ∧
      t.bus = s.bus ++ [s.indexTxn r, s.writeTxn r v, s.indexTxn r, s.readTxn r v]

/-- 30_encoding.md R91: MODIFY is READ and then WRITE of the word read with the masks applied; its four transactions. -/
def Obligations.ModifyIsReadThenWrite : Prop :=
  ∀ (s t u : State) (r c m : Word), s.seq.step = .idle → s.canAccess r = true →
    execRun (modifyRead r) 3 s = .next t → execRun (modifyWrite r c m t.rsp.rdata) 3 t.takeResponse = .next u →
    u.bus = s.bus ++ [s.indexTxn r, s.readTxn r (s.wouldRead .xrd r), s.indexTxn r,
      s.writeTxn r ((s.wouldRead .xrd r &&& ~~~c) ||| m)] ∧ t.rsp = ⟨.ok, s.wouldRead .xrd r⟩ ∧ u.rsp = ⟨.ok, 0#32⟩ ∧
      (s.window.kind = .reference → u.regValue r = (s.wouldRead .xrd r &&& ~~~c) ||| m)

/-! ## The Sequencer -/

/-- 42_sequencer.md R133: the register each read-modify-write step accesses; the field each step sets or clears takes its
value and every bit outside the named fields is kept; and where a field that is cleared overlaps one that is set, the set
wins. -/
def Obligations.ModifyFunctionsSetTheirFields : Prop :=
  (∀ (p : Params) (c : Cmd), SeqStep.s2a.register p c = p.rPcsType ∧ SeqStep.s2b.register p c = p.rAnCtrl ∧
    SeqStep.s2c.register p c = p.r2p5g ∧ SeqStep.s3a.register p c = p.rPcsType ∧ SeqStep.s3b.register p c = p.rDigCtrl ∧
    SeqStep.s3c.register p c = p.rUsxgMode ∧ SeqStep.s3d.register p c = p.rDigCtrl ∧ SeqStep.s4.register p c = p.rAnCtrl ∧
    SeqStep.s5.register p c = p.rMiiDigCtrl ∧ SeqStep.sane.register p c = p.rMiiCtrl) ∧
  (∀ (p : Params) (t : Bool) (a : Word) (i : Nat), (mask p.fAnIntrEn).getLsbD i = true →
    (SeqStep.s4.modify p t a).getLsbD i = true) ∧
  ∀ (p : Params) (t : Bool) (a : Word), p.wf = true →
    let kept (x : SeqStep) (fs : List Field) : Prop :=
      ∀ i, (∀ f ∈ fs, (mask f).getLsbD i = false) → (x.modify p t a).getLsbD i = a.getLsbD i
    (ext p.fPcsType (SeqStep.s2a.modify p t a) = 1#32 ∧ kept .s2a [p.fPcsType]) ∧
    (ext p.fAnMode (SeqStep.s2b.modify p t a) = p.vAnModeSgmii ∧ kept .s2b [p.fAnMode]) ∧
    (ext p.fEn2p5g (SeqStep.s2c.modify p t a) = 1#32 ∧ kept .s2c [p.fEn2p5g]) ∧
    (ext p.fPcsType (SeqStep.s3a.modify p t a) = 0#32 ∧ kept .s3a [p.fPcsType]) ∧
    (ext p.fUsxgEn (SeqStep.s3b.modify p t a) = 1#32 ∧ kept .s3b [p.fUsxgEn]) ∧
    (ext p.fUsxgMode (SeqStep.s3c.modify p t a) = 0#32 ∧ kept .s3c [p.fUsxgMode]) ∧
    (ext p.fVrRst (SeqStep.s3d.modify p t a) = 1#32 ∧ kept .s3d [p.fVrRst]) ∧
    (ext p.fTxCfg (SeqStep.s4.modify p t a) = 0#32 ∧ ext p.fAnIntrEn (SeqStep.s4.modify p t a) = 1#32 ∧
      kept .s4 [p.fTxCfg, p.fAnIntrEn]) ∧
    (ext p.fMacAutoSw (SeqStep.s5.modify p t a) = (if t then 0#32 else 1#32) ∧ kept .s5 [p.fMacAutoSw]) ∧
    (ext p.fAnEn (SeqStep.sane.modify p t a) = (if t then 0#32 else 1#32) ∧ kept .sane [p.fAnEn])

/-- The table of 10_state.md R22, row by row: the code of each step, the phases it uses in the order RI, RD, WI, WD, and for
the steps that access a register which one it is. -/
def Obligations.StepsFollowTheStateTable : Prop :=
  ∀ (p : Params) (c : Cmd),
    let row (x : SeqStep) (code : BitVec 4) (phases : List Bool) : Prop :=
      x.code = code ∧ [Phase.ri, .rd, .wi, .wd].map x.uses = phases
    let none4 := [false, false, false, false]
    let reads := [true, true, false, false]
    let writes := [false, false, true, true]
    let all4 := [true, true, true, true]
    row .idle 0x0#4 none4 ∧ row .resp 0xF#4 none4 ∧ row .xrd 0x1#4 reads ∧ row .xwr 0x2#4 writes ∧ row .s1 0x3#4 reads ∧
    row .s2a 0x4#4 all4 ∧ row .s2b 0x5#4 all4 ∧ row .s2c 0x6#4 all4 ∧ row .s3a 0x7#4 all4 ∧ row .s3b 0x8#4 all4 ∧
    row .s3c 0x9#4 all4 ∧ row .s3d 0xA#4 all4 ∧ row .s3p 0xB#4 reads ∧ row .s4 0xC#4 all4 ∧ row .s5 0xD#4 all4 ∧
    row .sane 0xE#4 all4 ∧ Phase.ri.code = 0#2 ∧ Phase.rd.code = 1#2 ∧ Phase.wi.code = 2#2 ∧ Phase.wd.code = 3#2 ∧
    SeqStep.xrd.register p c = c.regnum ∧ SeqStep.xwr.register p c = c.regnum ∧ SeqStep.s1.register p c = p.rMiiCtrl ∧
    SeqStep.s2a.register p c = p.rPcsType ∧ SeqStep.s2b.register p c = p.rAnCtrl ∧ SeqStep.s2c.register p c = p.r2p5g ∧
    SeqStep.s3a.register p c = p.rPcsType ∧ SeqStep.s3b.register p c = p.rDigCtrl ∧
    SeqStep.s3c.register p c = p.rUsxgMode ∧ SeqStep.s3d.register p c = p.rDigCtrl ∧
    SeqStep.s3p.register p c = p.rDigCtrl ∧ SeqStep.s4.register p c = p.rAnCtrl ∧
    SeqStep.s5.register p c = p.rMiiDigCtrl ∧ SeqStep.sane.register p c = p.rMiiCtrl

/-- 42_sequencer.md R130: the four phases of a read-modify-write step, each one transaction; the last one goes on to
`next(X)`, which `NextStepFollowsTheTable` states. -/
def Obligations.ReadModifyWriteStepRunsFourPhases : Prop :=
  ∀ (s : State) (x : SeqStep), s.seq = ⟨x, .ri⟩ → x.uses .ri = true → x.uses .wi = true → s.canAccess s.reg = true →
    let a := s.wouldRead x s.reg
    let v := x.modify s.params s.cfg.fixedSpeedTest a
    ∃ s₁ s₂ s₃ s₄, advance s = .next s₁ ∧ advance s₁ = .next s₂ ∧ advance s₂ = .next s₃ ∧ advance s₃ = .next s₄ ∧
      s₁.seq = ⟨x, .rd⟩ ∧ s₁.bus = s.bus ++ [s.indexTxn s.reg] ∧ s₁.acc = s.acc ∧
      s₂.seq = ⟨x, .wi⟩ ∧ s₂.bus = s₁.bus ++ [s.readTxn s.reg a] ∧ s₂.acc = a ∧
      s₃.seq = ⟨x, .wd⟩ ∧ s₃.bus = s₂.bus ++ [s.indexTxn s.reg] ∧ s₃.acc = v ∧
      s₄.bus = s₃.bus ++ [s.writeTxn s.reg v] ∧ s₄.acc = v ∧
      s₄ = completeStep { s₃ with window := s₃.window.write s.params x (.data (lo s.reg)) v,
                                  bus := s₃.bus ++ [s.writeTxn s.reg v] }

/-- 42_sequencer.md R134: the next-step function, row by row, after a step's last phase, however the bus ended its transaction
(41_accessor.md R107). `pollcnt` is a counter only where POLL_LIMIT is set (10_state.md R25, log 15). -/
def Obligations.NextStepFollowsTheTable : Prop :=
  ∀ (s t : State) (b : BusEnd), advance s b = .next t → (s.seq.phase = .wd ∨ (s.seq.phase = .rd ∧ s.seq.step.uses .wi = false)) →
    match s.seq.step with
    | .s1 =>
      if ext s.params.fSoftRst t.acc = 1#32 then t.seq.step = .resp ∧ t.rsp = ⟨.resetInProgress, 0#32⟩
      else if s.cmd.mode = 0#2 then t.seq = ⟨.s2a, .ri⟩
      else if s.cmd.mode = 1#2 then t.seq = ⟨.s3a, .ri⟩
      else t.seq = ⟨.s4, .ri⟩
    | .s2a => t.seq = ⟨.s2b, .ri⟩
    | .s2b => t.seq = if s.cfg.fixedSpeedTest = true then ⟨.s2c, .ri⟩ else ⟨.s4, .ri⟩
    | .s2c => t.seq = ⟨.s4, .ri⟩
    | .s3a => t.seq = ⟨.s3b, .ri⟩
    | .s3b => t.seq = ⟨.s3c, .ri⟩
    | .s3c => t.seq = ⟨.s3d, .ri⟩
    | .s3d => t.seq = ⟨.s3p, .ri⟩ ∧ (s.cfg.pollLimit ≠ none → t.pollcnt = 0)
    | .s3p =>
      (ext s.params.fVrRst t.acc = 0#32 → t.seq = ⟨.s4, .ri⟩) ∧
      (ext s.params.fVrRst t.acc = 1#32 →
        if s.cfg.pollLimit = some t.pollcnt then t.seq.step = .resp ∧ t.rsp = ⟨.pollTimeout, 0#32⟩
        else t.seq = ⟨.s3p, .ri⟩)
    | .s4 => t.seq = ⟨.s5, .ri⟩
    | .s5 | .sane | .xwr => t.seq.step = .resp ∧ t.rsp = ⟨.ok, 0#32⟩
    | .xrd => t.seq.step = .resp ∧ t.rsp = ⟨.ok, t.acc⟩
    | .idle | .resp => False

/-- 42_sequencer.md R151: the mode check at acceptance of INIT, before anything is read. -/
def Obligations.UnsupportedModeFailsAtAcceptance : Prop :=
  ∀ (s : State) (m : PcsMode) (r d : Word), s.seq.step = .idle →
    ((m = .other ∨ m = .other3) → s.cfg.unsupportedModeFails = true →
      exec (.init m r d) s =
        .next { s with seq := ⟨.resp, .ri⟩, cmd := cmdInit m r d, rsp := ⟨.unsupportedMode, 0#32⟩ }) ∧
    (¬((m = .other ∨ m = .other3) ∧ s.cfg.unsupportedModeFails = true) →
      exec (.init m r d) s = .next { s with seq := ⟨.s1, .ri⟩, cmd := cmdInit m r d })

/-- 42_sequencer.md R140: F_SOFT_RST read set ends INIT with ResetInProgress after exactly two transactions, whatever the mode
that passed the mode check. -/
def Obligations.SoftResetEndsInit : Prop :=
  ∀ (s : State) (m : PcsMode) (r d : Word), s.seq.step = .idle → s.canAccess s.params.rMiiCtrl = true →
    ¬((m = .other ∨ m = .other3) ∧ s.cfg.unsupportedModeFails = true) →
    softResetSet s.params (s.wouldRead .s1 s.params.rMiiCtrl) = true →
    execRun (.init m r d) 3 s = .next
      { s with seq := ⟨.resp, .ri⟩, cmd := cmdInit m r d, acc := s.wouldRead .s1 s.params.rMiiCtrl,
               rsp := ⟨.resetInProgress, 0#32⟩,
               window := ((s.window.selecting s.params.rMiiCtrl).read s.params .s1 (.data (lo s.params.rMiiCtrl))).2,
               bus := s.bus ++ [s.indexTxn s.params.rMiiCtrl,
                 s.readTxn s.params.rMiiCtrl (s.wouldRead .s1 s.params.rMiiCtrl)] }

/-- 42_sequencer.md section 2 (the sequence the spec derives): INIT SGMII makes its 18 transactions, or 22 with
FIXED_SPEED_TEST, each read-modify-write writing its modify function of the word it read, and answers OK. -/
def Obligations.InitSgmiiRunsToItsResponse : Prop :=
  ∀ (s : State) (r d : Word), s.seq.step = .idle → s.canAccessAll = true →
    softResetSet s.params (s.wouldRead .s1 s.params.rMiiCtrl) = false →
    ∃ s₁ t a b c e f, exec (.init .sgmii r d) s = .next s₁ ∧
      execRun (.init .sgmii r d) (if s.cfg.fixedSpeedTest then 22 else 18) s₁ = .next t ∧
      t.seq.step = .resp ∧ t.rsp = ⟨.ok, 0#32⟩ ∧ t.cmd = cmdInit .sgmii r d ∧
      t.window.idx = indexWord s.params.rMiiDigCtrl ∧
      t.bus = s.bus ++ [s.indexTxn s.params.rMiiCtrl,
          s.readTxn s.params.rMiiCtrl (s.wouldRead .s1 s.params.rMiiCtrl)] ++ s.rmwTxns .s2a a ++ s.rmwTxns .s2b b ++
        (if s.cfg.fixedSpeedTest then s.rmwTxns .s2c c else []) ++ s.rmwTxns .s4 e ++ s.rmwTxns .s5 f ∧
      t.pollcnt = s.pollcnt ∧ t.params = s.params ∧ t.cfg = s.cfg ∧ t.port = s.port ∧ t.taken = s.taken ∧
      t.events = s.events

/-- 42_sequencer.md R152: with UNSUPPORTED_MODE_FAILS = 0 an INIT of an `other` mode runs S1, S4 and S5 and answers OK. -/
def Obligations.InitOtherFallsThrough : Prop :=
  ∀ (s : State) (m : PcsMode) (r d : Word), s.seq.step = .idle → s.canAccessAll = true → (m = .other ∨ m = .other3) →
    s.cfg.unsupportedModeFails = false →
    (softResetSet s.params (s.wouldRead .s1 s.params.rMiiCtrl) = true →
      ∃ t, execRun (.init m r d) 3 s = .next t ∧ t.seq.step = .resp ∧ t.rsp = ⟨.resetInProgress, 0#32⟩) ∧
    (softResetSet s.params (s.wouldRead .s1 s.params.rMiiCtrl) = false →
      ∃ s₁ t e f, exec (.init m r d) s = .next s₁ ∧ execRun (.init m r d) 10 s₁ = .next t ∧ t.seq.step = .resp ∧
        t.rsp = ⟨.ok, 0#32⟩ ∧ t.window.idx = indexWord s.params.rMiiDigCtrl ∧
        t.bus = s.bus ++ [s.indexTxn s.params.rMiiCtrl,
            s.readTxn s.params.rMiiCtrl (s.wouldRead .s1 s.params.rMiiCtrl)] ++ s.rmwTxns .s4 e ++ s.rmwTxns .s5 f)

/-- 42_sequencer.md sections 2 and 3 (the sequence the spec derives), under the reference window with the draw N = n:
INIT USXGMII makes its 28 + 2n transactions, the poll reading F_VR_RST set n times and then clear, and answers OK. A
POLL_LIMIT is above n, and `pollcnt` counts where there is one (log 15). The draw as data is the model's form (log 10). -/
def Obligations.InitUsxgmiiRunsToItsResponse : Prop :=
  ∀ (s : State) (r d : Word) (n : Nat) (rest : List (Option Nat)), s.seq.step = .idle → s.canAccessAll = true →
    s.params.wf = true → s.window.kind = .reference → s.window.vrScript = some n :: rest →
    (∀ l, s.cfg.pollLimit = some l → n < l) →
    softResetSet s.params (s.wouldRead .s1 s.params.rMiiCtrl) = false →
    ∃ s₁ t a b c e f g, exec (.init .usxgmii r d) s = .next s₁ ∧
      execRun (.init .usxgmii r d) (28 + 2 * n) s₁ = .next t ∧
      t.seq.step = .resp ∧ t.rsp = ⟨.ok, 0#32⟩ ∧ t.cmd = cmdInit .usxgmii r d ∧
      t.pollcnt = (if s.cfg.pollLimit = none then s.pollcnt else n + 1) ∧
      t.window.idx = indexWord s.params.rMiiDigCtrl ∧ t.window.vrScript = rest ∧
      t.bus = s.bus ++ [s.indexTxn s.params.rMiiCtrl,
          s.readTxn s.params.rMiiCtrl (s.wouldRead .s1 s.params.rMiiCtrl)] ++ s.rmwTxns .s3a a ++ s.rmwTxns .s3b b ++
        s.rmwTxns .s3c c ++ s.rmwTxns .s3d e ++
        (List.replicate n [s.indexTxn s.params.rDigCtrl,
          s.readTxn s.params.rDigCtrl (setb s.params.fVrRst e)]).flatten ++
        [s.indexTxn s.params.rDigCtrl,
          s.readTxn s.params.rDigCtrl (clr s.params.fVrRst (setb s.params.fVrRst e))] ++
        s.rmwTxns .s4 f ++ s.rmwTxns .s5 g ∧
      t.params = s.params ∧ t.cfg = s.cfg ∧ t.port = s.port ∧ t.taken = s.taken ∧ t.events = s.events

/-- 42_sequencer.md R155 (the sequence the spec derives) and R163, under the reference window: with POLL_LIMIT = L and a draw
that does not clear F_VR_RST before the L-th poll read, INIT USXGMII ends with PollTimeout after 18 + 2 L transactions, S4 and
S5 not run. The draw as data is the model's form (log 10). -/
def Obligations.BoundedPollTimesOut : Prop :=
  ∀ (s : State) (r d : Word) (l : Nat) (draw : Option Nat) (rest : List (Option Nat)), s.seq.step = .idle →
    s.canAccessAll = true → s.params.wf = true → s.window.kind = .reference → s.window.vrScript = draw :: rest →
    s.cfg.pollLimit = some l → 1 ≤ l → (∀ n, draw = some n → l ≤ n) →
    softResetSet s.params (s.wouldRead .s1 s.params.rMiiCtrl) = false →
    ∃ s₁ t a b c e, exec (.init .usxgmii r d) s = .next s₁ ∧
      execRun (.init .usxgmii r d) (18 + 2 * l) s₁ = .next t ∧
      t.seq.step = .resp ∧ t.rsp = ⟨.pollTimeout, 0#32⟩ ∧ t.pollcnt = l ∧
      t.window.idx = indexWord s.params.rDigCtrl ∧
      t.bus = s.bus ++ [s.indexTxn s.params.rMiiCtrl,
          s.readTxn s.params.rMiiCtrl (s.wouldRead .s1 s.params.rMiiCtrl)] ++ s.rmwTxns .s3a a ++ s.rmwTxns .s3b b ++
        s.rmwTxns .s3c c ++ s.rmwTxns .s3d e ++
        (List.replicate l [s.indexTxn s.params.rDigCtrl,
          s.readTxn s.params.rDigCtrl (setb s.params.fVrRst e)]).flatten

/-- 42_sequencer.md R164, under a reference window that never clears F_VR_RST: with no POLL_LIMIT the block stays in S3P for
any number of steps, accepts no other command and never responds. IDX selects R_DIG_CTRL if the first step is a data read. The
draw as data is the model's form (log 10). -/
def Obligations.UnboundedPollNeverResponds : Prop :=
  ∀ (s : State) (k : Nat), s.wellSet = true → s.events = [] → s.seq.step = .s3p → s.seq.step.uses s.seq.phase = true →
    s.canAccess s.params.rDigCtrl = true → s.window.kind = .reference → s.window.vr = .never →
    s.selectsRegister → s.cfg.pollLimit = none →
    ∃ t, run k s = .next t ∧ t.seq.step = .s3p ∧ t.port = s.port ∧ t.taken = s.taken ∧ t.cmd = s.cmd ∧
      t.bus.length = s.bus.length + k

/-- 42_sequencer.md R162, R163: the decision after a poll read, in either window. `pollcnt` counts where POLL_LIMIT is set
(10_state.md R25, log 15). -/
def Obligations.PollReadDecides : Prop :=
  ∀ s : State, s.seq = ⟨.s3p, .rd⟩ → s.accessible (.data (lo s.params.rDigCtrl)) = true →
    ∃ t, advance s = .next t ∧ t.acc = s.peek (.data (lo s.params.rDigCtrl)) ∧
      t.pollcnt = (if s.cfg.pollLimit = none then s.pollcnt else s.pollcnt + 1) ∧
      (vrResetSet s.params t.acc = false → t.seq = ⟨.s4, .ri⟩ ∧ t.rsp = s.rsp) ∧
      (vrResetSet s.params t.acc = true → s.cfg.pollLimit = some (s.pollcnt + 1) →
        t.seq.step = .resp ∧ t.rsp = ⟨.pollTimeout, 0#32⟩) ∧
      (vrResetSet s.params t.acc = true → s.cfg.pollLimit ≠ some (s.pollcnt + 1) →
        t.seq = ⟨.s3p, .ri⟩ ∧ t.rsp = s.rsp)

/-- 42_sequencer.md R161, where the block has the counter (POLL_LIMIT set: 10_state.md R25, 60_exceptions.md R214): what
`pollcnt` does in any transaction of the block, and that it is k after the k-th poll read. Without POLL_LIMIT nothing counts
(log 15). -/
def Obligations.PollCounterCountsPollReads : Prop :=
  (∀ (s t : State) (b : BusEnd), advance s b = .next t → s.cfg.pollLimit ≠ none →
    t.pollcnt = if s.seq = ⟨.s3d, .wd⟩ then 0 else if s.seq = ⟨.s3p, .rd⟩ then s.pollcnt + 1 else s.pollcnt) ∧
  (∀ (s t : State) (b : BusEnd), advance s b = .next t → s.cfg.pollLimit = none → t.pollcnt = s.pollcnt) ∧
  ∀ (s t : State) (k : Nat) (r d : Word), s.seq = ⟨.s3p, .ri⟩ → s.cmd = cmdInit .usxgmii r d → s.pollcnt = 0 →
    s.cfg.pollLimit ≠ none → execRun (.init .usxgmii r d) (2 * k) s = .next t → t.seq.step = .s3p → t.pollcnt = k

/-- 10_state.md R36: what a data read of the block returns and does in the reference window, in whatever step. A register
other than R_DIG_CTRL answers REG. R_DIG_CTRL answers F_VR_RST set to a poll read while the draw lasts; once it is spent every
read, of READ, S3B or any other step, sees it clear and clears it in REG. That a read outside the poll answers REG while the
draw lasts is the model's reading, and the draw as data its form (log 10). -/
def Obligations.ReferenceWindowClearsTheResetBit : Prop :=
  ∀ (s : State) (x : SeqStep), s.seq = ⟨x, .rd⟩ → x.uses .rd = true → s.window.kind = .reference → s.selectsRegister →
    s.accessible (.data (lo s.reg)) = true → s.params.wf = true →
    ∃ t, advance s = .next t ∧
      (s.reg ≠ s.params.rDigCtrl → t.acc = s.regValue s.reg ∧ t.window = s.window) ∧
      (s.reg = s.params.rDigCtrl →
        (s.window.vr = .setFor 0 → vrResetSet s.params t.acc = false ∧ t.window.vr = .setFor 0 ∧
          t.regValue s.params.rDigCtrl = clr s.params.fVrRst (s.regValue s.params.rDigCtrl) ∧
          t.acc = t.regValue s.params.rDigCtrl) ∧
        (∀ k, s.window.vr = .setFor (k + 1) → x = .s3p →
          vrResetSet s.params t.acc = true ∧ t.window = { s.window with vr := .setFor k }) ∧
        (s.window.vr = .never → x = .s3p → vrResetSet s.params t.acc = true ∧ t.window = s.window) ∧
        (s.window.vr = .none ∨ (x ≠ .s3p ∧ s.window.vr ≠ .setFor 0) →
          t.acc = s.regValue s.reg ∧ t.window = s.window))

/-- 10_state.md R33, R36: a data write of the reference window gives REG the word and leaves every other byte; S3D's write of
R_DIG_CTRL starts the self-clearing with the next draw, and any other write of R_DIG_CTRL ends it (log 10). -/
def Obligations.ReferenceWindowTakesWrites : Prop :=
  ∀ (s : State) (x : SeqStep), s.seq = ⟨x, .wd⟩ → x.uses .wd = true → s.window.kind = .reference → s.selectsRegister →
    s.accessible (.data (lo s.reg)) = true →
    ∃ t, advance s = .next t ∧ t.regValue s.reg = s.acc ∧ t.window.idx = s.window.idx ∧
      (∀ a, ¬inRegister s.reg a → t.window.reg.byte a = s.window.reg.byte a) ∧
      (s.reg ≠ s.params.rDigCtrl → t.window.vr = s.window.vr ∧ t.window.vrScript = s.window.vrScript) ∧
      (s.reg = s.params.rDigCtrl → x ≠ .s3d → t.window.vr = .none ∧ t.window.vrScript = s.window.vrScript) ∧
      (∀ draw rest, x = .s3d → s.window.vrScript = draw :: rest →
        t.window.vr = (match draw with | some n => .setFor n | none => .never) ∧ t.window.vrScript = rest)

/-- The outcome of INIT SGMII of 42_sequencer.md section 2 (which the spec derives), under the reference window. -/
def Obligations.InitSgmiiConfiguresThePcs : Prop :=
  ∀ (s t : State) (r d : Word), s.seq.step = .idle → s.canAccessAll = true → s.params.wf = true →
    s.window.kind = .reference → softResetSet s.params (s.wouldRead .s1 s.params.rMiiCtrl) = false →
    execRun (.init .sgmii r d) (if s.cfg.fixedSpeedTest then 23 else 19) s = .next t →
    t.rsp = ⟨.ok, 0#32⟩ ∧ ext s.params.fPcsType (t.regValue s.params.rPcsType) = 1#32 ∧
      ext s.params.fAnMode (t.regValue s.params.rAnCtrl) = s.params.vAnModeSgmii ∧
      ext s.params.fAnIntrEn (t.regValue s.params.rAnCtrl) = 1#32 ∧
      ext s.params.fTxCfg (t.regValue s.params.rAnCtrl) = 0#32 ∧
      ext s.params.fMacAutoSw (t.regValue s.params.rMiiDigCtrl) = (if s.cfg.fixedSpeedTest then 0#32 else 1#32) ∧
      (s.cfg.fixedSpeedTest = true → ext s.params.fEn2p5g (t.regValue s.params.r2p5g) = 1#32)

/-- The outcome of INIT USXGMII of 42_sequencer.md R156 (which the spec derives), under the reference window with the draw
N = n: the fields, and F_VR_RST of R_DIG_CTRL written set and later read clear, each data access right after the index write
that selects R_DIG_CTRL. -/
def Obligations.InitUsxgmiiConfiguresThePcs : Prop :=
  ∀ (s t : State) (r d : Word) (n : Nat) (rest : List (Option Nat)), s.seq.step = .idle → s.canAccessAll = true →
    s.params.wf = true → s.window.kind = .reference → s.window.vrScript = some n :: rest →
    (∀ l, s.cfg.pollLimit = some l → n < l) → softResetSet s.params (s.wouldRead .s1 s.params.rMiiCtrl) = false →
    execRun (.init .usxgmii r d) (29 + 2 * n) s = .next t →
    t.rsp = ⟨.ok, 0#32⟩ ∧ ext s.params.fPcsType (t.regValue s.params.rPcsType) = 0#32 ∧
      ext s.params.fUsxgEn (t.regValue s.params.rDigCtrl) = 1#32 ∧
      ext s.params.fUsxgMode (t.regValue s.params.rUsxgMode) = 0#32 ∧
      ext s.params.fAnIntrEn (t.regValue s.params.rAnCtrl) = 1#32 ∧
      ext s.params.fTxCfg (t.regValue s.params.rAnCtrl) = 0#32 ∧
      ext s.params.fMacAutoSw (t.regValue s.params.rMiiDigCtrl) = (if s.cfg.fixedSpeedTest then 0#32 else 1#32) ∧
      ∃ w v before between after, vrResetSet s.params w = true ∧ vrResetSet s.params v = false ∧
        t.bus = s.bus ++ before ++ [s.indexTxn s.params.rDigCtrl, s.writeTxn s.params.rDigCtrl w] ++ between ++
          [s.indexTxn s.params.rDigCtrl, s.readTxn s.params.rDigCtrl v] ++ after

/-- 42_sequencer.md R170: SETANE 1 is one read-modify-write of R_MII_CTRL, whatever F_SOFT_RST reads, and answers OK. -/
def Obligations.SetaneRunsToItsResponse : Prop :=
  ∀ (s : State) (r d : Word), s.seq.step = .idle → s.canAccess s.params.rMiiCtrl = true →
    let a := s.wouldRead .sane s.params.rMiiCtrl
    let v := if s.cfg.fixedSpeedTest then clr s.params.fAnEn a else setb s.params.fAnEn a
    ∃ s₁ t, exec (.setane true r d) s = .next s₁ ∧ s₁ = { s with seq := ⟨.sane, .ri⟩, cmd := cmdSetane true r d } ∧
      execRun (.setane true r d) 4 s₁ = .next t ∧ t.seq.step = .resp ∧ t.rsp = ⟨.ok, 0#32⟩ ∧
      t.bus = s.bus ++ [s.indexTxn s.params.rMiiCtrl, s.readTxn s.params.rMiiCtrl a, s.indexTxn s.params.rMiiCtrl,
        s.writeTxn s.params.rMiiCtrl v] ∧
      (s.window.kind = .reference → t.regValue s.params.rMiiCtrl = v) ∧
      t.window.idx = indexWord s.params.rMiiCtrl ∧ t.pollcnt = s.pollcnt ∧ t.params = s.params ∧ t.cfg = s.cfg ∧
      t.port = s.port ∧ t.taken = s.taken ∧ t.events = s.events

/-- 42_sequencer.md R171: SETANE 0 answers OK at once and touches no register. -/
def Obligations.SetaneZeroIsANoOpThatResponds : Prop :=
  ∀ (s : State) (r d : Word), s.seq.step = .idle →
    exec (.setane false r d) s =
      .next { s with seq := ⟨.resp, .ri⟩, cmd := cmdSetane false r d, rsp := ⟨.ok, 0#32⟩ }

/-- 10_state.md R21: the block keeps nothing from one command to the next. Two IDLE blocks that differ in anything left in
CMD, `acc`, `pollcnt` and RSP run a command through the same transactions and steps to the same response. -/
def Obligations.NothingIsKeptBetweenCommands : Prop :=
  ∀ (s t : State) (c : Cmd) (a : Word) (n : Nat) (q : Rsp) (i : Instr) (k : Nat), s.seq.step = .idle →
    execRun i k s = .next t →
    ∃ t', execRun i k { s with cmd := c, acc := a, pollcnt := n, rsp := q } = .next t' ∧ t'.seq = t.seq ∧ t'.bus = t.bus ∧
      t'.window = t.window ∧ (t.seq.step = .resp → t'.rsp = t.rsp)

/-- The hazard of 70_reset_and_hazards.md R253 (which the spec derives), under the reference window: what the window changes
itself in the register between a read-modify-write step's data read and its data write, before the index write or after it, is
overwritten. Such a change as a scheduled event is the model's form (log 22). -/
def Obligations.OwnChangeOfTheWindowIsOverwritten : Prop :=
  ∀ (s : State) (x : SeqStep) (v : Word), s.wellSet = true → s.seq = ⟨x, .wi⟩ → x.uses .ri = true → x.uses .wi = true →
    s.window.kind = .reference → s.canAccess s.reg = true →
    (s.events = [.window s.reg v] ∨ s.events = [.block, .window s.reg v]) →
    ∃ t, run 3 s = .next t ∧ t.regValue s.reg = x.modify s.params s.cfg.fixedSpeedTest s.acc ∧
      t.bus = s.bus ++ [s.indexTxn s.reg, s.writeTxn s.reg (x.modify s.params s.cfg.fixedSpeedTest s.acc)]

/-! ## Frames -/

/-- What READ leaves unchanged in any block step of its own: all of memory, but that its data read of R_DIG_CTRL in the
reference window clears F_VR_RST there once the draw is spent (10_state.md R36), and every other field but those its phase
writes. That READ advances no draw is the model's reading (logs 9, 10). -/
def Obligations.ReadFrame : Prop :=
  ∀ (s t : State) (r d : Word), exec (.read r d) s = .next t →
    t.params = s.params ∧ t.cfg = s.cfg ∧ t.pollcnt = s.pollcnt ∧ t.port = s.port ∧ t.taken = s.taken ∧
      t.events = s.events ∧
      (∀ a, (s.seq = ⟨.xrd, .rd⟩ ∧ s.cmd = cmdRead r d ∧ s.window.kind = .reference ∧
          s.window.select (lo r) = s.params.rDigCtrl ∧ s.window.vr = .setFor 0 → ¬inRegister s.params.rDigCtrl a) →
        t.window.reg.byte a = s.window.reg.byte a) ∧
      t.window.kind = s.window.kind ∧ t.window.vr = s.window.vr ∧ t.window.vrScript = s.window.vrScript ∧
      (s.seq.step ≠ .idle → t.cmd = s.cmd) ∧
      (¬(s.seq = ⟨.xrd, .rd⟩ ∧ s.cmd = cmdRead r d) → t.acc = s.acc ∧ t.rsp = s.rsp ∧ t.window.draws = s.window.draws) ∧
      (¬(s.seq = ⟨.xrd, .ri⟩ ∧ s.cmd = cmdRead r d) → t.window.idx = s.window.idx) ∧
      (¬(s.seq.step = .xrd ∧ s.cmd = cmdRead r d) → t.bus = s.bus ∧ t.window = s.window) ∧
      (s.seq.step ≠ .idle → ¬(s.seq.step = .xrd ∧ s.cmd = cmdRead r d) → t = s)

/-- What WRITE leaves unchanged in any block step of its own: every byte outside the register its data write reaches
(10_state.md R31, R36), and every other field but those its phase writes. That WRITE starts no self-clearing of F_VR_RST and
advances no draw, and that its write of R_DIG_CTRL ends one under way, is the model's reading (log 10). -/
def Obligations.WriteFrame : Prop :=
  ∀ (s t : State) (r v : Word), exec (.write r v) s = .next t →
    t.params = s.params ∧ t.cfg = s.cfg ∧ t.pollcnt = s.pollcnt ∧ t.port = s.port ∧ t.taken = s.taken ∧
      t.events = s.events ∧ t.window.kind = s.window.kind ∧ t.window.vrScript = s.window.vrScript ∧
      t.window.draws = s.window.draws ∧
      t.window.vr = (if s.seq = ⟨.xwr, .wd⟩ ∧ s.cmd = cmdWrite r v ∧ s.window.kind = .reference ∧
        s.window.select (lo r) = s.params.rDigCtrl then .none else s.window.vr) ∧
      (∀ a, (s.seq = ⟨.xwr, .wd⟩ ∧ s.cmd = cmdWrite r v ∧ s.window.kind = .reference →
        ¬inRegister (s.window.select (lo r)) a) → t.window.reg.byte a = s.window.reg.byte a) ∧
      (s.seq.step ≠ .idle → t.cmd = s.cmd ∧ t.acc = s.acc) ∧
      (¬(s.seq = ⟨.xwr, .wd⟩ ∧ s.cmd = cmdWrite r v) → t.rsp = s.rsp) ∧
      (¬(s.seq = ⟨.xwr, .wi⟩ ∧ s.cmd = cmdWrite r v) → t.window.idx = s.window.idx) ∧
      (s.seq.step ≠ .idle → ¬(s.seq.step = .xwr ∧ s.cmd = cmdWrite r v) → t = s)

/-- What INIT and SETANE leave unchanged in any block step of their own: every byte outside the register the step accesses,
all of memory but in a data write and in a data read of R_DIG_CTRL with the draw spent, where the reference window clears
F_VR_RST itself (10_state.md R36), and every other field but those the phase writes. What touches the self-clearing is the
model's reading (log 10). -/
def Obligations.SequencerFrame : Prop :=
  ∀ (s t : State) (i : Instr), ((∃ m r d, i = .init m r d) ∨ ∃ e r d, i = .setane e r d) → exec i s = .next t →
    t.params = s.params ∧ t.cfg = s.cfg ∧ t.port = s.port ∧ t.taken = s.taken ∧ t.events = s.events ∧
      t.window.kind = s.window.kind ∧
      (∀ a, (s.seq.step.busy = true ∧ s.window.kind = .reference ∧
          (s.seq.phase = .wd ∨ (s.seq.phase = .rd ∧ s.window.select (lo s.reg) = s.params.rDigCtrl ∧
            s.window.vr = .setFor 0)) → ¬inRegister (s.window.select (lo s.reg)) a) →
        t.window.reg.byte a = s.window.reg.byte a) ∧
      (s.seq.step ≠ .idle → t.cmd = s.cmd) ∧
      (s.seq.step = .idle → t.window = s.window ∧ t.bus = s.bus ∧ t.acc = s.acc ∧ t.pollcnt = s.pollcnt) ∧
      (s.seq.phase = .ri ∨ s.seq.phase = .wd → t.acc = s.acc) ∧
      (s.cfg.pollLimit = none ∨ (s.seq ≠ ⟨.s3d, .wd⟩ ∧ s.seq ≠ ⟨.s3p, .rd⟩) → t.pollcnt = s.pollcnt) ∧
      (s.seq.phase ≠ .wd ∧ s.seq ≠ ⟨.s3p, .rd⟩ ∨ s.window.select (lo s.reg) ≠ s.params.rDigCtrl →
        t.window.vr = s.window.vr) ∧
      (s.seq ≠ ⟨.s3d, .wd⟩ → t.window.vrScript = s.window.vrScript) ∧
      (s.seq.phase = .rd ∨ s.seq.phase = .wd → t.window.idx = s.window.idx) ∧
      (t.seq.step ≠ .resp → t.rsp = s.rsp)

/-! ## The whole machine -/

/-- Every step keeps the invariant: canonical memory, a legal phase, a step that belongs to the latched command, WRITE's value
in `acc`, a bounded poll counter, and RDATA only from READ. -/
def Obligations.EveryStepKeepsTheInvariant : Prop :=
  ∀ s t : State, Inv s → step s = .next t → Inv t

/-- The invariant holds at reset. -/
def Obligations.InvariantHoldsAtReset : Prop := Inv State.reset

/-- No step faults from a state of the invariant: whatever agent moves, the sequencer is in a state 10_state.md R22 has. -/
def Obligations.NoStepFaults : Prop :=
  ∀ (s : State) (f : Fault), Inv s → step s ≠ .fault f

/-- 20_memory.md R52, R53 at the level of 92 D1: a step adds at most one bus transaction and takes none back; it adds one only
when the block is BUSY. -/
def Obligations.StepMakesAtMostOneTransaction : Prop :=
  ∀ s t : State, step s = .next t →
    t.bus = s.bus ∨ (s.seq.step.busy = true ∧ ∃ x, t.bus = s.bus ++ [x])

/-- 41_accessor.md R106, R113: between an index write and its data access IDX selects the register meant, and every step keeps
it so but one whose transaction ends in a bus error, after which the write's effect is any value (93 U5). -/
def Obligations.EveryStepKeepsTheSelection : Prop :=
  ∀ s t : State, s.selectsRegister → step s = .next t → (∀ w b rest, s.events ≠ .busError w b :: rest) → t.selectsRegister

/-- 10_state.md R31: the block writes IDX only with a zero-extended base, so after any access of the block (no bus error being
next, 93 U5) its high half is 0. -/
def Obligations.IndexHighHalfIsZeroAfterAccess : Prop :=
  ∀ s t : State, s.selectsRegister → step s = .next t → (∀ w b rest, s.events ≠ .busError w b :: rest) → t.bus ≠ s.bus →
    t.window.idx >>> 16 = 0#32

/-- 41_accessor.md R107: a bus error does not change the block's sequence. A read's data is whatever the bus returns, and the
block goes on from it; a write counts as complete, as if it had met no error, and what the window received is any value, or
nothing (93 U5). The error as an event that carries the word is the model's form (log 21). -/
def Obligations.BusErrorDoesNotChangeTheSequence : Prop :=
  ∀ (s : State) (w : Word) (lands : Bool) (rest : List Event), s.wellSet = true → s.events = .busError w lands :: rest →
    s.seq.step.uses s.seq.phase = true → s.canAccess s.reg = true →
    ∃ t, step s = .next t ∧
      (s.seq.phase ≠ .rd → ∃ u, advance { s with events := rest } = .next u ∧ t = { u with window := t.window }) ∧
      (s.seq.phase = .rd →
        let u : State := { s with events := rest, acc := w, bus := s.bus ++ [s.readTxn s.reg w], window := t.window }
        t = if s.seq.step.uses .wi = true then { u with seq := ⟨s.seq.step, .wi⟩ } else completeStep (countPoll u)) ∧
      (lands = false → t.window = s.window) ∧
      (lands = true → (s.seq.phase = .ri ∨ s.seq.phase = .wi → t.window = { s.window with idx := w }) ∧
        (s.seq.phase = .wd → t.window = s.window.write s.params s.seq.step (.data (lo s.reg)) w) ∧
        (s.seq.phase = .rd → t.window = (s.window.read s.params s.seq.step (.data (lo s.reg))).2))

/-- 10_state.md R26: RSP is written only on completion: a step that changes it enters RESP, or is a block reset. -/
def Obligations.ResponseIsWrittenOnlyOnCompletion : Prop :=
  ∀ s t : State, step s = .next t → t.rsp ≠ s.rsp →
    (s.seq.step ≠ .resp ∧ t.seq.step = .resp) ∨ ∃ b rest, s.events = .reset b :: rest

/-- 30_encoding.md R86 and 70_reset_and_hazards.md R242, for the whole machine: short of a block reset only a command's own
completion ends it, only the host's taking ends its response, and only acceptance starts the next one. -/
def Obligations.OnlyCompletionTakingAndResetMoveTheBlock : Prop :=
  ∀ s t : State, step s = .next t → (∀ b rest, s.events ≠ .reset b :: rest) →
    (s.seq.step.busy = true → t.cmd = s.cmd ∧ t.taken = s.taken ∧ (t.seq.step.busy = true ∨ t.seq.step = .resp)) ∧
    (s.seq.step = .resp → t.cmd = s.cmd ∧ t.rsp = s.rsp ∧
      ((t.seq = s.seq ∧ t.taken = s.taken) ∨
        (t.seq = ⟨.idle, .ri⟩ ∧ t.taken = s.taken ++ [s.rsp] ∧ ∃ rest, s.events = .take :: rest))) ∧
    (s.seq.step = .idle → t.taken = s.taken ∧
      ((t.seq = s.seq ∧ t.cmd = s.cmd) ∨
        (t.seq.step ≠ .idle ∧ ∃ q, s.port = some q ∧ t.port = none ∧
          t.cmd = ⟨q.op, q.mode, q.en, q.regnum, q.wdata⟩)))

/-- 10_state.md R30, for the whole machine: nothing but the host changes the configuration inputs, and it does so only while
the block is IDLE; the parameters never change. -/
def Obligations.InputsAreNeverWrittenByTheBlock : Prop :=
  ∀ s t : State, step s = .next t → t.params = s.params ∧
    (t.cfg = s.cfg ∨ (s.seq.step = .idle ∧ ∃ rest, s.events = .configure t.cfg :: rest))

/-- 10_state.md R30 and 70_reset_and_hazards.md R252: a run in which another agent accesses the window while the block is
BUSY, or a configuration input changes before the response is taken, has no meaning. That it stops also while the response
waits is the model's choice (log 13). -/
def Obligations.HostDutiesAreKept : Prop :=
  (∀ (s : State) (x : Target) (w : Option Word) (rest : List Event), s.wellSet = true → s.seq.step.busy = true →
    s.events = .master x w :: rest → step s = .refused .otherMaster) ∧
  (∀ (s : State) (c : ConfigIn) (rest : List Event), s.wellSet = true → s.seq.step ≠ .idle → c ≠ s.cfg →
    s.events = .configure c :: rest → step s = .refused .configChanged)

/-- 10_state.md R31 and 70_reset_and_hazards.md R251: while the block is not BUSY another master's access reaches the window
as any access does, changes nothing of the block and is no transaction of the block. What it does outside commands, that it
starts and advances no draw among it, is the model's choice (log 12). -/
def Obligations.OtherMastersReachTheFreeWindow : Prop :=
  ∀ (s : State) (rest : List Event), s.wellSet = true → s.seq.step.busy = false →
    (∀ v, s.events = .master .index (some v) :: rest → s.accessible .index = true →
      step s = .next { s with events := rest, window := { s.window with idx := v } }) ∧
    (s.events = .master .index none :: rest → s.accessible .index = true → step s = .next { s with events := rest }) ∧
    (∀ o v, s.events = .master (.data o) (some v) :: rest → s.accessible (.data o) = true →
      let n := s.window.idx.setWidth 16 ++ o
      ∃ w, step s = .next { s with events := rest, window := w } ∧ w.idx = s.window.idx ∧ w.kind = s.window.kind ∧
        w.vrScript = s.window.vrScript ∧ (s.window.kind = .oracle → w = s.window) ∧
        (∀ a, ¬inRegister n a → w.reg.byte a = s.window.reg.byte a) ∧
        (s.window.kind = .reference → w.reg.loadWord s.params.byteOrder n = v ∧
          w.vr = if n = s.params.rDigCtrl then .none else s.window.vr)) ∧
    (∀ o, s.events = .master (.data o) none :: rest → s.accessible (.data o) = true →
      let n := s.window.idx.setWidth 16 ++ o
      ∃ w, step s = .next { s with events := rest, window := w } ∧ w.idx = s.window.idx ∧ w.kind = s.window.kind ∧
        w.vr = s.window.vr ∧ w.vrScript = s.window.vrScript ∧
        (¬(s.window.kind = .reference ∧ n = s.params.rDigCtrl ∧ s.window.vr = .setFor 0) → w.reg = s.window.reg) ∧
        (s.window.kind = .reference → n = s.params.rDigCtrl → s.window.vr = .setFor 0 →
          w.reg.loadWord s.params.byteOrder n = clr s.params.fVrRst (s.regValue n) ∧
          ∀ a, ¬inRegister n a → w.reg.byte a = s.window.reg.byte a))

/-- 20_memory.md R58, 10_state.md R34: the reference window may change any of its registers itself, at any time, and nothing
else; it has registers at multiples of 4 only (R36). The chip's window shows a change only in the words it returns. Such a
change as a scheduled event, the stop, and that a change of R_DIG_CTRL leaves the self-clearing of F_VR_RST as it was, are the
model's choice (log 22). -/
def Obligations.WindowChangesOnlyItsOwnRegisters : Prop :=
  ∀ (s : State) (n v : Word) (rest : List Event), s.wellSet = true → s.events = .window n v :: rest →
    (s.window.kind = .oracle → step s = .next { s with events := rest }) ∧
    (s.window.kind = .reference → n.toNat % 4 = 0 →
      ∃ m, step s = .next { s with events := rest, window := { s.window with reg := m } } ∧
        m.loadWord s.params.byteOrder n = v ∧ ∀ a, ¬inRegister n a → m.byte a = s.window.reg.byte a) ∧
    (s.window.kind = .reference → n.toNat % 4 ≠ 0 → step s = .refused (.noSuchRegister n))

/-- 00_scope.md R9 to R14, 92 D34, 93 U10: a run with ill-formed parameters or configuration inputs has no meaning and every
step of it stops, whatever is scheduled. Which sets are ill formed is read from those rules (log 14). -/
def Obligations.IllFormedParametersAreRefused : Prop :=
  ∀ s : State, (s.params.wf = false ∨ s.cfg.wf s.params = false) → step s = .refused .badParameters

/-- 20_memory.md R64, R65, R67, 10_state.md R36: the block checks nothing and issues the transaction of its phase, at the sum
modulo 2^AW. At an address outside the mapping or a data address that wraps, misaligned, overlapping the index register, or
outside the reference window, what follows is undefined (93 U1, U2, U3; R36) and the run stops with the transaction issued. The
mapping as regions, the order of the refusals and the transaction carried inside are the model's choice (log 11). -/
def Obligations.AccessWithoutMeaningIsRefused : Prop :=
  ∀ s : State, s.seq.step.uses s.seq.phase = true →
    let x : Target := if s.seq.phase = .ri ∨ s.seq.phase = .wi then .index else .data (lo s.reg)
    let a := (s.cfg.base + s.offsetOf x) % 2 ^ s.params.aw
    let b := (s.cfg.base + s.params.idxOff) % 2 ^ s.params.aw
    let mapped : Prop := (x = .index ∨ s.cfg.base + s.offsetOf x < 2 ^ s.params.aw) ∧
      ∃ g ∈ s.cfg.mapping, g.start ≤ a ∧ a + 4 ≤ g.start + g.size
    let q : Request :=
      match s.seq.phase with
      | .rd => .read a
      | .wd => .write a s.acc
      | .ri | .wi => .write a (indexWord s.reg)
    (¬mapped → advance s = .refused (.outsideMapping q)) ∧
    (mapped → a % 4 ≠ 0 → advance s = .refused (.misaligned q)) ∧
    (mapped → a % 4 = 0 → x ≠ .index → a < b + 4 → b < a + 4 → advance s = .refused (.overlapsIndex q)) ∧
    (mapped → a % 4 = 0 → x ≠ .index → (a + 4 ≤ b ∨ b + 4 ≤ a) → s.window.kind = .reference → (lo s.reg).toNat % 4 ≠ 0 →
      advance s = .refused (.outsideReference q))
end

