-- ==== Sys2Proof/Laws/Operands.lean ====
section
/-! SUPPORT. The decomposer and the field helpers (spec/41_accessor.md R101, spec/00_scope.md R17): what each bit of their
result is. -/

namespace Sys2Proof.Machine

theorem hi_getLsbD (r : Word) (i : Nat) : (hi r).getLsbD i = (decide (i < 16) && r.getLsbD (16 + i)) := by
  simp [hi]

theorem lo_toNat (r : Word) : (lo r).toNat = r.toNat % 65536 := by
  simp only [lo, BitVec.toNat_setWidth, BitVec.toNat_and, BitVec.toNat_ofNat]
  rw [show (65535 % 2 ^ 32 : Nat) = 2 ^ 16 - 1 by norm_num, Nat.and_two_pow_sub_one_eq_mod]
  omega

theorem hi_toNat (r : Word) : (hi r).toNat = r.toNat / 65536 := by
  have := r.isLt
  simp only [hi, BitVec.toNat_setWidth, BitVec.toNat_ushiftRight, Nat.shiftRight_eq_div_pow]
  omega

/-- The two halves are the register number (41_accessor.md R101: the split loses no bit). -/
theorem hi_append_lo (r : Word) : hi r ++ lo r = r := by
  apply BitVec.eq_of_toNat_eq
  rw [BitVec.toNat_append, hi_toNat, lo_toNat, Nat.shiftLeft_eq, ← Nat.shiftLeft_eq,
    ← Nat.shiftLeft_add_eq_or_of_lt (by omega), Nat.shiftLeft_eq]
  omega

theorem indexWord_low (r : Word) : (indexWord r).setWidth 16 = hi r := by
  apply BitVec.eq_of_toNat_eq
  have := (hi r).isLt
  simp only [indexWord, BitVec.toNat_setWidth]
  omega

theorem indexWord_toNat (r : Word) : (indexWord r).toNat = r.toNat / 65536 := by
  have := r.isLt
  simp only [indexWord, BitVec.toNat_setWidth, hi_toNat]
  omega

/-- Bit i of a field's mask (00_scope.md R17). -/
theorem mask_getLsbD (f : Field) (i : Nat) :
    (mask f).getLsbD i = (decide (i < 32) && decide (f.lsb ≤ i) && decide (i < f.lsb + f.width)) := by
  simp only [mask, BitVec.getLsbD_shiftLeft, BitVec.getLsbD_ofNat, Nat.testBit_two_pow_sub_one]
  rw [Bool.eq_iff_iff]
  simp only [Bool.and_eq_true, Bool.not_eq_true', decide_eq_true_eq, decide_eq_false_iff_not]
  omega

/-- Bit i of a word with a field cleared. -/
theorem clr_getLsbD (f : Field) (x : Word) (i : Nat) : (clr f x).getLsbD i = (x.getLsbD i && !(mask f).getLsbD i) := by
  by_cases h : i < 32
  · simp only [clr, BitVec.getLsbD_and, BitVec.getLsbD_not, h, decide_true, Bool.true_and]
  · simp only [BitVec.getLsbD_of_ge _ i (by omega : 32 ≤ i), Bool.false_and]

/-- Bit i of a word with a bit set. -/
theorem setb_getLsbD (f : Field) (x : Word) (i : Nat) : (setb f x).getLsbD i = (x.getLsbD i || (mask f).getLsbD i) := by
  simp [setb]

/-- Bit i of a word with a field replaced. -/
theorem setf_getLsbD (f : Field) (x v : Word) (i : Nat) :
    (setf f x v).getLsbD i = if (mask f).getLsbD i then v.getLsbD (i - f.lsb) else x.getLsbD i := by
  by_cases hi : i < 32
  · simp only [setf, BitVec.getLsbD_or, clr_getLsbD, ins, BitVec.getLsbD_and, BitVec.getLsbD_shiftLeft]
    by_cases h : (mask f).getLsbD i = true
    · have h' := h
      simp only [mask_getLsbD, Bool.and_eq_true, decide_eq_true_eq] at h'
      simp only [h, h'.1.1, Nat.not_lt.2 h'.1.2, decide_true, decide_false, Bool.not_true, Bool.not_false, Bool.and_false,
        Bool.and_true, Bool.true_and, Bool.false_or, if_true]
    · simp [h]
  · have h32 : 32 ≤ i := by omega
    rw [BitVec.getLsbD_of_ge _ i h32]
    simp [mask_getLsbD, hi, BitVec.getLsbD_of_ge x i h32]

/-- Bit i of a field taken out of a word. -/
theorem ext_getLsbD (f : Field) (x : Word) (i : Nat) :
    (ext f x).getLsbD i = (x.getLsbD (f.lsb + i) && (mask f).getLsbD (f.lsb + i)) := by
  simp [ext]

/-- A field of a word depends on the bits under its mask alone. -/
theorem ext_congr {f : Field} {x y : Word} (h : ∀ i, (mask f).getLsbD i = true → x.getLsbD i = y.getLsbD i) :
    ext f x = ext f y := by
  apply BitVec.eq_of_getLsbD_eq
  intro i _
  rw [ext_getLsbD, ext_getLsbD]
  by_cases m : (mask f).getLsbD (f.lsb + i) = true
  · rw [h _ m]
  · simp [m]

/-- Disjoint fields have disjoint masks (92 D34). -/
theorem disjoint_masks {f g : Field} (h : f.disjoint g = true) {i : Nat} (hf : (mask f).getLsbD i = true) :
    (mask g).getLsbD i = false := by
  simp only [mask_getLsbD, Bool.and_eq_true, decide_eq_true_eq] at hf
  simp only [Field.disjoint, Bool.or_eq_true, decide_eq_true_eq] at h
  simp only [mask_getLsbD, Bool.and_eq_false_iff, decide_eq_false_iff_not]
  omega

/-- Every phase a read-modify-write step uses is all four (10_state.md R22). -/
theorem uses_wi_all {x : SeqStep} (h : x.uses .ri = true) (h' : x.uses .wi = true) (f : Phase) : x.uses f = true := by
  cases x <;> cases f <;> first | rfl | simp_all [SeqStep.uses]

end Sys2Proof.Machine
end

