-- ==== Sys2Proof/Laws/Memory.lean ====
section
/-! SUPPORT. Memory: a read after a write, and that every write keeps the canonical form (spec/10_state.md R36). -/

namespace Sys2Proof.Machine

theorem Memory.lookup_put (m : Memory) (a b : Nat) (v : Byte) :
    (m.put a v).lookup b = if a = b then some v else m.lookup b := by
  induction m with
  | nil => simp [Memory.put, Memory.lookup]
  | cons c m ih =>
    simp only [Memory.put]
    split_ifs with h₁ h₂ h₃ h₃ <;> (simp_all [Memory.lookup]; try omega)

/-- What one byte reads as after a write. -/
theorem Memory.byte_put (m : Memory) (a b : Nat) (v : Byte) : (m.put a v).byte b = if a = b then v else m.byte b := by
  simp only [Memory.byte, Memory.lookup_put]
  split_ifs <;> rfl

theorem Memory.mem_put {m : Memory} {a : Nat} {v : Byte} {c : Host.Cell} (h : c ∈ m.put a v) : c = (a, v) ∨ c ∈ m := by
  induction m with
  | nil => simpa [Memory.put] using h
  | cons d m ih =>
    simp only [Memory.put] at h
    split_ifs at h <;> simp only [List.mem_cons] at h ⊢
    · exact h
    · tauto
    · rcases h with h | h
      · exact .inr (.inl h)
      · rcases ih h with h | h <;> tauto

/-- A write keeps the canonical form. -/
theorem Memory.put_wf {m : Memory} (h : m.wf) {a : Nat} (ha : a < 2 ^ 32) (v : Byte) : (m.put a v).wf := by
  refine ⟨?_, fun c hc => (Memory.mem_put hc).elim (fun e => e ▸ ha) (h.2 c)⟩
  have hs := h.1
  clear h
  induction m with
  | nil => simp [Memory.put]
  | cons d m ih =>
    rw [List.pairwise_cons] at hs
    simp only [Memory.put]
    split_ifs with h₁ h₂
    · refine List.pairwise_cons.2 ⟨fun c hc => ?_, List.pairwise_cons.2 hs⟩
      rcases List.mem_cons.1 hc with rfl | hc
      · exact h₁
      · exact h₁.trans (hs.1 c hc)
    · exact List.pairwise_cons.2 ⟨fun c hc => h₂ ▸ hs.1 c hc, hs.2⟩
    · refine List.pairwise_cons.2 ⟨fun c hc => ?_, ih hs.2⟩
      rcases Memory.mem_put hc with rfl | hc
      · simp only; omega
      · exact hs.1 c hc

theorem byteAddr_lt (n : Word) (k : Nat) : byteAddr n k < 2 ^ 32 := (n + BitVec.ofNat 32 k).isLt

/-- Every word write keeps the canonical form. -/
theorem Memory.storeWord_wf {m : Memory} (h : m.wf) (o : ByteOrder) (n v : Word) : (m.storeWord o n v).wf :=
  Memory.put_wf (Memory.put_wf (Memory.put_wf (Memory.put_wf h (byteAddr_lt n 0) _) (byteAddr_lt n 1) _) (byteAddr_lt n 2) _)
    (byteAddr_lt n 3) _

theorem Memory.nil_wf : Memory.wf [] := by simp [Memory.wf]

theorem byteAddr_inj (n : Word) {j k : Nat} (hj : j < 4) (hk : k < 4) : byteAddr n j = byteAddr n k ↔ j = k := by
  simp only [byteAddr, BitVec.toNat_add, BitVec.toNat_ofNat]
  omega

/-- A byte outside the four of a word write reads as before. -/
theorem Memory.byte_storeWord_other (m : Memory) (o : ByteOrder) (n v : Word) {a : Nat} (h : ∀ k, k < 4 → byteAddr n k ≠ a) :
    (m.storeWord o n v).byte a = m.byte a := by
  simp [Memory.storeWord, Memory.byte_put, h 0 (by omega), h 1 (by omega), h 2 (by omega), h 3 (by omega)]

/-- A byte of a word write reads as the word's byte in the byte order. -/
theorem Memory.byte_storeWord_same (m : Memory) (o : ByteOrder) (n v : Word) {k : Nat} (hk : k < 4) :
    (m.storeWord o n v).byte (byteAddr n k) = wordByte v (byteIndex o k) := by
  have h := fun j (hj : j < 4) => byteAddr_inj n hj hk
  simp only [Memory.storeWord, Memory.byte_put, h 0 (by omega), h 1 (by omega), h 2 (by omega), h 3 (by omega)]
  obtain rfl | rfl | rfl | rfl : k = 0 ∨ k = 1 ∨ k = 2 ∨ k = 3 := by omega
  all_goals simp

theorem wordByte_join (v : Word) : wordByte v 3 ++ wordByte v 2 ++ wordByte v 1 ++ wordByte v 0 = v := by
  apply BitVec.eq_of_getLsbD_eq
  intro i hi
  simp only [BitVec.getLsbD_append, wordByte, BitVec.getLsbD_extractLsb']
  split_ifs <;> grind

/-- Reading a word back after writing it, in either byte order (20_memory.md R63: no rule depends on it). -/
theorem Memory.loadWord_storeWord_same (m : Memory) (o : ByteOrder) (n v : Word) : (m.storeWord o n v).loadWord o n = v := by
  have h := fun k (hk : k < 4) => Memory.byte_storeWord_same m o n v hk
  cases o <;>
    simp only [Memory.loadWord, byteIndex, h 0 (by omega), h 1 (by omega), h 2 (by omega), h 3 (by omega), Nat.sub_self,
      Nat.sub_zero, Nat.reduceSub] <;> exact wordByte_join v

/-- Two register numbers that are multiples of 4 share a byte only if they are equal. -/
theorem byteAddr_ne {n p : Word} (hn : n.toNat % 4 = 0) (hp : p.toNat % 4 = 0) (h : n ≠ p) {j k : Nat} (hj : j < 4)
    (hk : k < 4) : byteAddr n j ≠ byteAddr p k := by
  intro e
  apply h
  apply BitVec.eq_of_toNat_eq
  simp only [byteAddr, BitVec.toNat_add, BitVec.toNat_ofNat] at e
  have := n.isLt
  have := p.isLt
  omega

/-- A word of another register reads as before. -/
theorem Memory.loadWord_storeWord_other (m : Memory) (o : ByteOrder) {n p : Word} (v : Word) (hn : n.toNat % 4 = 0)
    (hp : p.toNat % 4 = 0) (h : n ≠ p) : (m.storeWord o n v).loadWord o p = m.loadWord o p := by
  have e := fun j (hj : j < 4) => Memory.byte_storeWord_other m o n v (a := byteAddr p j)
    fun k hk => byteAddr_ne hn hp h hk hj
  cases o <;>
    simp only [Memory.loadWord, byteIndex, e 0 (by omega), e 1 (by omega), e 2 (by omega), e 3 (by omega), Nat.sub_self,
      Nat.sub_zero, Nat.reduceSub]

end Sys2Proof.Machine
end

