-- ==== Sys2Proof/Laws/State.lean ====
section
/-! SUPPORT. One lemma per field per update of State, so that no proof unfolds a record update, and the fields left by the
named operations on commands. -/

namespace Sys2Proof.Machine

variable (s : State)

@[simp] theorem State.withCfg_params (x : ConfigIn) : (s.withCfg x).params = s.params := rfl
@[simp] theorem State.withCfg_cfg (x : ConfigIn) : (s.withCfg x).cfg = x := rfl
@[simp] theorem State.withCfg_seq (x : ConfigIn) : (s.withCfg x).seq = s.seq := rfl
@[simp] theorem State.withCfg_cmd (x : ConfigIn) : (s.withCfg x).cmd = s.cmd := rfl
@[simp] theorem State.withCfg_acc (x : ConfigIn) : (s.withCfg x).acc = s.acc := rfl
@[simp] theorem State.withCfg_pollcnt (x : ConfigIn) : (s.withCfg x).pollcnt = s.pollcnt := rfl
@[simp] theorem State.withCfg_rsp (x : ConfigIn) : (s.withCfg x).rsp = s.rsp := rfl
@[simp] theorem State.withCfg_window (x : ConfigIn) : (s.withCfg x).window = s.window := rfl
@[simp] theorem State.withCfg_port (x : ConfigIn) : (s.withCfg x).port = s.port := rfl
@[simp] theorem State.withCfg_bus (x : ConfigIn) : (s.withCfg x).bus = s.bus := rfl
@[simp] theorem State.withCfg_taken (x : ConfigIn) : (s.withCfg x).taken = s.taken := rfl
@[simp] theorem State.withCfg_events (x : ConfigIn) : (s.withCfg x).events = s.events := rfl

@[simp] theorem State.withSeq_params (x : Seq) : (s.withSeq x).params = s.params := rfl
@[simp] theorem State.withSeq_cfg (x : Seq) : (s.withSeq x).cfg = s.cfg := rfl
@[simp] theorem State.withSeq_seq (x : Seq) : (s.withSeq x).seq = x := rfl
@[simp] theorem State.withSeq_cmd (x : Seq) : (s.withSeq x).cmd = s.cmd := rfl
@[simp] theorem State.withSeq_acc (x : Seq) : (s.withSeq x).acc = s.acc := rfl
@[simp] theorem State.withSeq_pollcnt (x : Seq) : (s.withSeq x).pollcnt = s.pollcnt := rfl
@[simp] theorem State.withSeq_rsp (x : Seq) : (s.withSeq x).rsp = s.rsp := rfl
@[simp] theorem State.withSeq_window (x : Seq) : (s.withSeq x).window = s.window := rfl
@[simp] theorem State.withSeq_port (x : Seq) : (s.withSeq x).port = s.port := rfl
@[simp] theorem State.withSeq_bus (x : Seq) : (s.withSeq x).bus = s.bus := rfl
@[simp] theorem State.withSeq_taken (x : Seq) : (s.withSeq x).taken = s.taken := rfl
@[simp] theorem State.withSeq_events (x : Seq) : (s.withSeq x).events = s.events := rfl

@[simp] theorem State.withCmd_params (x : Cmd) : (s.withCmd x).params = s.params := rfl
@[simp] theorem State.withCmd_cfg (x : Cmd) : (s.withCmd x).cfg = s.cfg := rfl
@[simp] theorem State.withCmd_seq (x : Cmd) : (s.withCmd x).seq = s.seq := rfl
@[simp] theorem State.withCmd_cmd (x : Cmd) : (s.withCmd x).cmd = x := rfl
@[simp] theorem State.withCmd_acc (x : Cmd) : (s.withCmd x).acc = s.acc := rfl
@[simp] theorem State.withCmd_pollcnt (x : Cmd) : (s.withCmd x).pollcnt = s.pollcnt := rfl
@[simp] theorem State.withCmd_rsp (x : Cmd) : (s.withCmd x).rsp = s.rsp := rfl
@[simp] theorem State.withCmd_window (x : Cmd) : (s.withCmd x).window = s.window := rfl
@[simp] theorem State.withCmd_port (x : Cmd) : (s.withCmd x).port = s.port := rfl
@[simp] theorem State.withCmd_bus (x : Cmd) : (s.withCmd x).bus = s.bus := rfl
@[simp] theorem State.withCmd_taken (x : Cmd) : (s.withCmd x).taken = s.taken := rfl
@[simp] theorem State.withCmd_events (x : Cmd) : (s.withCmd x).events = s.events := rfl

@[simp] theorem State.withAcc_params (x : Word) : (s.withAcc x).params = s.params := rfl
@[simp] theorem State.withAcc_cfg (x : Word) : (s.withAcc x).cfg = s.cfg := rfl
@[simp] theorem State.withAcc_seq (x : Word) : (s.withAcc x).seq = s.seq := rfl
@[simp] theorem State.withAcc_cmd (x : Word) : (s.withAcc x).cmd = s.cmd := rfl
@[simp] theorem State.withAcc_acc (x : Word) : (s.withAcc x).acc = x := rfl
@[simp] theorem State.withAcc_pollcnt (x : Word) : (s.withAcc x).pollcnt = s.pollcnt := rfl
@[simp] theorem State.withAcc_rsp (x : Word) : (s.withAcc x).rsp = s.rsp := rfl
@[simp] theorem State.withAcc_window (x : Word) : (s.withAcc x).window = s.window := rfl
@[simp] theorem State.withAcc_port (x : Word) : (s.withAcc x).port = s.port := rfl
@[simp] theorem State.withAcc_bus (x : Word) : (s.withAcc x).bus = s.bus := rfl
@[simp] theorem State.withAcc_taken (x : Word) : (s.withAcc x).taken = s.taken := rfl
@[simp] theorem State.withAcc_events (x : Word) : (s.withAcc x).events = s.events := rfl

@[simp] theorem State.withPollcnt_params (x : Nat) : (s.withPollcnt x).params = s.params := rfl
@[simp] theorem State.withPollcnt_cfg (x : Nat) : (s.withPollcnt x).cfg = s.cfg := rfl
@[simp] theorem State.withPollcnt_seq (x : Nat) : (s.withPollcnt x).seq = s.seq := rfl
@[simp] theorem State.withPollcnt_cmd (x : Nat) : (s.withPollcnt x).cmd = s.cmd := rfl
@[simp] theorem State.withPollcnt_acc (x : Nat) : (s.withPollcnt x).acc = s.acc := rfl
@[simp] theorem State.withPollcnt_pollcnt (x : Nat) : (s.withPollcnt x).pollcnt = x := rfl
@[simp] theorem State.withPollcnt_rsp (x : Nat) : (s.withPollcnt x).rsp = s.rsp := rfl
@[simp] theorem State.withPollcnt_window (x : Nat) : (s.withPollcnt x).window = s.window := rfl
@[simp] theorem State.withPollcnt_port (x : Nat) : (s.withPollcnt x).port = s.port := rfl
@[simp] theorem State.withPollcnt_bus (x : Nat) : (s.withPollcnt x).bus = s.bus := rfl
@[simp] theorem State.withPollcnt_taken (x : Nat) : (s.withPollcnt x).taken = s.taken := rfl
@[simp] theorem State.withPollcnt_events (x : Nat) : (s.withPollcnt x).events = s.events := rfl

@[simp] theorem State.withRsp_params (x : Rsp) : (s.withRsp x).params = s.params := rfl
@[simp] theorem State.withRsp_cfg (x : Rsp) : (s.withRsp x).cfg = s.cfg := rfl
@[simp] theorem State.withRsp_seq (x : Rsp) : (s.withRsp x).seq = s.seq := rfl
@[simp] theorem State.withRsp_cmd (x : Rsp) : (s.withRsp x).cmd = s.cmd := rfl
@[simp] theorem State.withRsp_acc (x : Rsp) : (s.withRsp x).acc = s.acc := rfl
@[simp] theorem State.withRsp_pollcnt (x : Rsp) : (s.withRsp x).pollcnt = s.pollcnt := rfl
@[simp] theorem State.withRsp_rsp (x : Rsp) : (s.withRsp x).rsp = x := rfl
@[simp] theorem State.withRsp_window (x : Rsp) : (s.withRsp x).window = s.window := rfl
@[simp] theorem State.withRsp_port (x : Rsp) : (s.withRsp x).port = s.port := rfl
@[simp] theorem State.withRsp_bus (x : Rsp) : (s.withRsp x).bus = s.bus := rfl
@[simp] theorem State.withRsp_taken (x : Rsp) : (s.withRsp x).taken = s.taken := rfl
@[simp] theorem State.withRsp_events (x : Rsp) : (s.withRsp x).events = s.events := rfl

@[simp] theorem State.withWindow_params (x : Window) : (s.withWindow x).params = s.params := rfl
@[simp] theorem State.withWindow_cfg (x : Window) : (s.withWindow x).cfg = s.cfg := rfl
@[simp] theorem State.withWindow_seq (x : Window) : (s.withWindow x).seq = s.seq := rfl
@[simp] theorem State.withWindow_cmd (x : Window) : (s.withWindow x).cmd = s.cmd := rfl
@[simp] theorem State.withWindow_acc (x : Window) : (s.withWindow x).acc = s.acc := rfl
@[simp] theorem State.withWindow_pollcnt (x : Window) : (s.withWindow x).pollcnt = s.pollcnt := rfl
@[simp] theorem State.withWindow_rsp (x : Window) : (s.withWindow x).rsp = s.rsp := rfl
@[simp] theorem State.withWindow_window (x : Window) : (s.withWindow x).window = x := rfl
@[simp] theorem State.withWindow_port (x : Window) : (s.withWindow x).port = s.port := rfl
@[simp] theorem State.withWindow_bus (x : Window) : (s.withWindow x).bus = s.bus := rfl
@[simp] theorem State.withWindow_taken (x : Window) : (s.withWindow x).taken = s.taken := rfl
@[simp] theorem State.withWindow_events (x : Window) : (s.withWindow x).events = s.events := rfl

@[simp] theorem State.withPort_params (x : Option Record) : (s.withPort x).params = s.params := rfl
@[simp] theorem State.withPort_cfg (x : Option Record) : (s.withPort x).cfg = s.cfg := rfl
@[simp] theorem State.withPort_seq (x : Option Record) : (s.withPort x).seq = s.seq := rfl
@[simp] theorem State.withPort_cmd (x : Option Record) : (s.withPort x).cmd = s.cmd := rfl
@[simp] theorem State.withPort_acc (x : Option Record) : (s.withPort x).acc = s.acc := rfl
@[simp] theorem State.withPort_pollcnt (x : Option Record) : (s.withPort x).pollcnt = s.pollcnt := rfl
@[simp] theorem State.withPort_rsp (x : Option Record) : (s.withPort x).rsp = s.rsp := rfl
@[simp] theorem State.withPort_window (x : Option Record) : (s.withPort x).window = s.window := rfl
@[simp] theorem State.withPort_port (x : Option Record) : (s.withPort x).port = x := rfl
@[simp] theorem State.withPort_bus (x : Option Record) : (s.withPort x).bus = s.bus := rfl
@[simp] theorem State.withPort_taken (x : Option Record) : (s.withPort x).taken = s.taken := rfl
@[simp] theorem State.withPort_events (x : Option Record) : (s.withPort x).events = s.events := rfl

@[simp] theorem State.withBus_params (x : List Txn) : (s.withBus x).params = s.params := rfl
@[simp] theorem State.withBus_cfg (x : List Txn) : (s.withBus x).cfg = s.cfg := rfl
@[simp] theorem State.withBus_seq (x : List Txn) : (s.withBus x).seq = s.seq := rfl
@[simp] theorem State.withBus_cmd (x : List Txn) : (s.withBus x).cmd = s.cmd := rfl
@[simp] theorem State.withBus_acc (x : List Txn) : (s.withBus x).acc = s.acc := rfl
@[simp] theorem State.withBus_pollcnt (x : List Txn) : (s.withBus x).pollcnt = s.pollcnt := rfl
@[simp] theorem State.withBus_rsp (x : List Txn) : (s.withBus x).rsp = s.rsp := rfl
@[simp] theorem State.withBus_window (x : List Txn) : (s.withBus x).window = s.window := rfl
@[simp] theorem State.withBus_port (x : List Txn) : (s.withBus x).port = s.port := rfl
@[simp] theorem State.withBus_bus (x : List Txn) : (s.withBus x).bus = x := rfl
@[simp] theorem State.withBus_taken (x : List Txn) : (s.withBus x).taken = s.taken := rfl
@[simp] theorem State.withBus_events (x : List Txn) : (s.withBus x).events = s.events := rfl

@[simp] theorem State.withTaken_params (x : List Rsp) : (s.withTaken x).params = s.params := rfl
@[simp] theorem State.withTaken_cfg (x : List Rsp) : (s.withTaken x).cfg = s.cfg := rfl
@[simp] theorem State.withTaken_seq (x : List Rsp) : (s.withTaken x).seq = s.seq := rfl
@[simp] theorem State.withTaken_cmd (x : List Rsp) : (s.withTaken x).cmd = s.cmd := rfl
@[simp] theorem State.withTaken_acc (x : List Rsp) : (s.withTaken x).acc = s.acc := rfl
@[simp] theorem State.withTaken_pollcnt (x : List Rsp) : (s.withTaken x).pollcnt = s.pollcnt := rfl
@[simp] theorem State.withTaken_rsp (x : List Rsp) : (s.withTaken x).rsp = s.rsp := rfl
@[simp] theorem State.withTaken_window (x : List Rsp) : (s.withTaken x).window = s.window := rfl
@[simp] theorem State.withTaken_port (x : List Rsp) : (s.withTaken x).port = s.port := rfl
@[simp] theorem State.withTaken_bus (x : List Rsp) : (s.withTaken x).bus = s.bus := rfl
@[simp] theorem State.withTaken_taken (x : List Rsp) : (s.withTaken x).taken = x := rfl
@[simp] theorem State.withTaken_events (x : List Rsp) : (s.withTaken x).events = s.events := rfl

@[simp] theorem State.withEvents_params (x : List Event) : (s.withEvents x).params = s.params := rfl
@[simp] theorem State.withEvents_cfg (x : List Event) : (s.withEvents x).cfg = s.cfg := rfl
@[simp] theorem State.withEvents_seq (x : List Event) : (s.withEvents x).seq = s.seq := rfl
@[simp] theorem State.withEvents_cmd (x : List Event) : (s.withEvents x).cmd = s.cmd := rfl
@[simp] theorem State.withEvents_acc (x : List Event) : (s.withEvents x).acc = s.acc := rfl
@[simp] theorem State.withEvents_pollcnt (x : List Event) : (s.withEvents x).pollcnt = s.pollcnt := rfl
@[simp] theorem State.withEvents_rsp (x : List Event) : (s.withEvents x).rsp = s.rsp := rfl
@[simp] theorem State.withEvents_window (x : List Event) : (s.withEvents x).window = s.window := rfl
@[simp] theorem State.withEvents_port (x : List Event) : (s.withEvents x).port = s.port := rfl
@[simp] theorem State.withEvents_bus (x : List Event) : (s.withEvents x).bus = s.bus := rfl
@[simp] theorem State.withEvents_taken (x : List Event) : (s.withEvents x).taken = s.taken := rfl
@[simp] theorem State.withEvents_events (x : List Event) : (s.withEvents x).events = x := rfl

@[simp] theorem State.accept_params (c : Cmd) : (s.accept c).params = s.params := rfl
@[simp] theorem State.accept_cfg (c : Cmd) : (s.accept c).cfg = s.cfg := rfl
@[simp] theorem State.accept_seq (c : Cmd) : (s.accept c).seq = s.seq := rfl
@[simp] theorem State.accept_cmd (c : Cmd) : (s.accept c).cmd = c := rfl
@[simp] theorem State.accept_acc (c : Cmd) : (s.accept c).acc = s.acc := rfl
@[simp] theorem State.accept_pollcnt (c : Cmd) : (s.accept c).pollcnt = s.pollcnt := rfl
@[simp] theorem State.accept_rsp (c : Cmd) : (s.accept c).rsp = s.rsp := rfl
@[simp] theorem State.accept_window (c : Cmd) : (s.accept c).window = s.window := rfl
@[simp] theorem State.accept_port (c : Cmd) : (s.accept c).port = s.port := rfl
@[simp] theorem State.accept_bus (c : Cmd) : (s.accept c).bus = s.bus := rfl
@[simp] theorem State.accept_taken (c : Cmd) : (s.accept c).taken = s.taken := rfl
@[simp] theorem State.accept_events (c : Cmd) : (s.accept c).events = s.events := rfl

@[simp] theorem State.finish_params (st : Status) (d : Word) : (s.finish st d).params = s.params := rfl
@[simp] theorem State.finish_cfg (st : Status) (d : Word) : (s.finish st d).cfg = s.cfg := rfl
@[simp] theorem State.finish_seq (st : Status) (d : Word) : (s.finish st d).seq = ⟨.resp, .ri⟩ := rfl
@[simp] theorem State.finish_cmd (st : Status) (d : Word) : (s.finish st d).cmd = s.cmd := rfl
@[simp] theorem State.finish_acc (st : Status) (d : Word) : (s.finish st d).acc = s.acc := rfl
@[simp] theorem State.finish_pollcnt (st : Status) (d : Word) : (s.finish st d).pollcnt = s.pollcnt := rfl
@[simp] theorem State.finish_rsp (st : Status) (d : Word) : (s.finish st d).rsp = ⟨st, d⟩ := rfl
@[simp] theorem State.finish_window (st : Status) (d : Word) : (s.finish st d).window = s.window := rfl
@[simp] theorem State.finish_port (st : Status) (d : Word) : (s.finish st d).port = s.port := rfl
@[simp] theorem State.finish_bus (st : Status) (d : Word) : (s.finish st d).bus = s.bus := rfl
@[simp] theorem State.finish_taken (st : Status) (d : Word) : (s.finish st d).taken = s.taken := rfl
@[simp] theorem State.finish_events (st : Status) (d : Word) : (s.finish st d).events = s.events := rfl

@[simp] theorem State.raise_params (e : Status) : (s.raise e).params = s.params := rfl
@[simp] theorem State.raise_cfg (e : Status) : (s.raise e).cfg = s.cfg := rfl
@[simp] theorem State.raise_seq (e : Status) : (s.raise e).seq = ⟨.resp, .ri⟩ := rfl
@[simp] theorem State.raise_cmd (e : Status) : (s.raise e).cmd = s.cmd := rfl
@[simp] theorem State.raise_acc (e : Status) : (s.raise e).acc = s.acc := rfl
@[simp] theorem State.raise_pollcnt (e : Status) : (s.raise e).pollcnt = s.pollcnt := rfl
@[simp] theorem State.raise_rsp (e : Status) : (s.raise e).rsp = ⟨e, 0#32⟩ := rfl
@[simp] theorem State.raise_window (e : Status) : (s.raise e).window = s.window := rfl
@[simp] theorem State.raise_port (e : Status) : (s.raise e).port = s.port := rfl
@[simp] theorem State.raise_bus (e : Status) : (s.raise e).bus = s.bus := rfl
@[simp] theorem State.raise_taken (e : Status) : (s.raise e).taken = s.taken := rfl
@[simp] theorem State.raise_events (e : Status) : (s.raise e).events = s.events := rfl

@[simp] theorem State.takeResponse_params : (s.takeResponse).params = s.params := rfl
@[simp] theorem State.takeResponse_cfg : (s.takeResponse).cfg = s.cfg := rfl
@[simp] theorem State.takeResponse_seq : (s.takeResponse).seq = ⟨.idle, .ri⟩ := rfl
@[simp] theorem State.takeResponse_cmd : (s.takeResponse).cmd = s.cmd := rfl
@[simp] theorem State.takeResponse_acc : (s.takeResponse).acc = s.acc := rfl
@[simp] theorem State.takeResponse_pollcnt : (s.takeResponse).pollcnt = s.pollcnt := rfl
@[simp] theorem State.takeResponse_rsp : (s.takeResponse).rsp = s.rsp := rfl
@[simp] theorem State.takeResponse_window : (s.takeResponse).window = s.window := rfl
@[simp] theorem State.takeResponse_port : (s.takeResponse).port = s.port := rfl
@[simp] theorem State.takeResponse_bus : (s.takeResponse).bus = s.bus := rfl
@[simp] theorem State.takeResponse_taken : (s.takeResponse).taken = s.taken ++ [s.rsp] := rfl
@[simp] theorem State.takeResponse_events : (s.takeResponse).events = s.events := rfl

@[simp] theorem State.blockReset_params : (s.blockReset).params = s.params := rfl
@[simp] theorem State.blockReset_cfg : (s.blockReset).cfg = s.cfg := rfl
@[simp] theorem State.blockReset_seq : (s.blockReset).seq = ⟨.idle, .ri⟩ := rfl
@[simp] theorem State.blockReset_cmd : (s.blockReset).cmd = Cmd.reset := rfl
@[simp] theorem State.blockReset_acc : (s.blockReset).acc = 0#32 := rfl
@[simp] theorem State.blockReset_pollcnt : (s.blockReset).pollcnt = 0 := rfl
@[simp] theorem State.blockReset_rsp : (s.blockReset).rsp = Rsp.reset := rfl
@[simp] theorem State.blockReset_window : (s.blockReset).window = s.window := rfl
@[simp] theorem State.blockReset_port : (s.blockReset).port = s.port := rfl
@[simp] theorem State.blockReset_bus : (s.blockReset).bus = s.bus := rfl
@[simp] theorem State.blockReset_taken : (s.blockReset).taken = s.taken := rfl
@[simp] theorem State.blockReset_events : (s.blockReset).events = s.events := rfl

@[simp] theorem State.goto_params (x : SeqStep) : (s.goto x).params = s.params := rfl
@[simp] theorem State.goto_cfg (x : SeqStep) : (s.goto x).cfg = s.cfg := rfl
@[simp] theorem State.goto_seq (x : SeqStep) : (s.goto x).seq = ⟨x, .ri⟩ := rfl
@[simp] theorem State.goto_cmd (x : SeqStep) : (s.goto x).cmd = s.cmd := rfl
@[simp] theorem State.goto_acc (x : SeqStep) : (s.goto x).acc = s.acc := rfl
@[simp] theorem State.goto_pollcnt (x : SeqStep) : (s.goto x).pollcnt = s.pollcnt := rfl
@[simp] theorem State.goto_rsp (x : SeqStep) : (s.goto x).rsp = s.rsp := rfl
@[simp] theorem State.goto_window (x : SeqStep) : (s.goto x).window = s.window := rfl
@[simp] theorem State.goto_port (x : SeqStep) : (s.goto x).port = s.port := rfl
@[simp] theorem State.goto_bus (x : SeqStep) : (s.goto x).bus = s.bus := rfl
@[simp] theorem State.goto_taken (x : SeqStep) : (s.goto x).taken = s.taken := rfl
@[simp] theorem State.goto_events (x : SeqStep) : (s.goto x).events = s.events := rfl

@[simp] theorem State.presenting_params (r : Record) : (s.presenting r).params = s.params := rfl
@[simp] theorem State.presenting_cfg (r : Record) : (s.presenting r).cfg = s.cfg := rfl
@[simp] theorem State.presenting_seq (r : Record) : (s.presenting r).seq = ⟨.idle, .ri⟩ := rfl
@[simp] theorem State.presenting_cmd (r : Record) : (s.presenting r).cmd = s.cmd := rfl
@[simp] theorem State.presenting_acc (r : Record) : (s.presenting r).acc = s.acc := rfl
@[simp] theorem State.presenting_pollcnt (r : Record) : (s.presenting r).pollcnt = s.pollcnt := rfl
@[simp] theorem State.presenting_rsp (r : Record) : (s.presenting r).rsp = s.rsp := rfl
@[simp] theorem State.presenting_window (r : Record) : (s.presenting r).window = s.window := rfl
@[simp] theorem State.presenting_port (r : Record) : (s.presenting r).port = some r := rfl
@[simp] theorem State.presenting_bus (r : Record) : (s.presenting r).bus = s.bus := rfl
@[simp] theorem State.presenting_taken (r : Record) : (s.presenting r).taken = s.taken := rfl
@[simp] theorem State.presenting_events (r : Record) : (s.presenting r).events = [] := rfl

/-! Accessibility and addresses depend on the parameters, the inputs and the kind of window alone. -/

theorem State.addrOf_congr {s t : State} (hp : t.params = s.params) (hc : t.cfg = s.cfg) (x : Target) :
    t.addrOf x = s.addrOf x := by
  cases x <;> simp [State.addrOf, State.offsetOf, hp, hc]

theorem State.accessible_congr {s t : State} (hp : t.params = s.params) (hc : t.cfg = s.cfg)
    (hk : t.window.kind = s.window.kind) (x : Target) : t.accessible x = s.accessible x := by
  obtain ⟨⟩ := s
  obtain ⟨⟩ := t
  simp only at hp hc hk
  subst hp hc
  cases x <;> simp only [State.accessible, State.inModel, hk] <;> rfl

theorem State.canAccess_congr {s t : State} (hp : t.params = s.params) (hc : t.cfg = s.cfg)
    (hk : t.window.kind = s.window.kind) (r : Word) : t.canAccess r = s.canAccess r := by
  simp [State.canAccess, State.accessible_congr hp hc hk]

end Sys2Proof.Machine
end

