-- ==== Sys2Proof/Laws/Window.lean ====
section
/-! SUPPORT. What the window and the block's bus transactions can do (spec/10_state.md R31, R36; spec/41_accessor.md R102 to
R105). -/

namespace Sys2Proof.Machine

section
variable (p : Params) (x : SeqStep) (t : Target) (v n : Word) (w : Window)

@[simp] theorem andThen_next {α β : Type} (a : α) (f : α → Host.Outcome β Fault Refusal) : andThen (.next a) f = f a := rfl
@[simp] theorem andThen_fault {α β : Type} (r : Fault) (f : α → Host.Outcome β Fault Refusal) :
    andThen (.fault r) f = .fault r := rfl
@[simp] theorem andThen_refused {α β : Type} (r : Refusal) (f : α → Host.Outcome β Fault Refusal) :
    andThen (.refused r) f = .refused r := rfl

/-- The inversion of a sequence that answers a next state. -/
theorem andThen_eq_next {α β : Type} {o : Host.Outcome α Fault Refusal} {f : α → Host.Outcome β Fault Refusal} {b : β} :
    andThen o f = .next b ↔ ∃ a, o = .next a ∧ f a = .next b := by
  cases o <;> simp [andThen]

@[simp] theorem Window.startReset_kind : w.startReset.kind = w.kind := by
  unfold Window.startReset; cases w.vrScript <;> rfl
@[simp] theorem Window.startReset_idx : w.startReset.idx = w.idx := by
  unfold Window.startReset; cases w.vrScript <;> rfl
@[simp] theorem Window.startReset_reg : w.startReset.reg = w.reg := by
  unfold Window.startReset; cases w.vrScript <;> rfl

/-- A write that starts the self-clearing takes the schedule's next draw. -/
theorem Window.startReset_cons {n : Option Nat} {rest : List (Option Nat)} (h : w.vrScript = n :: rest) :
    w.startReset = { w with vr := .ofDraw n, vrScript := rest } := by
  unfold Window.startReset
  rw [h]

@[simp] theorem Window.write_index : w.write p x .index v = { w with idx := v } := rfl

@[simp] theorem Window.write_kind : (w.write p x t v).kind = w.kind := by
  cases t with
  | index => rfl
  | data o =>
    unfold Window.write
    cases h : w.kind
    · exact h
    · simp only; (repeat' split) <;> simp

@[simp] theorem Window.write_data_idx (o : Half) : (w.write p x (.data o) v).idx = w.idx := by
  unfold Window.write
  cases w.kind
  · rfl
  · simp only; (repeat' split) <;> simp

/-- A data write sets REG in the reference window and leaves the model's registers alone in the oracle. -/
theorem Window.write_data_reg (o : Half) : (w.write p x (.data o) v).reg =
    if w.kind = .reference then w.reg.storeWord p.byteOrder (w.select o) v else w.reg := by
  unfold Window.write
  cases h : w.kind
  · rfl
  · rw [if_pos rfl]; simp only; (repeat' split) <;> simp

/-- A data write touches the self-clearing only where the reference window receives it for R_DIG_CTRL. -/
theorem Window.write_data_vr (o : Half) (h : ¬(w.kind = .reference ∧ w.select o = p.rDigCtrl)) :
    (w.write p x (.data o) v).vr = w.vr := by
  unfold Window.write
  cases hk : w.kind
  · rfl
  · simp [show ¬w.select o = p.rDigCtrl from fun e => h ⟨hk, e⟩]

/-- A data write of R_DIG_CTRL outside S3D ends the self-clearing. -/
theorem Window.write_digCtrl (o : Half) (hk : w.kind = .reference) (hn : w.select o = p.rDigCtrl) (hx : x ≠ .s3d) :
    w.write p x (.data o) v = { w with reg := w.reg.storeWord p.byteOrder p.rDigCtrl v, vr := .none } := by
  unfold Window.write
  simp [hk, hn, hx]

/-- The data write of R_DIG_CTRL in S3D starts it. -/
theorem Window.write_s3d (o : Half) (hk : w.kind = .reference) (hn : w.select o = p.rDigCtrl) :
    w.write p .s3d (.data o) v = Window.startReset { w with reg := w.reg.storeWord p.byteOrder p.rDigCtrl v } := by
  unfold Window.write
  simp [hk, hn]

/-- A data write of another register sets REG and nothing else. -/
theorem Window.write_other (o : Half) (hk : w.kind = .reference) (hn : w.select o ≠ p.rDigCtrl) :
    w.write p x (.data o) v = { w with reg := w.reg.storeWord p.byteOrder (w.select o) v } := by
  unfold Window.write
  simp [hk, hn]

/-- Outside S3D a data write advances no draw. -/
theorem Window.write_data_draws (o : Half) (h : x ≠ .s3d) :
    (w.write p x (.data o) v).vrScript = w.vrScript ∧ (w.write p x (.data o) v).draws = w.draws := by
  unfold Window.write
  cases w.kind
  · exact ⟨rfl, rfl⟩
  · simp only [if_neg h]; split <;> simp

@[simp] theorem Window.readDigCtrl_kind : (w.readDigCtrl p x v).2.kind = w.kind := by
  unfold Window.readDigCtrl; (repeat' split) <;> rfl
@[simp] theorem Window.readDigCtrl_idx : (w.readDigCtrl p x v).2.idx = w.idx := by
  unfold Window.readDigCtrl; (repeat' split) <;> rfl
@[simp] theorem Window.readDigCtrl_vrScript : (w.readDigCtrl p x v).2.vrScript = w.vrScript := by
  unfold Window.readDigCtrl; (repeat' split) <;> rfl

@[simp] theorem Window.read_index : w.read p x .index = (w.idx, w) := rfl

@[simp] theorem Window.read_kind : (w.read p x t).2.kind = w.kind := by
  cases t with
  | index => rfl
  | data o =>
    unfold Window.read
    cases h : w.kind
    · simp
    · simp only; split <;> simp [h]

@[simp] theorem Window.read_idx : (w.read p x t).2.idx = w.idx := by
  cases t with
  | index => rfl
  | data o =>
    unfold Window.read
    cases h : w.kind
    · rfl
    · simp only; split <;> simp

@[simp] theorem Window.read_vrScript : (w.read p x t).2.vrScript = w.vrScript := by
  cases t with
  | index => rfl
  | data o =>
    unfold Window.read
    cases h : w.kind
    · rfl
    · simp only; split <;> simp

/-- A read leaves REG as it is, or clears F_VR_RST in R_DIG_CTRL, the draw being spent. -/
theorem Window.read_reg_cases (o : Half) : (w.read p x (.data o)).2.reg = w.reg ∨
    (w.kind = .reference ∧ w.select o = p.rDigCtrl ∧ w.vr = .setFor 0 ∧
      (w.read p x (.data o)).2.reg = w.reg.storeWord p.byteOrder (w.select o) (w.read p x (.data o)).1) := by
  unfold Window.read
  cases w.kind
  · exact .inl rfl
  · simp only
    split
    · rename_i h
      unfold Window.readDigCtrl
      split
      · exact .inl rfl
      · split <;> exact .inl rfl
      · split <;> exact .inl rfl
      · exact .inr ⟨trivial, h, ‹_›, by rw [h]⟩
    · exact .inl rfl

/-- A read of another register leaves the reference window as it is, and answers REG. -/
theorem Window.read_other (o : Half) (h : w.kind = .reference) (hn : w.select o ≠ p.rDigCtrl) :
    w.read p x (.data o) = (w.reg.loadWord p.byteOrder (w.select o), w) := by
  unfold Window.read
  simp [h, hn]

/-- A read of R_DIG_CTRL in the reference window. -/
theorem Window.read_digCtrl (o : Half) (h : w.kind = .reference) (hn : w.select o = p.rDigCtrl) :
    w.read p x (.data o) = w.readDigCtrl p x (w.reg.loadWord p.byteOrder p.rDigCtrl) := by
  unfold Window.read
  simp [h, hn]

/-- A read of R_DIG_CTRL with no self-clearing under way, or outside the poll while the draw lasts, answers REG. -/
theorem Window.readDigCtrl_reg (h : w.vr = .none ∨ (x ≠ .s3p ∧ w.vr ≠ .setFor 0)) : w.readDigCtrl p x v = (v, w) := by
  unfold Window.readDigCtrl
  rcases h with h | ⟨hx, h⟩
  · rw [h]
  · split <;> simp_all

/-- With the draw spent F_VR_RST reads clear, in whatever step, and is cleared in REG. -/
theorem Window.readDigCtrl_spent (h : w.vr = .setFor 0) : w.readDigCtrl p x v =
    (clr p.fVrRst v, { w with reg := w.reg.storeWord p.byteOrder p.rDigCtrl (clr p.fVrRst v) }) := by
  unfold Window.readDigCtrl
  rw [h]

/-- A poll read while the draw lasts sees F_VR_RST set and counts the draw down. -/
theorem Window.readDigCtrl_poll {k : Nat} (h : w.vr = .setFor (k + 1)) :
    w.readDigCtrl p .s3p v = (setb p.fVrRst v, { w with vr := .setFor k }) := by
  unfold Window.readDigCtrl
  rw [h]; rfl

/-- A poll read of a draw that never clears sees F_VR_RST set. -/
theorem Window.readDigCtrl_never (h : w.vr = .never) : w.readDigCtrl p .s3p v = (setb p.fVrRst v, w) := by
  unfold Window.readDigCtrl
  rw [h]; rfl

theorem Window.write_wf (h : w.reg.wf) : (w.write p x t v).reg.wf := by
  cases t with
  | index => exact h
  | data o =>
    rw [Window.write_data_reg]
    split
    · exact Memory.storeWord_wf h _ _ _
    · exact h

theorem Window.read_wf (h : w.reg.wf) : (w.read p x t).2.reg.wf := by
  cases t with
  | index => exact h
  | data o =>
    rcases Window.read_reg_cases p x w o with e | ⟨-, -, -, e⟩ <;> rw [e]
    · exact h
    · exact Memory.storeWord_wf h _ _ _

/-! Without a bus error a transaction is the window's own write or read; with one it is another word's, or none. -/

@[simp] theorem Window.receive_ok : w.receive .ok p x t v = w.write p x t v := rfl
@[simp] theorem Window.answer_ok : w.answer .ok p x t = w.read p x t := rfl
@[simp] theorem Window.answer_error (u : Word) (b : Bool) : (w.answer (.error u b) p x t).1 = u := rfl

/-- What the window receives of a write: a word, or nothing. -/
theorem Window.receive_cases (e : BusEnd) : (∃ u, w.receive e p x t v = w.write p x t u) ∨ w.receive e p x t v = w := by
  cases e with
  | ok => exact .inl ⟨v, rfl⟩
  | error u b => cases b; exacts [.inr rfl, .inl ⟨u, rfl⟩]

/-- What a read does to the window: what a read does, or nothing. -/
theorem Window.answer_cases (e : BusEnd) : (w.answer e p x t).2 = (w.read p x t).2 ∨ (w.answer e p x t).2 = w := by
  cases e with
  | ok => exact .inl rfl
  | error u b => cases b; exacts [.inr rfl, .inl rfl]

@[simp] theorem Window.receive_kind (e : BusEnd) : (w.receive e p x t v).kind = w.kind := by
  rcases Window.receive_cases p x t v w e with ⟨u, h⟩ | h <;> simp [h]
@[simp] theorem Window.answer_kind (e : BusEnd) : (w.answer e p x t).2.kind = w.kind := by
  rcases Window.answer_cases p x t w e with h | h <;> simp [h]
@[simp] theorem Window.receive_data_idx (e : BusEnd) (o : Half) : (w.receive e p x (.data o) v).idx = w.idx := by
  rcases Window.receive_cases p x (.data o) v w e with ⟨u, h⟩ | h <;> simp [h]
@[simp] theorem Window.answer_idx (e : BusEnd) : (w.answer e p x t).2.idx = w.idx := by
  rcases Window.answer_cases p x t w e with h | h <;> simp [h]

theorem Window.receive_wf (e : BusEnd) (h : w.reg.wf) : (w.receive e p x t v).reg.wf := by
  rcases Window.receive_cases p x t v w e with ⟨u, h'⟩ | h' <;> rw [h']
  · exact Window.write_wf p x t u w h
  · exact h

theorem Window.answer_wf (e : BusEnd) (h : w.reg.wf) : (w.answer e p x t).2.reg.wf := by
  rcases Window.answer_cases p x t w e with h' | h' <;> rw [h']
  · exact Window.read_wf p x t w h
  · exact h

end

section
variable {t : Target} {v : Word} {s u : State} {e : BusEnd}

/-- A bus write completes exactly where its target is accessible, however the bus ends it. -/
theorem busWrite_eq_next : busWrite t v s e = .next u ↔ s.accessible t = true ∧
    u = (s.withWindow (s.window.receive e s.params s.seq.step t v)).withBus (s.bus ++ [.write (s.addrOf t) v]) := by
  unfold busWrite
  split
  · rename_i h
    exact ⟨fun e => ⟨h, (Host.Outcome.next.inj e).symm⟩, fun e => e.2 ▸ rfl⟩
  · exact ⟨nofun, fun e => absurd e.1 ‹_›⟩

/-- A bus read completes exactly where its target is accessible, however the bus ends it. -/
theorem busRead_eq_next : busRead t s e = .next u ↔ s.accessible t = true ∧
    u = ((s.withWindow (s.window.answer e s.params s.seq.step t).2).withBus
      (s.bus ++ [.read (s.addrOf t) (s.peek t e)])).withAcc (s.peek t e) := by
  unfold busRead
  split
  · rename_i h
    exact ⟨fun e => ⟨h, (Host.Outcome.next.inj e).symm⟩, fun e => e.2 ▸ rfl⟩
  · exact ⟨nofun, fun e => absurd e.1 ‹_›⟩

end

end Sys2Proof.Machine
end

