-- ==== Sys2Proof/Laws/Phases.lean ====
section
/-! SUPPORT. What one block step can do: the state each phase leaves, the inversion of `advance`, of a command's meaning, and
what no block step changes (spec/42_sequencer.md R130, R131). -/

namespace Sys2Proof.Machine

/-! The states the phases leave; `e` is how the bus ends the transaction. -/

/-- The state phase RI leaves. -/
def State.doneRI (s : State) (e : BusEnd := .ok) : State :=
  ((s.withWindow (s.window.receive e s.params s.seq.step .index (indexWord s.reg))).withBus
    (s.bus ++ [.write (s.addrOf .index) (indexWord s.reg)])).withSeq ⟨s.seq.step, .rd⟩

/-- The state the data read leaves. -/
def State.haveRead (s : State) (e : BusEnd := .ok) : State :=
  ((s.withWindow (s.window.answer e s.params s.seq.step (.data (lo s.reg))).2).withBus
    (s.bus ++ [.read (s.addrOf (.data (lo s.reg))) (s.peek (.data (lo s.reg)) e)])).withAcc (s.peek (.data (lo s.reg)) e)

/-- The state phase RD leaves. -/
def State.doneRD (s : State) (e : BusEnd := .ok) : State :=
  if s.seq.step.uses .wi then (s.haveRead e).withSeq ⟨s.seq.step, .wi⟩ else completeStep (countPoll (s.haveRead e))

/-- The state phase WI leaves. -/
def State.doneWI (s : State) (e : BusEnd := .ok) : State :=
  ((((s.withAcc (s.seq.step.modify s.params s.cfg.fixedSpeedTest s.acc)).withWindow
    (s.window.receive e s.params s.seq.step .index (indexWord s.reg))).withBus
    (s.bus ++ [.write (s.addrOf .index) (indexWord s.reg)])).withSeq ⟨s.seq.step, .wd⟩)

/-- The state the data write leaves. -/
def State.haveWritten (s : State) (e : BusEnd := .ok) : State :=
  (s.withWindow (s.window.receive e s.params s.seq.step (.data (lo s.reg)) s.acc)).withBus
    (s.bus ++ [.write (s.addrOf (.data (lo s.reg))) s.acc])

/-- The state phase WD leaves. -/
def State.doneWD (s : State) (e : BusEnd := .ok) : State := completeStep (s.haveWritten e)

section
variable {s t : State} {e : BusEnd}

theorem phaseRI_eq_next : phaseRI s e = .next t ↔ s.accessible .index = true ∧ t = s.doneRI e := by
  simp only [phaseRI, andThen_eq_next, busWrite_eq_next]
  constructor
  · rintro ⟨a, ⟨h, rfl⟩, e⟩
    exact ⟨h, (Host.Outcome.next.inj e).symm⟩
  · rintro ⟨h, rfl⟩
    exact ⟨_, ⟨h, rfl⟩, rfl⟩

theorem phaseRD_eq_next : phaseRD s e = .next t ↔ s.accessible (.data (lo s.reg)) = true ∧ t = s.doneRD e := by
  simp only [phaseRD, andThen_eq_next, busRead_eq_next, State.doneRD]
  constructor
  · rintro ⟨a, ⟨h, rfl⟩, e⟩
    refine ⟨h, ?_⟩
    split at e <;> rename_i hu
    · exact (Host.Outcome.next.inj e).symm.trans (if_pos hu).symm
    · exact (Host.Outcome.next.inj e).symm.trans (if_neg hu).symm
  · rintro ⟨h, rfl⟩
    refine ⟨_, ⟨h, rfl⟩, ?_⟩
    split <;> rename_i hu <;> rfl

theorem phaseWI_eq_next : phaseWI s e = .next t ↔ s.accessible .index = true ∧ t = s.doneWI e := by
  simp only [phaseWI, andThen_eq_next, busWrite_eq_next]
  constructor
  · rintro ⟨a, ⟨h, rfl⟩, e⟩
    exact ⟨h, (Host.Outcome.next.inj e).symm⟩
  · rintro ⟨h, rfl⟩
    exact ⟨_, ⟨h, rfl⟩, rfl⟩

theorem phaseWD_eq_next : phaseWD s e = .next t ↔ s.accessible (.data (lo s.reg)) = true ∧ t = s.doneWD e := by
  simp only [phaseWD, andThen_eq_next, busWrite_eq_next]
  constructor
  · rintro ⟨a, ⟨h, rfl⟩, e⟩
    exact ⟨h, (Host.Outcome.next.inj e).symm⟩
  · rintro ⟨h, rfl⟩
    exact ⟨_, ⟨h, rfl⟩, rfl⟩

/-- Which target the current phase addresses. -/
def State.phaseTarget (s : State) : Target :=
  match s.seq.phase with
  | .ri | .wi => .index
  | .rd | .wd => .data (lo s.reg)

/-- The state the current phase leaves. -/
def State.donePhase (s : State) (e : BusEnd := .ok) : State :=
  match s.seq.phase with
  | .ri => s.doneRI e
  | .rd => s.doneRD e
  | .wi => s.doneWI e
  | .wd => s.doneWD e

/-- Everything `advance` can answer as a next state: its phase is one the step uses, the target is accessible, and the state
is the one the phase leaves. -/
theorem advance_eq_next : advance s e = .next t ↔
    s.seq.step.uses s.seq.phase = true ∧ s.accessible s.phaseTarget = true ∧ t = s.donePhase e := by
  unfold advance State.phaseTarget State.donePhase
  split
  · rename_i h
    revert h
    cases s.seq.phase <;> intro h <;>
      simp only [phaseRI_eq_next, phaseRD_eq_next, phaseWI_eq_next, phaseWD_eq_next, h, true_and]
  · rename_i h
    exact ⟨nofun, fun e => absurd e.1 h⟩

/-- A legal phase with an accessible target completes, however the bus ends the transaction (41_accessor.md R107). -/
theorem advance_of (h : s.seq.step.uses s.seq.phase = true) (ha : s.accessible s.phaseTarget = true) :
    advance s e = .next (s.donePhase e) :=
  advance_eq_next.2 ⟨h, ha, rfl⟩

end

section
variable (s : State)

@[simp] theorem countPoll_params : (countPoll s).params = s.params := by unfold countPoll; split <;> rfl
@[simp] theorem countPoll_cfg : (countPoll s).cfg = s.cfg := by unfold countPoll; split <;> rfl
@[simp] theorem countPoll_seq : (countPoll s).seq = s.seq := by unfold countPoll; split <;> rfl
@[simp] theorem countPoll_cmd : (countPoll s).cmd = s.cmd := by unfold countPoll; split <;> rfl
@[simp] theorem countPoll_acc : (countPoll s).acc = s.acc := by unfold countPoll; split <;> rfl
@[simp] theorem countPoll_rsp : (countPoll s).rsp = s.rsp := by unfold countPoll; split <;> rfl
@[simp] theorem countPoll_window : (countPoll s).window = s.window := by unfold countPoll; split <;> rfl
@[simp] theorem countPoll_port : (countPoll s).port = s.port := by unfold countPoll; split <;> rfl
@[simp] theorem countPoll_bus : (countPoll s).bus = s.bus := by unfold countPoll; split <;> rfl
@[simp] theorem countPoll_taken : (countPoll s).taken = s.taken := by unfold countPoll; split <;> rfl
@[simp] theorem countPoll_events : (countPoll s).events = s.events := by unfold countPoll; split <;> rfl

/-- Clearing the counter writes `pollcnt`, where there is one. -/
theorem clearPoll_eq : clearPoll s = s.withPollcnt (if s.cfg.pollLimit = none then s.pollcnt else 0) := by
  unfold clearPoll
  split <;> rfl

/-- What completing a step can do: go to the start of a step, with `pollcnt` cleared after S3D, or respond. -/
theorem completeStep_cases : (∃ x n, completeStep s = (s.withPollcnt n).goto x ∧ (s.seq.step = .s3d ∨ n = s.pollcnt)) ∨
    (∃ st d, completeStep s = s.finish st d) ∨ completeStep s = s := by
  unfold completeStep afterS1 afterPoll
  split <;> try split
  all_goals first
    | exact .inl ⟨_, s.pollcnt, rfl, .inr rfl⟩
    | exact .inl ⟨_, _, by rw [clearPoll_eq], .inl ‹_›⟩
    | exact .inr (.inl ⟨_, _, rfl⟩)
    | exact .inr (.inr rfl)
    | skip
  all_goals split
  all_goals first
    | exact .inl ⟨_, s.pollcnt, rfl, .inr rfl⟩
    | exact .inr (.inl ⟨_, _, rfl⟩)
    | skip
  all_goals split <;> exact .inl ⟨_, s.pollcnt, rfl, .inr rfl⟩

@[simp] theorem completeStep_params : (completeStep s).params = s.params := by
  rcases completeStep_cases s with ⟨_, _, e, -⟩ | ⟨_, _, e⟩ | e <;> rw [e] <;> rfl
@[simp] theorem completeStep_cfg : (completeStep s).cfg = s.cfg := by
  rcases completeStep_cases s with ⟨_, _, e, -⟩ | ⟨_, _, e⟩ | e <;> rw [e] <;> rfl
@[simp] theorem completeStep_cmd : (completeStep s).cmd = s.cmd := by
  rcases completeStep_cases s with ⟨_, _, e, -⟩ | ⟨_, _, e⟩ | e <;> rw [e] <;> rfl
@[simp] theorem completeStep_acc : (completeStep s).acc = s.acc := by
  rcases completeStep_cases s with ⟨_, _, e, -⟩ | ⟨_, _, e⟩ | e <;> rw [e] <;> rfl
@[simp] theorem completeStep_window : (completeStep s).window = s.window := by
  rcases completeStep_cases s with ⟨_, _, e, -⟩ | ⟨_, _, e⟩ | e <;> rw [e] <;> rfl
@[simp] theorem completeStep_port : (completeStep s).port = s.port := by
  rcases completeStep_cases s with ⟨_, _, e, -⟩ | ⟨_, _, e⟩ | e <;> rw [e] <;> rfl
@[simp] theorem completeStep_bus : (completeStep s).bus = s.bus := by
  rcases completeStep_cases s with ⟨_, _, e, -⟩ | ⟨_, _, e⟩ | e <;> rw [e] <;> rfl
@[simp] theorem completeStep_taken : (completeStep s).taken = s.taken := by
  rcases completeStep_cases s with ⟨_, _, e, -⟩ | ⟨_, _, e⟩ | e <;> rw [e] <;> rfl
@[simp] theorem completeStep_events : (completeStep s).events = s.events := by
  rcases completeStep_cases s with ⟨_, _, e, -⟩ | ⟨_, _, e⟩ | e <;> rw [e] <;> rfl

end

/-- `pollcnt` after the completion of a step (42_sequencer.md R134). -/
theorem completeStep_pollcnt (s : State) : (completeStep s).pollcnt =
    if s.seq.step = .s3d ∧ s.cfg.pollLimit ≠ none then 0 else s.pollcnt := by
  unfold completeStep afterS1 afterPoll
  split <;> rename_i h <;> simp only [h, reduceCtorEq, false_and, true_and, if_false, clearPoll] <;>
    (repeat' split) <;> first | rfl | contradiction

/-- `pollcnt` after a data read is counted (42_sequencer.md R161). -/
theorem countPoll_pollcnt (s : State) : (countPoll s).pollcnt =
    if s.seq.step = .s3p ∧ s.cfg.pollLimit ≠ none then s.pollcnt + 1 else s.pollcnt := by
  unfold countPoll
  split <;> rfl

/-- A completed step leaves the block at the start of a step or with a response, never in the middle of one. -/
theorem completeStep_phase {s : State} (h : s.seq.step.busy = true) : (completeStep s).seq.step ≠ .idle ∧
    ((completeStep s).seq.phase = .ri) := by
  rcases s with ⟨p, c, ⟨x, f⟩, cm, a, n, r, w, po, b, t, e⟩
  revert h
  cases x <;> intro h <;> simp only [completeStep, afterS1, afterPoll, clearPoll_eq] <;>
    first | exact absurd h Bool.false_ne_true | skip
  all_goals (repeat' split) <;> exact ⟨nofun, rfl⟩

section
variable (s : State) {e : BusEnd}

/-- The window after a transaction of the block. -/
theorem donePhase_window : (s.donePhase e).window =
    match s.seq.phase with
    | .ri | .wi => s.window.receive e s.params s.seq.step .index (indexWord s.reg)
    | .rd => (s.window.answer e s.params s.seq.step (.data (lo s.reg))).2
    | .wd => s.window.receive e s.params s.seq.step (.data (lo s.reg)) s.acc := by
  unfold State.donePhase
  cases s.seq.phase <;> simp only [State.doneRI, State.doneRD, State.doneWI, State.doneWD, completeStep_window]
  · rfl
  · split
    · rfl
    · simp only [completeStep_window, countPoll_window]
      rfl
  · rfl
  · rfl

/-- The transaction of each phase, the same however the bus ends it (41_accessor.md R107). -/
theorem donePhase_txn : (s.donePhase e).bus = s.bus ++
    match s.seq.phase with
    | .ri | .wi => [.write (s.addrOf .index) (indexWord s.reg)]
    | .rd => [.read (s.addrOf (.data (lo s.reg))) (s.peek (.data (lo s.reg)) e)]
    | .wd => [.write (s.addrOf (.data (lo s.reg))) s.acc] := by
  unfold State.donePhase
  cases s.seq.phase <;> simp only [State.doneRI, State.doneRD, State.doneWI, State.doneWD, completeStep_bus]
  · rfl
  · split
    · rfl
    · simp only [completeStep_bus, countPoll_bus]
      rfl
  · rfl
  · rfl

/-- `acc` after each phase (10_state.md R24). -/
theorem donePhase_acc : (s.donePhase e).acc =
    match s.seq.phase with
    | .ri | .wd => s.acc
    | .rd => s.peek (.data (lo s.reg)) e
    | .wi => s.seq.step.modify s.params s.cfg.fixedSpeedTest s.acc := by
  unfold State.donePhase
  cases s.seq.phase <;> simp only [State.doneRI, State.doneRD, State.doneWI, State.doneWD, completeStep_acc]
  · rfl
  · split
    · rfl
    · simp only [completeStep_acc, countPoll_acc]
      rfl
  · rfl
  · rfl

/-- What no transaction of the block changes, whichever the phase. -/
theorem donePhase_frame : (s.donePhase e).params = s.params ∧ (s.donePhase e).cfg = s.cfg ∧
    (s.donePhase e).cmd = s.cmd ∧ (s.donePhase e).port = s.port ∧ (s.donePhase e).taken = s.taken ∧
    (s.donePhase e).events = s.events ∧ (s.donePhase e).window.kind = s.window.kind := by
  unfold State.donePhase
  split
  · simp [State.doneRI]
  · unfold State.doneRD
    split <;> simp [State.haveRead]
  · simp [State.doneWI]
  · simp [State.doneWD, State.haveWritten]

/-- Every transaction keeps the memory's canonical form. -/
theorem donePhase_wf (h : s.window.reg.wf) : (s.donePhase e).window.reg.wf := by
  rw [donePhase_window]
  cases s.seq.phase
  · exact Window.receive_wf _ _ _ _ _ _ h
  · exact Window.answer_wf _ _ _ _ _ h
  · exact Window.receive_wf _ _ _ _ _ _ h
  · exact Window.receive_wf _ _ _ _ _ _ h

/-- Each block step of a running command is exactly one bus transaction (20_memory.md R52). -/
theorem donePhase_bus : ∃ x, (s.donePhase e).bus = s.bus ++ [x] := by
  rw [donePhase_txn]
  cases s.seq.phase <;> exact ⟨_, rfl⟩

end

/-- A step that uses a phase is BUSY. -/
theorem uses_busy {x : SeqStep} {f : Phase} (h : x.uses f = true) : x.busy = true := by
  revert h
  cases x <;> simp [SeqStep.uses, SeqStep.busy]

/-- The state a phase leaves, by phase: in the middle of its step, or the step's completion. -/
theorem donePhase_cases {s : State} {e : BusEnd} (h : s.seq.step.uses s.seq.phase = true) :
    (s.seq.phase = .ri ∧ s.donePhase e = s.doneRI e) ∨
    (s.seq.phase = .rd ∧ s.seq.step.uses .wi = true ∧ s.donePhase e = (s.haveRead e).withSeq ⟨s.seq.step, .wi⟩) ∨
    (s.seq.phase = .rd ∧ (s.seq.step = .xrd ∨ s.seq.step = .s1 ∨ s.seq.step = .s3p) ∧
      s.donePhase e = completeStep (countPoll (s.haveRead e))) ∨
    (s.seq.phase = .wi ∧ s.donePhase e = s.doneWI e) ∨
    (s.seq.phase = .wd ∧ s.seq.step.uses .wd = true ∧ s.donePhase e = completeStep (s.haveWritten e)) := by
  unfold State.donePhase
  cases hf : s.seq.phase <;> simp only [reduceCtorEq, false_and, false_or, or_false, true_and]
  · unfold State.doneRD
    split <;> rename_i hw
    · exact .inl ⟨hw, rfl⟩
    · refine .inr ⟨?_, rfl⟩
      rw [hf] at h
      revert h hw
      cases s.seq.step <;> decide
  · exact ⟨hf ▸ h, rfl⟩

/-- Where the completion of a BUSY step goes, row by row (42_sequencer.md R134). -/
theorem completeStep_rows (s : State) (hb : s.seq.step.busy = true) :
    (∃ y n, completeStep s = (s.withPollcnt n).goto y ∧
      ((s.seq.step = .s1 ∧ softResetSet s.params s.acc = false ∧ n = s.pollcnt ∧
          ((y = .s2a ∧ s.cmd.mode = 0#2) ∨ (y = .s3a ∧ s.cmd.mode = 1#2) ∨
            (y = .s4 ∧ s.cmd.mode ≠ 0#2 ∧ s.cmd.mode ≠ 1#2))) ∨
        (s.seq.step = .s2a ∧ y = .s2b ∧ n = s.pollcnt) ∨
        (s.seq.step = .s2b ∧ s.cfg.fixedSpeedTest = true ∧ y = .s2c ∧ n = s.pollcnt) ∨
        (s.seq.step = .s2b ∧ s.cfg.fixedSpeedTest = false ∧ y = .s4 ∧ n = s.pollcnt) ∨
        (s.seq.step = .s2c ∧ y = .s4 ∧ n = s.pollcnt) ∨ (s.seq.step = .s3a ∧ y = .s3b ∧ n = s.pollcnt) ∨
        (s.seq.step = .s3b ∧ y = .s3c ∧ n = s.pollcnt) ∨ (s.seq.step = .s3c ∧ y = .s3d ∧ n = s.pollcnt) ∨
        (s.seq.step = .s3d ∧ y = .s3p ∧ n = if s.cfg.pollLimit = none then s.pollcnt else 0) ∨
        (s.seq.step = .s3p ∧ vrResetSet s.params s.acc = false ∧ y = .s4 ∧ n = s.pollcnt) ∨
        (s.seq.step = .s3p ∧ vrResetSet s.params s.acc = true ∧ s.cfg.pollLimit ≠ some s.pollcnt ∧ y = .s3p ∧
          n = s.pollcnt) ∨
        (s.seq.step = .s4 ∧ y = .s5 ∧ n = s.pollcnt))) ∨
    (∃ st d, completeStep s = s.finish st d ∧
      ((s.seq.step = .s1 ∧ softResetSet s.params s.acc = true ∧ st = .resetInProgress ∧ d = 0#32) ∨
        (s.seq.step = .s3p ∧ vrResetSet s.params s.acc = true ∧ s.cfg.pollLimit = some s.pollcnt ∧ st = .pollTimeout ∧
          d = 0#32) ∨
        ((s.seq.step = .s5 ∨ s.seq.step = .sane ∨ s.seq.step = .xwr) ∧ st = .ok ∧ d = 0#32) ∨
        (s.seq.step = .xrd ∧ st = .ok ∧ d = s.acc))) := by
  rcases s with ⟨p, c, ⟨x, f⟩, cm, a, n, r, w, po, b, t, e⟩
  cases x <;> simp only [SeqStep.busy, Bool.false_eq_true] at hb <;>
    simp only [completeStep, reduceCtorEq, false_and, false_or, or_false, true_and, and_false, or_true]
  case s1 =>
    unfold afterS1
    split
    · exact .inr ⟨_, _, rfl, ‹_›, rfl, rfl⟩
    · rename_i h
      have h : softResetSet p a = false := by simpa using h
      split
      · exact .inl ⟨_, n, rfl, h, rfl, .inl ⟨rfl, ‹_›⟩⟩
      · split
        · exact .inl ⟨_, n, rfl, h, rfl, .inr (.inl ⟨rfl, ‹_›⟩)⟩
        · exact .inl ⟨_, n, rfl, h, rfl, .inr (.inr ⟨rfl, ‹_›, ‹_›⟩)⟩
  case s2b =>
    split
    · exact .inl ⟨_, n, rfl, .inl ⟨‹_›, rfl, rfl⟩⟩
    · exact .inl ⟨_, n, rfl, .inr ⟨Bool.eq_false_iff.2 ‹_›, rfl, rfl⟩⟩
  case s3p =>
    unfold afterPoll
    split
    · exact .inl ⟨_, n, rfl, .inl ⟨‹_›, rfl, rfl⟩⟩
    · rename_i h
      have h : vrResetSet p a = true := by simpa using h
      split <;> rename_i h₂
      · exact .inr ⟨_, _, rfl, h, by simpa [pollSpent] using h₂, rfl, rfl⟩
      · exact .inl ⟨_, n, rfl, .inr ⟨h, by simpa [pollSpent] using h₂, rfl, rfl⟩⟩
  case s3d => exact .inl ⟨_, _, by rw [clearPoll_eq], rfl, rfl⟩
  all_goals first
    | exact .inl ⟨_, n, rfl, rfl, rfl⟩
    | exact .inr ⟨_, _, rfl, rfl, rfl⟩

/-! Each arm of `exec` as the shared operation it calls. -/

theorem exec_read (r d : Word) (s : State) : exec (.read r d) s =
    runCommand (cmdRead r d) (fun x => x == .xrd) (fun t => t.withSeq ⟨.xrd, .ri⟩) s := rfl
theorem exec_write (r d : Word) (s : State) : exec (.write r d) s =
    runCommand (cmdWrite r d) (fun x => x == .xwr) (fun t => (t.withAcc d).withSeq ⟨.xwr, .wi⟩) s := rfl
theorem exec_init (m : PcsMode) (r d : Word) (s : State) : exec (.init m r d) s =
    runCommand (cmdInit m r d) SeqStep.ofInit startInit s := rfl
theorem exec_setane (e : Bool) (r d : Word) (s : State) : exec (.setane e r d) s =
    runCommand (cmdSetane e r d) (fun x => x == .sane) startSetane s := rfl

/-- Everything a command's meaning can answer as a next state: acceptance, its next transaction, or waiting. -/
theorem runCommand_cases {c : Cmd} {own : SeqStep → Bool} {start : State → State} {s t : State}
    (h : runCommand c own start s = .next t) :
    (s.seq.step = .idle ∧ t = start (s.accept c)) ∨
      (s.seq.step ≠ .idle ∧ own s.seq.step = true ∧ s.cmd = c ∧ advance s = .next t) ∨
      (s.seq.step ≠ .idle ∧ ¬(own s.seq.step = true ∧ s.cmd = c) ∧ t = s) := by
  unfold runCommand at h
  split at h
  · exact .inl ⟨‹_›, (Host.Outcome.next.inj h).symm⟩
  · split at h
    · rename_i h₁ h₂
      simp only [Bool.and_eq_true, beq_iff_eq] at h₂
      exact .inr (.inl ⟨h₁, h₂.1, h₂.2, h⟩)
    · rename_i h₁ h₂
      simp only [Bool.and_eq_true, beq_iff_eq] at h₂
      exact .inr (.inr ⟨h₁, h₂, (Host.Outcome.next.inj h).symm⟩)

/-- An IDLE block accepts. -/
theorem runCommand_idle {c : Cmd} {own : SeqStep → Bool} {start : State → State} {s : State} (h : s.seq.step = .idle) :
    runCommand c own start s = .next (start (s.accept c)) := by
  simp [runCommand, h]

/-- The command in flight makes its next transaction. -/
theorem runCommand_inFlight {c : Cmd} {own : SeqStep → Bool} {start : State → State} {s : State} (h : s.seq.step ≠ .idle)
    (ho : own s.seq.step = true) (hc : s.cmd = c) : runCommand c own start s = advance s := by
  simp [runCommand, h, ho, hc]

end Sys2Proof.Machine
end

