-- ==== Sys2Proof/Laws/Turn.lean ====
section
/-! SUPPORT. What one step of the machine can do (spec/10_state.md R20): the inversions of `blockTurn`, of an event and of
`step`, and runs of several steps. -/

namespace Sys2Proof.Machine

theorem busy_ne {x : SeqStep} (h : x.busy = true) : x ≠ .idle ∧ x ≠ .resp := by
  cases x <;> simp_all [SeqStep.busy]

/-- A BUSY block's turn is its next transaction. -/
theorem blockTurn_busy {s : State} (h : s.seq.step.busy = true) : blockTurn s = advance s := by
  unfold blockTurn
  revert h
  cases s.seq.step <;> intro h <;> first | rfl | exact absurd h (by decide)

theorem blockTurn_idle_none {s : State} (h : s.seq.step = .idle) (hp : s.port = none) : blockTurn s = .next s := by
  simp [blockTurn, h, hp]

theorem blockTurn_idle_some {s : State} {r : Record} (h : s.seq.step = .idle) (hp : s.port = some r) :
    blockTurn s = acceptRecord r (s.withPort none) := by
  simp [blockTurn, h, hp]

theorem blockTurn_resp {s : State} (h : s.seq.step = .resp) : blockTurn s = .next s := by
  simp [blockTurn, h]

/-- Everything the block's turn can be. -/
theorem blockTurn_cases (s : State) : (s.seq.step = .idle ∧ s.port = none ∧ blockTurn s = .next s) ∨
    (∃ r, s.seq.step = .idle ∧ s.port = some r ∧ blockTurn s = acceptRecord r (s.withPort none)) ∨
    (s.seq.step = .resp ∧ blockTurn s = .next s) ∨ (s.seq.step.busy = true ∧ blockTurn s = advance s) := by
  by_cases h : s.seq.step = .idle
  · cases hp : s.port with
    | none => exact .inl ⟨h, rfl, blockTurn_idle_none h hp⟩
    | some r => exact .inr (.inl ⟨r, h, rfl, blockTurn_idle_some h hp⟩)
  · by_cases h' : s.seq.step = .resp
    · exact .inr (.inr (.inl ⟨h', blockTurn_resp h'⟩))
    · have hb : s.seq.step.busy = true := by
        revert h h'
        cases s.seq.step <;> simp [SeqStep.busy]
      exact .inr (.inr (.inr ⟨hb, blockTurn_busy hb⟩))

/-- A step with nothing scheduled is the block's turn. -/
theorem step_noEvents {s : State} (h : s.wellSet = true) (he : s.events = []) : step s = blockTurn s := by
  unfold State.wellSet at h
  simp [step, turn, he, h]

/-- A step with an event that is ready is that event. -/
theorem step_event {s : State} {e : Event} {rest : List Event} (h : s.wellSet = true) (he : s.events = e :: rest)
    (hr : e.ready s = true) : step s = happen e (s.withEvents rest) := by
  unfold State.wellSet at h
  simp [step, turn, he, h, hr]

/-- Everything a step can be. -/
theorem step_cases (s : State) : (s.wellSet = false ∧ step s = .refused .badParameters) ∨
    (s.wellSet = true ∧ step s = blockTurn s) ∨
    (∃ e rest, s.wellSet = true ∧ s.events = e :: rest ∧ e.ready s = true ∧ step s = happen e (s.withEvents rest)) := by
  cases h : s.wellSet with
  | false =>
    unfold State.wellSet at h
    exact .inl ⟨rfl, by simp [step, turn, h]⟩
  | true =>
    cases he : s.events with
    | nil => exact .inr (.inl ⟨rfl, step_noEvents h he⟩)
    | cons e rest =>
      cases hr : e.ready s with
      | true => exact .inr (.inr ⟨e, rest, rfl, rfl, hr, step_event h he hr⟩)
      | false =>
        unfold State.wellSet at h
        exact .inr (.inl ⟨rfl, by simp [step, turn, he, h, hr]⟩)

/-- Everything a step that answers a next state can have done, by what moved the machine. -/
inductive Moved (s : State) : State → Prop
  /-- The block had nothing to do: no command to accept, or a response that waits. -/
  | waited (ev : List Event) : s.seq.step ≠ .idle ∨ s.port = none → s.seq.step.busy = false → Moved s (s.withEvents ev)
  /-- The block accepted a command. -/
  | accepted (ev : List Event) (q : Record) (i : Instr) (t : State) : s.seq.step = .idle → s.port = some q →
      decode q = .ok i → exec i ((s.withEvents ev).withPort none) = .next t → Moved s t
  /-- The block accepted an illegal command. -/
  | rejected (ev : List Event) (q : Record) (e : Reject) : s.seq.step = .idle → s.port = some q → decode q = .error e →
      Moved s (acceptIllegal q ((s.withEvents ev).withPort none))
  /-- The block made a transaction. -/
  | advanced (ev : List Event) (t : State) : s.seq.step.busy = true → advance (s.withEvents ev) = .next t → Moved s t
  /-- The block made a transaction that ended in a bus error. -/
  | failed (ev : List Event) (u : Word) (b : Bool) (t : State) : s.events = .busError u b :: ev → s.seq.step.busy = true →
      advance (s.withEvents ev) (.error u b) = .next t → Moved s t
  /-- A command came to the port. -/
  | presented (ev : List Event) (q : Record) : s.port = none → Moved s ((s.withEvents ev).withPort (some q))
  /-- The host took the response. -/
  | taken (ev : List Event) : s.events = .take :: ev → s.seq.step = .resp → Moved s (s.withEvents ev).takeResponse
  /-- The block was reset. -/
  | abandoned (ev : List Event) (b : Bool) : s.events = .reset b :: ev → Moved s (s.withEvents ev).blockReset
  /-- The block was reset and its transaction in flight took effect. -/
  | abandonedApplied (ev : List Event) (u : State) : s.events = .reset true :: ev → s.seq.step.busy = true →
      advance (s.withEvents ev) = .next u → Moved s u.blockReset
  /-- The inputs were set. -/
  | configured (ev : List Event) (c : ConfigIn) : s.events = .configure c :: ev → s.seq.step = .idle →
      Moved s ((s.withEvents ev).withCfg c)
  /-- The inputs were set to what they were, or the chip's window changed a register. -/
  | ignored (ev : List Event) : Moved s (s.withEvents ev)
  /-- Another master wrote the window. -/
  | masterWrote (ev : List Event) (x : Target) (v : Word) : s.seq.step.busy = false → s.accessible x = true →
      Moved s ((s.withEvents ev).withWindow (s.window.write s.params .idle x v))
  /-- Another master read the window. -/
  | masterRead (ev : List Event) (x : Target) : s.seq.step.busy = false → s.accessible x = true →
      Moved s ((s.withEvents ev).withWindow (s.window.read s.params .idle x).2)
  /-- The reference window changed a register. -/
  | windowChanged (ev : List Event) (n v : Word) : s.window.kind = .reference → n.toNat % 4 = 0 →
      Moved s ((s.withEvents ev).withWindow { s.window with reg := s.window.reg.storeWord s.params.byteOrder n v })

/-- The block's turn that answers a next state. -/
theorem Moved.of_blockTurn {s t : State} (ev : List Event) (h : blockTurn (s.withEvents ev) = .next t) : Moved s t := by
  rcases blockTurn_cases (s.withEvents ev) with ⟨hi, hp, e⟩ | ⟨q, hi, hp, e⟩ | ⟨hr, e⟩ | ⟨hb, e⟩ <;> rw [e] at h
  · cases h
    exact .waited ev (.inr hp) (by rw [show s.seq.step = .idle from hi]; rfl)
  · unfold acceptRecord at h
    split at h
    · exact .accepted ev q _ t hi hp ‹_› h
    · cases h
      exact .rejected ev q _ hi hp ‹_›
  · cases h
    have hr : s.seq.step = .resp := hr
    exact .waited ev (.inl (by rw [hr]; decide)) (by rw [hr]; rfl)
  · exact .advanced ev t hb h

/-- The inversion of a step that answers a next state. -/
theorem step_next {s t : State} (h : step s = .next t) : s.wellSet = true ∧ Moved s t := by
  rcases step_cases s with ⟨-, e⟩ | ⟨hw, e⟩ | ⟨x, ev, hw, he, hr, e⟩ <;> rw [e] at h
  · cases h
  · exact ⟨hw, .of_blockTurn s.events h⟩
  · refine ⟨hw, ?_⟩
    cases x with
    | block => exact .of_blockTurn ev h
    | busError u b => exact .failed ev u b t he hr h
    | present q =>
      cases h
      exact .presented ev q (by simpa [Event.ready] using hr)
    | take =>
      cases h
      exact .taken ev he (by simpa [Event.ready] using hr)
    | reset b =>
      simp only [happen, resetTurn] at h
      split at h
      · rename_i hb
        obtain ⟨u, h₁, h₂⟩ := andThen_eq_next.1 h
        cases h₂
        simp only [Bool.and_eq_true] at hb
        exact .abandonedApplied ev u (hb.1 ▸ he) hb.2 h₁
      · cases h
        exact .abandoned ev b he
    | configure c =>
      simp only [happen, configure] at h
      split_ifs at h with h₁ h₂ <;> cases h
      · exact .ignored ev
      · exact .configured ev c he h₂
    | master x w =>
      simp only [happen, otherAccess] at h
      split_ifs at h with h₁ h₂ <;> cases w <;> cases h
      · exact .masterRead ev x (Bool.eq_false_iff.2 h₁) h₂
      · exact .masterWrote ev x _ (Bool.eq_false_iff.2 h₁) h₂
    | window n v =>
      simp only [happen, windowChange] at h
      split at h
      · cases h
        exact .ignored ev
      · rename_i hk
        split_ifs at h with h₁
        cases h
        exact .windowChanged ev n v hk h₁

@[simp] theorem run_zero (s : State) : run 0 s = .next s := rfl
theorem run_succ (k : Nat) (s : State) : run (k + 1) s = andThen (step s) (run k) := rfl

/-- A run of j + k steps is a run of j and then of k. -/
theorem run_add (j k : Nat) (s : State) : run (j + k) s = andThen (run j s) (run k) := by
  induction j generalizing s with
  | zero => simp
  | succ j ih =>
    rw [Nat.succ_add_eq_add_succ, Nat.add_succ, run_succ, run_succ]
    cases step s <;> simp [ih]

@[simp] theorem execRun_zero (i : Instr) (s : State) : execRun i 0 s = .next s := rfl
theorem execRun_succ (i : Instr) (k : Nat) (s : State) : execRun i (k + 1) s = andThen (exec i s) (execRun i k) := rfl

theorem execRun_add (i : Instr) (j k : Nat) (s : State) : execRun i (j + k) s = andThen (execRun i j s) (execRun i k) := by
  induction j generalizing s with
  | zero => simp
  | succ j ih =>
    rw [Nat.succ_add_eq_add_succ, Nat.add_succ, execRun_succ, execRun_succ]
    cases exec i s <;> simp [ih]

end Sys2Proof.Machine
end

