-- ==== Sys2Proof/Laws/Accesses.lean ====
section
/-! SUPPORT. Whole accesses of the Accessor on behalf of a command: a logical read, a logical write and a read-modify-write
step, each from the first phase to the decision after it (spec/41_accessor.md R104, R105; spec/42_sequencer.md R130, R131). -/

namespace Sys2Proof.Machine

/-- The latch of a command. -/
def latchOf : Instr → Cmd
  | .read r d => cmdRead r d
  | .write r d => cmdWrite r d
  | .init m r d => cmdInit m r d
  | .setane e r d => cmdSetane e r d

/-- The steps of a command. -/
def ownsStep : Instr → SeqStep → Bool
  | .read _ _ => fun x => x == .xrd
  | .write _ _ => fun x => x == .xwr
  | .init _ _ _ => SeqStep.ofInit
  | .setane _ _ _ => fun x => x == .sane

/-- The meaning of the command in flight is the block's next transaction. -/
theorem exec_eq_advance {i : Instr} {s : State} (ho : ownsStep i s.seq.step = true) (hc : s.cmd = latchOf i) :
    exec i s = advance s := by
  have hn : s.seq.step ≠ .idle := by
    intro h
    rw [h] at ho
    cases i <;> exact absurd ho Bool.false_ne_true
  cases i
  · exact (exec_read ..).trans (runCommand_inFlight hn ho hc)
  · exact (exec_write ..).trans (runCommand_inFlight hn ho hc)
  · exact (exec_init ..).trans (runCommand_inFlight hn ho hc)
  · exact (exec_setane ..).trans (runCommand_inFlight hn ho hc)

/-- A response that waits is left alone by its own command's meaning and by any other's. -/
theorem exec_resp {i : Instr} {s : State} (h : s.seq.step = .resp) : exec i s = .next s := by
  have key : ∀ c own start, own .resp = false → runCommand c own start s = .next s := by
    intro c own start ho
    simp [runCommand, h, ho]
  cases i
  · exact (exec_read ..).trans (key _ _ _ rfl)
  · exact (exec_write ..).trans (key _ _ _ rfl)
  · exact (exec_init ..).trans (key _ _ _ rfl)
  · exact (exec_setane ..).trans (key _ _ _ rfl)

/-- The latch of a decoded command is the record's fields. -/
theorem latchOf_ofRecord {q : Record} {i : Instr} (h : decode q = .ok i) : latchOf i = Cmd.ofRecord q := by
  have hm : ∀ m : BitVec 2, (PcsMode.ofCode m).code = m := by decide
  unfold decode at h
  split_ifs at h with h₁ h₂ h₃ h₄ h₅ h₆ <;> cases h
  · simp_all [latchOf, Cmd.ofRecord, cmdRead]
  · simp_all [latchOf, Cmd.ofRecord, cmdWrite]
  · simp_all [latchOf, Cmd.ofRecord, cmdInit]
  · have h₇ : q.op = 3#2 := by
      revert h₄ h₅ h₆
      generalize q.op = o
      revert o
      decide
    simp_all [latchOf, Cmd.ofRecord, cmdSetane]

/-- Everything acceptance of a command by an IDLE block does. -/
theorem exec_accepts {i : Instr} {s t : State} (h : exec i s = .next t) (hi : s.seq.step = .idle) :
    t = { s with cmd := latchOf i, seq := t.seq, acc := t.acc, rsp := t.rsp } ∧
    ((∃ r d, i = .read r d ∧ t.seq = ⟨.xrd, .ri⟩ ∧ t.acc = s.acc ∧ t.rsp = s.rsp) ∨
      (∃ r d, i = .write r d ∧ t.seq = ⟨.xwr, .wi⟩ ∧ t.acc = d ∧ t.rsp = s.rsp) ∨
      (∃ m r d, i = .init m r d ∧ t.acc = s.acc ∧
        ((t.seq = ⟨.resp, .ri⟩ ∧ t.rsp = ⟨.unsupportedMode, 0#32⟩ ∧ (m = .other ∨ m = .other3) ∧
            s.cfg.unsupportedModeFails = true) ∨
          (t.seq = ⟨.s1, .ri⟩ ∧ t.rsp = s.rsp ∧ ¬((m = .other ∨ m = .other3) ∧ s.cfg.unsupportedModeFails = true)))) ∨
      (∃ r d, i = .setane true r d ∧ t.seq = ⟨.sane, .ri⟩ ∧ t.acc = s.acc ∧ t.rsp = s.rsp) ∨
      (∃ r d, i = .setane false r d ∧ t.seq = ⟨.resp, .ri⟩ ∧ t.acc = s.acc ∧ t.rsp = ⟨.ok, 0#32⟩)) := by
  have key : ∀ {c own start}, runCommand c own start s = .next t → t = start (s.accept c) := by
    intro c own start h
    rw [runCommand_idle hi] at h
    exact (Host.Outcome.next.inj h).symm
  cases i with
  | read r d => rw [key (exec_read .. ▸ h)]; exact ⟨rfl, .inl ⟨_, _, rfl, rfl, rfl, rfl⟩⟩
  | write r d => rw [key (exec_write .. ▸ h)]; exact ⟨rfl, .inr (.inl ⟨_, _, rfl, rfl, rfl, rfl⟩)⟩
  | init m r d =>
    have e := key (exec_init .. ▸ h)
    unfold startInit at e
    split at e <;> rename_i hc <;> rw [e]
    · refine ⟨rfl, .inr (.inr (.inl ⟨_, _, _, rfl, rfl, .inl ⟨rfl, rfl, ?_, hc.2⟩⟩))⟩
      have hc := hc.1
      revert hc
      cases m <;> simp [cmdInit, PcsMode.code]
    · refine ⟨rfl, .inr (.inr (.inl ⟨_, _, _, rfl, rfl, .inr ⟨rfl, rfl, ?_⟩⟩))⟩
      revert hc
      cases m <;> simp [cmdInit, PcsMode.code]
  | setane e r d =>
    rw [key (exec_setane .. ▸ h)]
    cases e
    · exact ⟨rfl, .inr (.inr (.inr (.inr ⟨_, _, rfl, rfl, rfl, rfl⟩)))⟩
    · exact ⟨rfl, .inr (.inr (.inr (.inl ⟨_, _, rfl, rfl, rfl, rfl⟩)))⟩

/-- The state in which a logical read of the current step has completed and nothing is decided yet. -/
def State.afterRead (s : State) : State :=
  { s with seq := ⟨s.seq.step, .rd⟩, acc := s.wouldRead s.seq.step s.reg,
           window := ((s.window.selecting s.reg).read s.params s.seq.step (.data (lo s.reg))).2,
           bus := s.bus ++ [s.indexTxn s.reg, s.readTxn s.reg (s.wouldRead s.seq.step s.reg)] }

/-- The state in which a logical write of the current step has completed. -/
def State.afterWrite (s : State) : State :=
  let v := s.seq.step.modify s.params s.cfg.fixedSpeedTest s.acc
  { s with seq := ⟨s.seq.step, .wd⟩, acc := v,
           window := (s.window.selecting s.reg).write s.params s.seq.step (.data (lo s.reg)) v,
           bus := s.bus ++ [s.indexTxn s.reg, s.writeTxn s.reg v] }

/-- The state in which the four transactions of a read-modify-write step have completed. -/
def State.afterRmw (s : State) : State :=
  let a := s.wouldRead s.seq.step s.reg
  let v := s.seq.step.modify s.params s.cfg.fixedSpeedTest a
  { s with seq := ⟨s.seq.step, .wd⟩, acc := v,
           window := ((((s.window.selecting s.reg).read s.params s.seq.step (.data (lo s.reg))).2).selecting s.reg).write
             s.params s.seq.step (.data (lo s.reg)) v,
           bus := s.bus ++ s.rmwTxns s.seq.step a }

theorem doneRI_accessible (s : State) (x : Target) : s.doneRI.accessible x = s.accessible x :=
  State.accessible_congr rfl rfl rfl _

theorem doneWI_accessible (s : State) (x : Target) : s.doneWI.accessible x = s.accessible x :=
  State.accessible_congr rfl rfl rfl _

theorem advance_ri {s : State} (hf : s.seq.phase = .ri) (hu : s.seq.step.uses .ri = true) (ha : s.canAccess s.reg = true) :
    advance s = .next s.doneRI := by
  simp only [State.canAccess, Bool.and_eq_true] at ha
  rw [advance_of (s := s) (by rw [hf]; exact hu) (by simp only [State.phaseTarget, hf]; exact ha.1)]
  simp only [State.donePhase, hf]

theorem doneRI_haveRead (s : State) : s.doneRI.haveRead = s.afterRead := by
  obtain ⟨p, c, ⟨x, f⟩, cm, a, n, r, w, po, b, t, e⟩ := s
  simp only [State.haveRead, State.doneRI, State.afterRead, State.withSeq, State.withBus, State.withWindow, State.withAcc,
    List.append_assoc]
  rfl

theorem advance_rd {s : State} (hu : s.seq.step.uses .ri = true) (ha : s.canAccess s.reg = true) : advance s.doneRI =
    .next (if s.seq.step.uses .wi then s.afterRead.withSeq ⟨s.seq.step, .wi⟩ else completeStep (countPoll s.afterRead)) := by
  simp only [State.canAccess, Bool.and_eq_true] at ha
  have hu2 : s.seq.step.uses .rd = true := by revert hu; cases s.seq.step <;> decide
  rw [advance_of (s := s.doneRI) hu2 ((doneRI_accessible s _).trans ha.2)]
  show Host.Outcome.next s.doneRI.doneRD = _
  rw [State.doneRD, doneRI_haveRead]
  rfl

theorem advance_wi {s : State} (hf : s.seq.phase = .wi) (hu : s.seq.step.uses .wi = true) (ha : s.canAccess s.reg = true) :
    advance s = .next s.doneWI := by
  simp only [State.canAccess, Bool.and_eq_true] at ha
  rw [advance_of (s := s) (by rw [hf]; exact hu) (by simp only [State.phaseTarget, hf]; exact ha.1)]
  simp only [State.donePhase, hf]

theorem doneWI_haveWritten (s : State) : s.doneWI.haveWritten = s.afterWrite := by
  obtain ⟨p, c, ⟨x, f⟩, cm, a, n, r, w, po, b, t, e⟩ := s
  simp only [State.haveWritten, State.doneWI, State.afterWrite, State.withSeq, State.withBus, State.withWindow, State.withAcc,
    List.append_assoc]
  rfl

theorem advance_wd {s : State} (hu : s.seq.step.uses .wi = true) (ha : s.canAccess s.reg = true) :
    advance s.doneWI = .next (completeStep s.afterWrite) := by
  simp only [State.canAccess, Bool.and_eq_true] at ha
  have hu2 : s.seq.step.uses .wd = true := by revert hu; cases s.seq.step <;> decide
  rw [advance_of (s := s.doneWI) hu2 ((doneWI_accessible s _).trans ha.2)]
  show Host.Outcome.next s.doneWI.doneWD = _
  rw [State.doneWD, doneWI_haveWritten]

theorem afterWrite_afterRead (s : State) : (s.afterRead.withSeq ⟨s.seq.step, .wi⟩).afterWrite = s.afterRmw := by
  obtain ⟨p, c, ⟨x, f⟩, cm, a, n, r, w, po, b, t, e⟩ := s
  simp only [State.afterWrite, State.afterRead, State.afterRmw, State.withSeq, List.append_assoc]
  rfl

/-- A logical read on behalf of a command: two transactions, then on to the write or the decision. -/
theorem execRun_logicalRead {i : Instr} {s : State} (ho : ownsStep i s.seq.step = true) (hc : s.cmd = latchOf i)
    (hf : s.seq.phase = .ri) (hu : s.seq.step.uses .ri = true) (ha : s.canAccess s.reg = true) : execRun i 2 s =
    .next (if s.seq.step.uses .wi then s.afterRead.withSeq ⟨s.seq.step, .wi⟩ else completeStep (countPoll s.afterRead)) := by
  rw [execRun_succ, exec_eq_advance ho hc, advance_ri hf hu ha, andThen_next, execRun_succ,
    exec_eq_advance (i := i) (s := s.doneRI) ho hc, advance_rd hu ha]
  rfl

/-- A logical write on behalf of a command: two transactions, then the decision. -/
theorem execRun_logicalWrite {i : Instr} {s : State} (ho : ownsStep i s.seq.step = true) (hc : s.cmd = latchOf i)
    (hf : s.seq.phase = .wi) (hu : s.seq.step.uses .wi = true) (ha : s.canAccess s.reg = true) :
    execRun i 2 s = .next (completeStep s.afterWrite) := by
  rw [execRun_succ, exec_eq_advance ho hc, advance_wi hf hu ha, andThen_next, execRun_succ,
    exec_eq_advance (i := i) (s := s.doneWI) ho hc, advance_wd hu ha]
  rfl

/-- A read-modify-write step on behalf of a command: four transactions, then the decision. -/
theorem execRun_rmw {i : Instr} {s : State} (ho : ownsStep i s.seq.step = true) (hc : s.cmd = latchOf i)
    (hf : s.seq.phase = .ri) (hu : s.seq.step.uses .ri = true) (hw : s.seq.step.uses .wi = true)
    (ha : s.canAccess s.reg = true) : execRun i 4 s = .next (completeStep s.afterRmw) := by
  have hk : (s.afterRead.withSeq ⟨s.seq.step, .wi⟩).window.kind = s.window.kind := Window.read_kind ..
  have ha' : (s.afterRead.withSeq ⟨s.seq.step, .wi⟩).canAccess s.reg = true :=
    (State.canAccess_congr (s := s) (t := s.afterRead.withSeq ⟨s.seq.step, .wi⟩) rfl rfl hk _).trans ha
  rw [show 4 = 2 + 2 from rfl, execRun_add, execRun_logicalRead ho hc hf hu ha, if_pos hw, andThen_next,
    execRun_logicalWrite (s := s.afterRead.withSeq ⟨s.seq.step, .wi⟩) ho hc rfl hw ha', afterWrite_afterRead]

/-- With the index write made, the reference window's data access reaches the register itself (10_state.md R31). -/
theorem Window.selecting_select (w : Window) (r : Word) : (w.selecting r).select (lo r) = r := by
  simp only [Window.select, Window.selecting, indexWord_low, hi_append_lo]

/-- A logical read of the reference window returns REG, but for R_DIG_CTRL while F_VR_RST clears itself. -/
theorem wouldRead_reference {s : State} (h : s.window.kind = .reference) {x : SeqStep} {r : Word}
    (hr : r ≠ s.params.rDigCtrl ∨ s.window.vr = .none ∨ (x ≠ .s3p ∧ s.window.vr ≠ .setFor 0)) :
    s.wouldRead x r = s.regValue r := by
  have hs := s.window.selecting_select r
  unfold State.wouldRead
  by_cases hn : r = s.params.rDigCtrl
  · rw [Window.read_digCtrl _ _ _ _ (by exact h) (hs.trans hn),
      Window.readDigCtrl_reg _ _ _ _ (by exact hr.resolve_left (not_not.2 hn))]
    exact hn ▸ rfl
  · rw [Window.read_other _ _ _ _ (by exact h) (by rw [hs]; exact hn), hs]
    rfl

/-- With the draw spent, a logical read of R_DIG_CTRL sees F_VR_RST clear, in whatever step. -/
theorem wouldRead_spent {s : State} (h : s.window.kind = .reference) (hv : s.window.vr = .setFor 0) (x : SeqStep) :
    s.wouldRead x s.params.rDigCtrl = clr s.params.fVrRst (s.regValue s.params.rDigCtrl) := by
  unfold State.wouldRead
  rw [Window.read_digCtrl _ _ _ _ (by exact h) (Window.selecting_select ..), Window.readDigCtrl_spent _ _ _ _ (by exact hv)]
  rfl

theorem not_inRegister {n : Word} {a : Nat} (h : ¬inRegister n a) (k : Nat) (hk : k < 4) : byteAddr n k ≠ a := by
  simp only [inRegister, not_or] at h
  obtain ⟨h₀, h₁, h₂, h₃⟩ := h
  obtain rfl | rfl | rfl | rfl : k = 0 ∨ k = 1 ∨ k = 2 ∨ k = 3 := by omega
  exacts [Ne.symm h₀, Ne.symm h₁, Ne.symm h₂, Ne.symm h₃]

/-- A read changes no byte outside the register it reaches. -/
theorem Window.read_byte (p : Params) (x : SeqStep) (w : Window) (o : Half) {a : Nat} (h : ¬inRegister (w.select o) a) :
    (w.read p x (.data o)).2.reg.byte a = w.reg.byte a := by
  rcases Window.read_reg_cases p x w o with e | ⟨-, -, -, e⟩ <;> rw [e]
  exact Memory.byte_storeWord_other _ _ _ _ (not_inRegister h)

/-- A write changes no byte outside the register it reaches. -/
theorem Window.write_byte (p : Params) (x : SeqStep) (w : Window) (o : Half) (v : Word) {a : Nat}
    (h : ¬inRegister (w.select o) a) : (w.write p x (.data o) v).reg.byte a = w.reg.byte a := by
  rw [Window.write_data_reg]
  split
  · exact Memory.byte_storeWord_other _ _ _ _ (not_inRegister h)
  · rfl

section
variable {s : State}

/-- After a read-modify-write step the reference window's register holds the modify function of the word the step read. -/
theorem afterRmw_regValue (hk : s.window.kind = .reference) : s.afterRmw.regValue s.reg =
    s.seq.step.modify s.params s.cfg.fixedSpeedTest (s.wouldRead s.seq.step s.reg) := by
  simp only [State.regValue, State.afterRmw]
  rw [Window.write_data_reg, if_pos (by exact (Window.read_kind ..).trans hk), Window.selecting_select]
  exact Memory.loadWord_storeWord_same ..

/-- A read-modify-write step changes no byte outside its register. -/
theorem afterRmw_byte {a : Nat} (h : ¬inRegister s.reg a) : s.afterRmw.window.reg.byte a = s.window.reg.byte a := by
  simp only [State.afterRmw]
  rw [Window.write_byte _ _ _ _ _ (by rw [Window.selecting_select]; exact h)]
  exact Window.read_byte _ _ _ _ (by rw [Window.selecting_select]; exact h)

/-- Outside S3D a read-modify-write step leaves the coming draws alone. -/
theorem afterRmw_vrScript (hx : s.seq.step ≠ .s3d) : s.afterRmw.window.vrScript = s.window.vrScript := by
  simp only [State.afterRmw]
  rw [(Window.write_data_draws _ _ _ _ _ hx).1]
  exact Window.read_vrScript ..

/-- S3D starts the self-clearing with the schedule's next draw (10_state.md R33, R36). -/
theorem afterRmw_s3d (hk : s.window.kind = .reference) (hx : s.seq.step = .s3d) {n : Option Nat} {rest : List (Option Nat)}
    (hv : s.window.vrScript = n :: rest) :
    s.afterRmw.window.vr = .ofDraw n ∧ s.afterRmw.window.vrScript = rest := by
  have hr : s.reg = s.params.rDigCtrl := by simp [State.reg, hx, SeqStep.register]
  simp only [State.afterRmw, hx]
  rw [Window.write_s3d _ _ _ _ (by exact (Window.read_kind ..).trans hk) (by rw [Window.selecting_select]; exact hr),
    Window.startReset_cons _ (by exact (Window.read_vrScript ..).trans hv)]
  exact ⟨rfl, rfl⟩

end

end Sys2Proof.Machine
end

