-- ==== Sys2Proof/Laws/Decode.lean ====
section
/-! SUPPORT. The fields of a control byte and the record of 72 bits (spec/30_encoding.md R80, R81). -/

namespace Sys2Proof

/-- The fields of a control byte made of fields (30_encoding.md R81). -/
theorem controlByte_fields (e : Bool) (m o : BitVec 2) :
    (controlByte e m o).extractLsb' 5 3 = 0#3 ∧ (controlByte e m o).extractLsb' 0 2 = o ∧
      (controlByte e m o).extractLsb' 2 2 = m ∧ (controlByte e m o).getLsbD 4 = e ∧ (controlByte e m o)[4] = e := by
  revert e m o
  decide

/-- A mode's code is read back as the mode (30_encoding.md R83). -/
@[simp] theorem PcsMode.ofCode_code (m : PcsMode) : PcsMode.ofCode m.code = m := by
  cases m <;> decide

/-- The 72 bits of a record are read back as the record. -/
theorem Record.ofBits_toBits (r : Record) : Record.ofBits r.toBits = r := by
  obtain ⟨c, n, d⟩ := r
  simp only [Record.ofBits, Record.toBits, Record.mk.injEq]
  refine ⟨?_, ?_, ?_⟩ <;>
    (apply BitVec.eq_of_getLsbD_eq
     intro i hi
     simp only [BitVec.getLsbD_extractLsb', BitVec.getLsbD_append]
     grind)

end Sys2Proof
end

