-- ==== Sys2Proof/Laws/PerInstr.lean ====
section
/-! SUPPORT. Statements made for every command, one lemma per constructor of Instr. -/

namespace Sys2Proof.Laws.EncodesLegally

/-- The control byte of a command is legal by each clause of 30_encoding.md R85. -/
def Statement (i : Instr) : Prop :=
  (encode i).rsv = 0#3 ∧ ((encode i).op ≠ 2#2 → (encode i).mode = 0#2) ∧ ((encode i).op ≠ 3#2 → (encode i).en = false)

theorem read (r d : Word) : Statement (.read r d) := by
  simp [Statement, encode, Record.rsv, Record.op, Record.mode, Record.en, controlByte_fields]

theorem write (r d : Word) : Statement (.write r d) := by
  simp [Statement, encode, Record.rsv, Record.op, Record.mode, Record.en, controlByte_fields]

theorem init (m : PcsMode) (r d : Word) : Statement (.init m r d) := by
  simp [Statement, encode, Record.rsv, Record.op, Record.en, controlByte_fields]

theorem setane (e : Bool) (r d : Word) : Statement (.setane e r d) := by
  simp [Statement, encode, Record.rsv, Record.op, Record.mode, controlByte_fields]

end Sys2Proof.Laws.EncodesLegally
end

