-- ==== Sys2Proof/Tests/Slice0.lean ====
section
/-! SUPPORT. Tests: expected results are the spec's own vectors (spec/95_test_vectors.md) or are written out by hand from its
encoding tables; and one witness for the hypotheses of every statement that has some. -/

namespace Sys2Proof.Tests

open Sys2Proof.Machine

/-! ## Helpers -/

/-- The four little-endian cells of a register. -/
def cells (n v : Nat) : Memory :=
  [(n, BitVec.ofNat 8 v), (n + 1, BitVec.ofNat 8 (v / 256)), (n + 2, BitVec.ofNat 8 (v / 65536)),
    (n + 3, BitVec.ofNat 8 (v / 16777216))]

/-- The registers P0 names, with these words. -/
def regs (mii dig an pcs digc usxg : Nat) : Memory :=
  cells 0x10000 mii ++ cells 0x10004 dig ++ cells 0x10008 an ++ cells 0x20000 pcs ++ cells 0x20004 digc ++ cells 0x20008 usxg

/-- The block after reset before a reference window with P0, IDX = 0, this memory and these draws. -/
def start (m : Memory) (draws : List (Option Nat)) : State :=
  State.reset.withWindow ⟨.reference, 0#32, m, .none, draws, 0⟩

/-- The start of program P2. -/
def p2 : State := start (regs 0x1140 0 0xA 0 0 0) []

/-- The start of program P3. -/
def p3 : State := start (regs 0x1140 0 0 1 0 0x1C00) [some 2]

/-- The start of program P4. -/
def p4 : State := start (regs 0x9140 0 0 0 0 0) []

/-- P2 with other configuration inputs. -/
def p2With (t fails : Bool) (limit : Option Nat) : State :=
  p2.withCfg { Config.p0Inputs with fixedSpeedTest := t, unsupportedModeFails := fails, pollLimit := limit }

/-- The block of `s` in the middle of a command. -/
def mid (s : State) (x : SeqStep) (f : Phase) (c : Cmd) (a : Word) : State :=
  ((s.withSeq ⟨x, f⟩).withCmd c).withAcc a

/-- The window of `s` with IDX selecting a base. -/
def at' (s : State) (base : Nat) : State := s.withWindow { s.window with idx := BitVec.ofNat 32 base }

/-- The window of `s` with the self-clearing in this state. -/
def polling (s : State) (v : VrReset) : State := s.withWindow { s.window with vr := v }

/-- A next state with this property. -/
def nextIs (o : Result) (f : State → Bool) : Bool :=
  match o with
  | .next s => f s
  | .fault _ | .refused _ => false

/-- A refusal with this name. -/
def refusedIs (o : Result) (r : Refusal) : Bool :=
  match o with
  | .refused q => q == r
  | .next _ | .fault _ => false

/-- A decoding that answers an instruction with this property. -/
def isOkWith (f : Instr → Bool) (r : Except Reject Instr) : Bool :=
  match r with
  | .ok i => f i
  | .error _ => false

/-- A decoding that rejects for this reason. -/
def isReject (e : Reject) (r : Except Reject Instr) : Bool :=
  match r with
  | .ok _ => false
  | .error e' => e' == e

/-! ## Well-formedness: an ill-formed term for each check, which it refuses -/

theorem test_wf_p0 : Config.p0.wf = true ∧ Config.p0Inputs.wf Config.p0 = true := by decide

theorem test_wf_field_in_word : (⟨31, 2⟩ : Field).inWord = false ∧ (⟨0, 0⟩ : Field).inWord = false ∧
    (⟨31, 1⟩ : Field).inWord = true ∧ ({ Config.p0 with fTxCfg := ⟨31, 2⟩ } : Params).fieldsInWord = false := by decide

theorem test_wf_bits_are_bits : (⟨0, 2⟩ : Field).isBit = false ∧
    ({ Config.p0 with fAnEn := ⟨12, 2⟩ } : Params).bitsAreBits = false := by decide

theorem test_wf_fields_disjoint : (⟨0, 4⟩ : Field).disjoint ⟨3, 1⟩ = false ∧ (⟨0, 4⟩ : Field).disjoint ⟨4, 1⟩ = true ∧
    ({ Config.p0 with fAnMode := ⟨0, 2⟩ } : Params).fieldsDisjoint = false ∧
    ({ Config.p0 with fUsxgMode := ⟨15, 3⟩, rUsxgMode := 0x00020004#32 } : Params).fieldsDisjoint = false := by decide

theorem test_wf_an_mode_fits : ({ Config.p0 with vAnModeSgmii := 4#32 } : Params).anModeFits = false ∧
    ({ Config.p0 with vAnModeSgmii := 3#32 } : Params).anModeFits = true := by decide

theorem test_wf_addresses_fit : ({ Config.p0 with aw := 16 } : Params).addressesFit = false ∧
    ({ Config.p0 with aw := 17, idxOff := 2 ^ 17 } : Params).addressesFit = false ∧
    ({ Config.p0 with aw := 17 } : Params).addressesFit = true := by decide

theorem test_wf_params_refused : ({ Config.p0 with aw := 16 } : Params).wf = false ∧
    ({ Config.p0 with fTxCfg := ⟨31, 2⟩ } : Params).wf = false ∧ ({ Config.p0 with fAnEn := ⟨12, 2⟩ } : Params).wf = false ∧
    ({ Config.p0 with fAnMode := ⟨0, 2⟩ } : Params).wf = false ∧
    ({ Config.p0 with vAnModeSgmii := 4#32 } : Params).wf = false := by decide

theorem test_wf_inputs : ({ Config.p0Inputs with pollLimit := some 0 } : ConfigIn).wf Config.p0 = false ∧
    ({ Config.p0Inputs with base := 2 ^ 32 } : ConfigIn).wf Config.p0 = false ∧
    ({ Config.p0Inputs with pollLimit := some 1 } : ConfigIn).wf Config.p0 = true := by decide

theorem test_wf_memory : ¬Memory.wf [(4, 0#8), (4, 1#8)] ∧ ¬Memory.wf [(2 ^ 32, 0#8)] ∧ Memory.wf (regs 1 2 3 4 5 6) := by
  decide

/-- 93 U10: a step with an ill-formed parameter set has no meaning. -/
theorem test_bad_parameters : step ({ State.reset with params := { Config.p0 with fAnEn := ⟨15, 1⟩ } } : State) =
    .refused .badParameters := rfl

/-! ## Decoding: control bytes written out bit by bit from 30_encoding.md R81 to R83 and R89, and V-C1 to V-C10 -/

theorem test_decode_read : isOkWith (fun i => i == .read 0x30004#32 7#32) (decode ⟨0b00000000#8, 0x30004#32, 7#32⟩) = true := by
  decide

theorem test_decode_write : isOkWith (fun i => i == .write 0x30004#32 0xDEADBEEF#32)
    (decode ⟨0b00000001#8, 0x30004#32, 0xDEADBEEF#32⟩) = true := by decide

theorem test_decode_init : isOkWith (fun i => i == .init .sgmii 0#32 0#32) (decode ⟨0b00000010#8, 0#32, 0#32⟩) = true ∧
    isOkWith (fun i => i == .init .usxgmii 1#32 2#32) (decode ⟨0b00000110#8, 1#32, 2#32⟩) = true ∧
    isOkWith (fun i => i == .init .other 0#32 0#32) (decode ⟨0b00001010#8, 0#32, 0#32⟩) = true ∧
    isOkWith (fun i => i == .init .other3 0#32 0#32) (decode ⟨0b00001110#8, 0#32, 0#32⟩) = true := by decide

theorem test_decode_setane : isOkWith (fun i => i == .setane false 0#32 0#32) (decode ⟨0b00000011#8, 0#32, 0#32⟩) = true ∧
    isOkWith (fun i => i == .setane true 0#32 0#32) (decode ⟨0b00010011#8, 0#32, 0#32⟩) = true := by decide

/-- V-C6 to V-C10, one control byte for each way of being illegal and the bits at the ends of RSV. -/
theorem test_decode_illegal : isReject .modeWithoutInit (decode ⟨0x04#8, 0#32, 0#32⟩) = true ∧
    isReject .enWithoutSetane (decode ⟨0x11#8, 0#32, 0#32⟩) = true ∧
    isReject .enWithoutSetane (decode ⟨0x12#8, 0#32, 0#32⟩) = true ∧
    isReject .modeWithoutInit (decode ⟨0x07#8, 0#32, 0#32⟩) = true ∧
    isReject .reservedBits (decode ⟨0x20#8, 0#32, 0#32⟩) = true ∧
    isReject .reservedBits (decode ⟨0x40#8, 0#32, 0#32⟩) = true ∧
    isReject .reservedBits (decode ⟨0x80#8, 0#32, 0#32⟩) = true ∧
    isReject .reservedBits (decode ⟨0xFF#8, 0#32, 0#32⟩) = true := by decide

/-- The numbering of spec/opcode_table.json: the 8 bits of CTL are bits 7:0, every bit above them is 0. -/
theorem test_table_words : decodeTableWord 8 0x00 = some (.read 0#32 0#32) ∧ decodeTableWord 8 0x01 = some (.write 0#32 0#32) ∧
    decodeTableWord 8 0x0E = some (.init .other3 0#32 0#32) ∧ decodeTableWord 8 0x13 = some (.setane true 0#32 0#32) ∧
    decodeTableWord 8 0x04 = none := by decide

/-- WRITE 0x00030004, 0xDEADBEEF as 72 bits. -/
theorem test_encode_bits : encodeBits (.write 0x00030004#32 0xDEADBEEF#32) = 0xDEADBEEF0003000401#72 := by decide

/-! ## Operands and modify functions -/

/-- V-D1, V-D3 to V-D5, V-D7. -/
theorem test_split : hi 0x00030004#32 = 3#16 ∧ lo 0x00030004#32 = 4#16 ∧ hi 0xFFFFFFFF#32 = 0xFFFF#16 ∧
    lo 0xFFFFFFFF#32 = 0xFFFF#16 ∧ lo 0x0001FFFC#32 = 0xFFFC#16 ∧ indexWord 0x80000000#32 = 0x00008000#32 ∧
    hi 0x12345678#32 = 0x1234#16 ∧ lo 0x12345678#32 = 0x5678#16 := by decide

/-- V-D4, V-D8 (wrapped) and the index address of P0. -/
theorem test_addresses : p2.addrOf (.data 0xFFFC#16) = 0x10FFC ∧ p2.addrOf .index = 0x11000 ∧
    (p2.withCfg { Config.p0Inputs with base := 0xFFFFF000 }).addrOf (.data 0x2000#16) = 0x1000 ∧
    (p2.withCfg { Config.p0Inputs with base := 0xFFFFF000 }).addrOf .index = 0xF000 := by decide

/-- V-M1, V-M3, V-M5, V-M7, V-M8, V-M11. -/
theorem test_modify_first : SeqStep.s2a.modify Config.p0 false 0xF5#32 = 0xF1#32 ∧
    SeqStep.s2a.modify Config.p0 false 0xFFFFFFFF#32 = 0xFFFFFFF1#32 ∧
    SeqStep.s2b.modify Config.p0 false 0xFF#32 = 0xFD#32 ∧ SeqStep.s2c.modify Config.p0 false 0x200#32 = 0x204#32 ∧
    SeqStep.s3a.modify Config.p0 false 0xF5#32 = 0xF0#32 ∧ SeqStep.s3b.modify Config.p0 false 0x8200#32 = 0x8200#32 := by decide

/-- V-M13, V-M14, V-M16, V-M19, V-M21, V-M22, V-M25, V-M26. -/
theorem test_modify_rest : SeqStep.s3c.modify Config.p0 false 0xFFFFFFFF#32 = 0xFFFFE3FF#32 ∧
    SeqStep.s3d.modify Config.p0 false 0x200#32 = 0x8200#32 ∧ SeqStep.s4.modify Config.p0 false 0xA#32 = 3#32 ∧
    SeqStep.s4.modify Config.p0 false 0xF#32 = 7#32 ∧ SeqStep.s5.modify Config.p0 false 0xFFFFFFFF#32 = 0xFFFFFFFF#32 ∧
    SeqStep.s5.modify Config.p0 true 0x2FF#32 = 0xFF#32 ∧ SeqStep.sane.modify Config.p0 false 0x9140#32 = 0x9140#32 ∧
    SeqStep.sane.modify Config.p0 true 0x1140#32 = 0x140#32 := by decide

/-! ## One block step each -/

/-- V-A1, its data read: 0xCAFEF00D comes back. -/
theorem test_read : nextIs
    (exec (.read 0x30004#32 0#32)
      (mid (at' (start (cells 0x30004 0xCAFEF00D) []) 3) .xrd .rd (cmdRead 0x30004#32 0#32) 0#32))
    (fun t => t.seq.step == .resp && t.rsp == ⟨.ok, 0xCAFEF00D#32⟩ && t.bus == [.read 0x1004 0xCAFEF00D#32]) = true := by decide

/-- V-A2, its data write. -/
theorem test_write : nextIs
    (exec (.write 0x30004#32 0xDEADBEEF#32) (mid (at' p2 3) .xwr .wd (cmdWrite 0x30004#32 0xDEADBEEF#32) 0xDEADBEEF#32))
    (fun t => t.rsp == ⟨.ok, 0#32⟩ && t.bus == [.write 0x1004 0xDEADBEEF#32] && t.regValue 0x30004#32 == 0xDEADBEEF#32 &&
      t.regValue 0x10000#32 == 0x1140#32) = true := by decide

/-- Vector V-S2: S1 reads 0x9140. -/
theorem test_init_reset_in_progress : nextIs
    (exec (.init .sgmii 0#32 0#32) (mid (at' p4 1) .s1 .rd (cmdInit .sgmii 0#32 0#32) 0#32))
    (fun t => t.rsp == ⟨.resetInProgress, 0#32⟩ && t.bus == [.read 0x1000 0x9140#32]) = true := by decide

/-- P3, transaction 24: the third poll read finds F_VR_RST clear and it is cleared in the register. -/
theorem test_init_poll_exit : nextIs
    (exec (.init .usxgmii 0#32 0#32) (mid (polling (at' (start (cells 0x20004 0x8200) []) 2) (.setFor 0)) .s3p .rd
      (cmdInit .usxgmii 0#32 0#32) 0#32))
    (fun t => t.seq == ⟨.s4, .ri⟩ && t.bus == [.read 0x1004 0x200#32] && t.regValue 0x20004#32 == 0x200#32) = true := by decide

/-- 10_state.md R36: after an INIT that ended with PollTimeout at the L-th poll read of N = L, a READ of R_DIG_CTRL sees
F_VR_RST clear and it is cleared in the register. -/
theorem test_read_after_last_set_poll : nextIs
    (exec (.read 0x20004#32 0#32)
      (mid (polling (at' (start (cells 0x20004 0x8200) []) 2) (.setFor 0)) .xrd .rd (cmdRead 0x20004#32 0#32) 0#32))
    (fun t => t.rsp == ⟨.ok, 0x200#32⟩ && t.regValue 0x20004#32 == 0x200#32) = true := by decide

/-- 41_accessor.md R112: a WRITE that sets F_VR_RST reads back as it was written, the draw of an earlier S3D notwithstanding. -/
theorem test_write_ends_self_clearing : nextIs
    (exec (.write 0x20004#32 0x8001#32) (mid (polling (at' p2 2) (.setFor 0)) .xwr .wd (cmdWrite 0x20004#32 0x8001#32) 0x8001#32))
    (fun t => t.window.vr == .none && t.wouldRead .xrd 0x20004#32 == 0x8001#32) = true := by decide

/-- V-S3, its data write, and V-S5. -/
theorem test_setane : nextIs
    (exec (.setane true 0#32 0#32) (mid (at' p2 1) .sane .wd (cmdSetane true 0#32 0#32) 0x1140#32))
    (fun t => t.rsp == ⟨.ok, 0#32⟩ && t.bus == [.write 0x1000 0x1140#32]) = true ∧
    nextIs (exec (.setane false 0#32 0#32) p4) (fun t => t.rsp == ⟨.ok, 0#32⟩ && t.bus == [] && t.window == p4.window) = true := by
  decide

/-- V-D3: READ 0xFFFFFFFF issues its data read at 0x10FFF, and 93 U2 refuses the run. -/
theorem test_misaligned : refusedIs (exec (.read 0xFFFFFFFF#32 0#32)
    (mid (at' p2 0xFFFF) .xrd .rd (cmdRead 0xFFFFFFFF#32 0#32) 0#32)) (.misaligned (.read 0x10FFF)) = true := by decide

/-- V-A6: with IDX_OFF = 0xFFFC a READ of offset 0xFFFC reaches the index register (93 U3). -/
theorem test_overlap : refusedIs (exec (.read 0xFFFC#32 0#32)
    { mid p2 .xrd .rd (cmdRead 0xFFFC#32 0#32) 0#32 with params := { Config.p0 with idxOff := 0xFFFC } })
    (.overlapsIndex (.read 0x10FFC)) = true := by decide

/-- 20_memory.md R64: the index address is taken modulo 2^AW; where the platform maps it, the index write is made. -/
theorem test_index_wraps : nextIs (exec (.read 0x1000#32 0#32)
    ((mid p2 .xrd .ri (cmdRead 0x1000#32 0#32) 0#32).withCfg
      { Config.p0Inputs with base := 0xFFFFF000, mapping := [⟨0xFFFFF000, 0x1000⟩, ⟨0xF000, 4⟩] }))
    (fun t => t.bus == [.write 0xF000 0#32] && t.window.idx == 0#32) = true := by decide

/-- 41_accessor.md R107: a bus error on INIT's first read; the word the bus returned decides. -/
theorem test_bus_error : nextIs
    (step ((mid (at' p2 1) .s1 .rd (cmdInit .usxgmii 0#32 0#32) 0#32).withEvents [.busError 0x7FFF#32 false]))
    (fun t => t.seq == ⟨.s3a, .ri⟩ && t.acc == 0x7FFF#32 && t.bus == [.read 0x1000 0x7FFF#32] && t.window == (at' p2 1).window) =
    true := by decide

/-- V-D8: the address wraps (93 U1). -/
theorem test_outside : refusedIs (exec (.read 0x2000#32 0#32)
    ((mid p2 .xrd .rd (cmdRead 0x2000#32 0#32) 0#32).withCfg { Config.p0Inputs with base := 0xFFFFF000 }))
    (.outsideMapping (.read 0x1000)) = true := by decide

/-- The byte order moves a register's bytes and no word (20_memory.md R63). -/
theorem test_byte_order : (Memory.storeWord [] .big 8#32 0x11223344#32) = [(8, 0x11#8), (9, 0x22#8), (10, 0x33#8), (11, 0x44#8)] ∧
    (Memory.storeWord [] .little 8#32 0x11223344#32) = [(8, 0x44#8), (9, 0x33#8), (10, 0x22#8), (11, 0x11#8)] ∧
    (Memory.storeWord [] .big 8#32 0x11223344#32).loadWord .big 8#32 = 0x11223344#32 := by decide

/-! ## The assembler (30_encoding.md R90, R91) -/

theorem test_assemble : assemble "READ 0x00030004".toList = some (.command (.read 0x30004#32 0#32)) ∧
    assemble "write 16, 0xdeadBEEF".toList = some (.command (.write 16#32 0xDEADBEEF#32)) ∧
    assemble "INIT MODE=11".toList = some (.command (.init .other3 0#32 0#32)) ∧
    assemble "SETANE 2".toList = none := by decide

/-- V-A7. -/
theorem test_modify_command : assemble "MODIFY 0x00010008, 0x8, 0x1".toList = some (.modify 0x10008#32 8#32 1#32) ∧
    modifyWrite 0x10008#32 8#32 1#32 0xA#32 = .write 0x10008#32 3#32 := by decide

theorem test_response_written : (⟨.ok, 0xCAFEF00D#32⟩ : Rsp).written true = "-> OK, 0xCAFEF00D".toList := by decide

/-! ## Witnesses: for every statement with hypotheses, a concrete state and operands that meet all of them together -/

/-- P2's start with this record on the command port. -/
def offered (s : State) (r : Record) : State := s.withPort (some r)

theorem witness_IllegalControlBytesAreAnsweredSo : let s := offered p2 ⟨0x04#8, 0#32, 0#32⟩
    s.wellSet = true ∧ s.events = [] ∧ s.seq.step = .idle ∧ s.port = some ⟨0x04#8, 0#32, 0#32⟩ ∧
    isReject .modeWithoutInit (decode ⟨0x04#8, 0#32, 0#32⟩) = true := by decide

theorem witness_StepRunsTheDecodedCommand_idle : let s := offered p2 ⟨0x01#8, 4#32, 9#32⟩
    s.wellSet = true ∧ s.events = [] ∧ s.seq.step = .idle ∧ s.port = some ⟨0x01#8, 4#32, 9#32⟩ ∧
    isOkWith (fun i => i == .write 4#32 9#32) (decode ⟨0x01#8, 4#32, 9#32⟩) = true := by decide

theorem witness_StepRunsTheDecodedCommand_busy : let s := mid p2 .s2b .rd (cmdInit .sgmii 0#32 0#32) 0#32
    s.wellSet = true ∧ s.events = [] ∧ s.seq.step.busy = true ∧ s.seq.step.runsFor s.cmd s.cfg = true ∧
    isOkWith (fun i => i == .init .sgmii 0#32 0#32) (decode ⟨0x02#8, 0#32, 0#32⟩) = true ∧
    s.cmd = Cmd.ofRecord ⟨0x02#8, 0#32, 0#32⟩ := by decide

theorem witness_PlacedWordIsRunNext : State.reset.wellSet = true ∧ decodeTableWord 8 0x06 = some (.init .usxgmii 0#32 0#32) := by
  decide

/-- One record for each clause. -/
theorem witness_AcceptanceLatchesAndDispatches : (∀ c ∈ [0xFF#8, 0x00#8, 0x01#8, 0x0A#8, 0x02#8, 0x13#8, 0x03#8],
    (offered p2 ⟨c, 4#32, 9#32⟩).wellSet = true ∧ (offered p2 ⟨c, 4#32, 9#32⟩).events = [] ∧
    (offered p2 ⟨c, 4#32, 9#32⟩).seq.step = .idle) ∧ p2.cfg.unsupportedModeFails = true := by decide

theorem witness_BlockResetAbandonsTheCommand : ∀ applied : Bool,
    let s := (mid p2 .s1 .ri (cmdInit .sgmii 0#32 0#32) 0#32).withEvents [.reset applied]
    s.wellSet = true ∧ s.events = .reset applied :: [] ∧ s.seq.step.busy = true ∧ nextIs (advance s) (fun _ => true) = true := by
  decide

theorem witness_ResponseWaitsAndIsTaken : let s := mid p2 .resp .ri (cmdRead 0#32 0#32) 0#32
    s.wellSet = true ∧ s.seq.step = .resp ∧ s.events = [] ∧ (s.withEvents [.take]).wellSet = true ∧
    (s.withEvents [.take]).events = .take :: [] := by decide

theorem witness_PresentedCommandWaits :
    let s := offered (mid p2 .xrd .ri (cmdRead 0x10000#32 0#32) 0#32) ⟨0x13#8, 0#32, 0#32⟩
    s.seq.step ≠ .idle ∧ s.port = some ⟨0x13#8, 0#32, 0#32⟩ ∧ nextIs (step s) (fun _ => true) = true := by decide

/-- One state for each status, that of OK three times. -/
theorem witness_EveryErrorHasItsCause : ∀ s ∈ [mid (at' p2 1) .xrd .rd (cmdRead 0x10000#32 0#32) 0#32,
      mid (at' p2 1) .s5 .wd (cmdInit .sgmii 0#32 0#32) 0#32, offered p2 ⟨0x03#8, 0#32, 0#32⟩,
      mid (at' p4 1) .s1 .rd (cmdInit .sgmii 0#32 0#32) 0#32, offered p2 ⟨0x0E#8, 0#32, 0#32⟩,
      mid (polling (at' (p2With false true (some 1)) 2) .never) .s3p .rd (cmdInit .usxgmii 0#32 0#32) 0#32,
      offered p2 ⟨0x80#8, 0#32, 0#32⟩],
    s.seq.step ≠ .resp ∧ nextIs (step s) (fun t => t.seq.step == .resp) = true := by decide

theorem witness_LogicalReadIsIndexWriteThenDataRead : let s := mid p2 .s3p .ri (cmdInit .usxgmii 0#32 0#32) 0#32
    s.seq = ⟨.s3p, .ri⟩ ∧ SeqStep.s3p.uses .ri = true ∧ s.canAccess s.reg = true := by decide

theorem witness_LogicalWriteIsIndexWriteThenDataWrite : let s := mid p2 .xwr .wi (cmdWrite 0x1FFFC#32 5#32) 5#32
    s.seq = ⟨.xwr, .wi⟩ ∧ SeqStep.xwr.uses .wi = true ∧ s.canAccess s.reg = true := by decide

/-- The first and the last aligned register of the window: READ and WRITE reach both. -/
theorem witness_ReadRunsToItsResponse : p2.seq.step = .idle ∧ p2.canAccess 0x00010000#32 = true ∧
    p2.canAccess 0xFFFFFFFC#32 = true ∧ State.reset.canAccess 0x00030004#32 = true := by decide

theorem witness_WriteRunsToItsResponse : State.reset.seq.step = .idle ∧ State.reset.canAccess 0x0000FFFC#32 = true := by decide

theorem witness_WriteThenReadReturnsTheValue :
    let s := p2.withEvents [.present (encode (.write 0x50010#32 1#32)), .take, .present (encode (.read 0x50010#32 0#32)), .take]
    s.wellSet = true ∧ s.seq.step = .idle ∧ s.port = none ∧ s.window.kind = .reference ∧ s.canAccess 0x50010#32 = true := by
  decide

theorem witness_ModifyIsReadThenWrite : p2.seq.step = .idle ∧ p2.canAccess 0x10008#32 = true ∧
    nextIs (execRun (modifyRead 0x10008#32) 3 p2) (fun t =>
      nextIs (execRun (modifyWrite 0x10008#32 8#32 1#32 t.rsp.rdata) 3 t.takeResponse) (fun _ => true)) = true := by decide

theorem witness_ModifyFunctionsSetTheirFields : Config.p0.wf = true ∧ (mask Config.p0.fPcsType).getLsbD 4 = false ∧
    (mask Config.p0.fAnIntrEn).getLsbD 0 = true := by decide

theorem witness_ReadModifyWriteStepRunsFourPhases : let s := mid p2 .sane .ri (cmdSetane true 0#32 0#32) 0#32
    s.seq = ⟨.sane, .ri⟩ ∧ SeqStep.sane.uses .ri = true ∧ SeqStep.sane.uses .wi = true ∧ s.canAccess s.reg = true := by decide

/-- One state for each row, the last phase of each step. -/
theorem witness_NextStepFollowsTheTable : (∀ x ∈ [SeqStep.s2a, .s2b, .s2c, .s3a, .s3b, .s3c, .s3d, .s4, .s5, .sane, .xwr],
      nextIs (advance (mid (at' p2 1) x .wd (cmdInit .sgmii 0#32 0#32) 0#32)) (fun _ => true) = true) ∧
    (∀ x ∈ [SeqStep.s1, .xrd, .s3p], x.uses .wi = false ∧
      nextIs (advance (mid (at' p2 1) x .rd (cmdRead 0x10000#32 0#32) 0#32)) (fun _ => true) = true) := by decide

theorem witness_UnsupportedModeFailsAtAcceptance : p2.seq.step = .idle ∧ p2.cfg.unsupportedModeFails = true ∧
    (p2With false false none).seq.step = .idle ∧ (p2With false false none).cfg.unsupportedModeFails = false := by decide

theorem witness_SoftResetEndsInit : p4.seq.step = .idle ∧ p4.canAccess p4.params.rMiiCtrl = true ∧
    ¬((PcsMode.sgmii = .other ∨ PcsMode.sgmii = .other3) ∧ p4.cfg.unsupportedModeFails = true) ∧
    softResetSet p4.params (p4.wouldRead .s1 p4.params.rMiiCtrl) = true := by decide

theorem witness_InitSgmiiRunsToItsResponse : ∀ t : Bool, let s := p2With t true none
    s.seq.step = .idle ∧ s.canAccessAll = true ∧ softResetSet s.params (s.wouldRead .s1 s.params.rMiiCtrl) = false := by decide

theorem witness_InitOtherFallsThrough : let s := p2With false false none
    s.seq.step = .idle ∧ s.canAccessAll = true ∧ s.cfg.unsupportedModeFails = false ∧
    softResetSet s.params (s.wouldRead .s1 s.params.rMiiCtrl) = false ∧
    softResetSet p4.params (p4.wouldRead .s1 p4.params.rMiiCtrl) = true := by decide

theorem witness_InitUsxgmiiRunsToItsResponse : p3.seq.step = .idle ∧ p3.canAccessAll = true ∧ p3.params.wf = true ∧
    p3.window.kind = .reference ∧ p3.window.vrScript = some 2 :: [] ∧ p3.cfg.pollLimit = none ∧
    softResetSet p3.params (p3.wouldRead .s1 p3.params.rMiiCtrl) = false := by decide

/-- A draw that never clears, and one that clears just too late. -/
theorem witness_BoundedPollTimesOut : ∀ n ∈ [none, some 2],
    let s := (p2With false true (some 2)).withWindow { p2.window with vrScript := [n] }
    s.seq.step = .idle ∧ s.canAccessAll = true ∧ s.params.wf = true ∧ s.window.kind = .reference ∧
    s.window.vrScript = n :: [] ∧ s.cfg.pollLimit = some 2 ∧ 1 ≤ 2 ∧ (∀ k ∈ n, 2 ≤ k) ∧
    softResetSet s.params (s.wouldRead .s1 s.params.rMiiCtrl) = false := by decide

theorem witness_UnboundedPollNeverResponds : ∀ f ∈ [Phase.ri, .rd],
    let s := mid (polling (at' p2 2) .never) .s3p f (cmdInit .usxgmii 0#32 0#32) 0#32
    s.wellSet = true ∧ s.events = [] ∧ s.seq.step = .s3p ∧ s.seq.step.uses s.seq.phase = true ∧
    s.canAccess s.params.rDigCtrl = true ∧ s.window.kind = .reference ∧ s.window.vr = .never ∧ s.selectsRegister ∧
    s.cfg.pollLimit = none := by
  decide

/-- V-N5 to V-N8: one state for each clause of the decision. -/
theorem witness_PollReadDecides : ∀ v ∈ [VrReset.setFor 0, .never], ∀ l ∈ [none, some 1, some 2],
    let s := mid (polling (at' (p2With false true l) 2) v) .s3p .rd (cmdInit .usxgmii 0#32 0#32) 0#32
    s.seq = ⟨.s3p, .rd⟩ ∧ s.accessible (.data (lo s.params.rDigCtrl)) = true := by decide

theorem witness_PollCounterCountsPollReads : ∀ l ∈ [none, some 3],
    let s := (at' (p2With false true l) 2).withPollcnt 1
    nextIs (advance (mid s .s3d .wd (cmdInit .usxgmii 0#32 0#32) 0#32))
      (fun t => t.pollcnt == if l = none then 1 else 0) = true ∧
    nextIs (advance (mid s .s3p .rd (cmdInit .usxgmii 0#32 0#32) 0#32))
      (fun t => t.pollcnt == if l = none then 1 else 2) = true := by decide

/-- Two poll reads of a draw that does not clear. -/
theorem witness_PollCounterCountsPollReads_run :
    let s := mid (polling (p2With false true (some 3)) .never) .s3p .ri (cmdInit .usxgmii 0#32 0#32) 0#32
    s.seq = ⟨.s3p, .ri⟩ ∧ s.cmd = cmdInit .usxgmii 0#32 0#32 ∧ s.pollcnt = 0 ∧ s.cfg.pollLimit ≠ none ∧
    nextIs (execRun (.init .usxgmii 0#32 0#32) 4 s) (fun t => t.seq.step == .s3p && t.pollcnt == 2) = true := by decide

/-- A poll read in each state of the self-clearing, a READ with the draw spent, and a step that reads another register. -/
theorem witness_ReferenceWindowClearsTheResetBit :
    ∀ s ∈ [mid (polling (at' p2 2) (.setFor 1)) .s3p .rd (cmdInit .usxgmii 0#32 0#32) 0#32,
      mid (polling (at' p2 2) .never) .s3p .rd (cmdInit .usxgmii 0#32 0#32) 0#32,
      mid (polling (at' p2 2) (.setFor 0)) .s3p .rd (cmdInit .usxgmii 0#32 0#32) 0#32, mid (at' p2 2) .s3b .rd (cmdInit .usxgmii 0#32 0#32) 0#32,
      mid (polling (at' p2 2) (.setFor 0)) .xrd .rd (cmdRead 0x20004#32 0#32) 0#32,
      mid (at' p2 1) .s1 .rd (cmdInit .sgmii 0#32 0#32) 0#32],
    s.seq = ⟨s.seq.step, .rd⟩ ∧ s.seq.step.uses .rd = true ∧ s.window.kind = .reference ∧ s.selectsRegister ∧
    s.accessible (.data (lo s.reg)) = true ∧ s.params.wf = true := by decide

/-- S3D's write with each kind of draw, WRITE to R_DIG_CTRL and to another register. -/
theorem witness_ReferenceWindowTakesWrites :
    ∀ s ∈ [mid (at' p3 2) .s3d .wd (cmdInit .usxgmii 0#32 0#32) 0x8200#32,
      mid (at' (start [] [none]) 2) .s3d .wd (cmdInit .usxgmii 0#32 0#32) 0x8200#32,
      mid (at' p2 2) .xwr .wd (cmdWrite 0x20004#32 5#32) 5#32, mid (at' p2 1) .xwr .wd (cmdWrite 0x10000#32 5#32) 5#32],
    s.seq = ⟨s.seq.step, .wd⟩ ∧ s.seq.step.uses .wd = true ∧ s.window.kind = .reference ∧ s.selectsRegister ∧
    s.accessible (.data (lo s.reg)) = true := by decide

/-- Program P2, and V-S8. -/
theorem witness_InitSgmiiConfiguresThePcs : ∀ t : Bool, let s := p2With t true none
    s.seq.step = .idle ∧ s.canAccessAll = true ∧ s.params.wf = true ∧ s.window.kind = .reference ∧
    softResetSet s.params (s.wouldRead .s1 s.params.rMiiCtrl) = false ∧
    nextIs (execRun (.init .sgmii 0#32 0#32) (if s.cfg.fixedSpeedTest then 23 else 19) s)
      (fun u => u.rsp == ⟨.ok, 0#32⟩ && u.regValue s.params.rAnCtrl == 5#32) = true := by decide

/-- Program P3 with N = 0 (V-S9 with T = 0). -/
theorem witness_InitUsxgmiiConfiguresThePcs : let s := p3.withWindow { p3.window with vrScript := [some 0] }
    s.seq.step = .idle ∧ s.canAccessAll = true ∧ s.params.wf = true ∧ s.window.kind = .reference ∧
    s.window.vrScript = some 0 :: [] ∧ s.cfg.pollLimit = none ∧
    softResetSet s.params (s.wouldRead .s1 s.params.rMiiCtrl) = false ∧
    nextIs (execRun (.init .usxgmii 0#32 0#32) 29 s) (fun u => u.rsp == ⟨.ok, 0#32⟩ && u.window.vrScript == []) = true := by
  decide

theorem witness_SetaneRunsToItsResponse : p4.seq.step = .idle ∧ p4.canAccess p4.params.rMiiCtrl = true := by decide

theorem witness_SetaneZeroIsANoOpThatResponds : State.reset.seq.step = .idle := rfl

theorem witness_NothingIsKeptBetweenCommands : p2.seq.step = .idle ∧
    nextIs (execRun (.read 0x10008#32 0#32) 3 p2) (fun t => t.seq.step == .resp) = true := by decide

theorem witness_OwnChangeOfTheWindowIsOverwritten :
    ∀ e ∈ [[Event.window 0x10008#32 0xFF#32], [.block, .window 0x10008#32 0xFF#32]],
    let s := (mid p2 .s4 .wi (cmdInit .sgmii 0#32 0#32) 0xA#32).withEvents e
    s.wellSet = true ∧ s.seq = ⟨.s4, .wi⟩ ∧ SeqStep.s4.uses .ri = true ∧ SeqStep.s4.uses .wi = true ∧
    s.window.kind = .reference ∧ s.canAccess s.reg = true ∧ s.reg = 0x10008#32 := by decide

/-- READ accepting, in each of its phases, and waiting behind another command; its data read of R_DIG_CTRL, the draw spent,
is in `test_read_after_last_set_poll`. -/
theorem witness_ReadFrame : ∀ s ∈ [p2, mid p2 .xrd .ri (cmdRead 0x10008#32 0#32) 0#32,
      mid (at' p2 1) .xrd .rd (cmdRead 0x10008#32 0#32) 0#32, mid p2 .s1 .ri (cmdInit .sgmii 0#32 0#32) 0#32],
    nextIs (exec (.read 0x10008#32 0#32) s) (fun _ => true) = true := by decide

theorem witness_WriteFrame : ∀ s ∈ [p2, mid p2 .xwr .wi (cmdWrite 0x10008#32 7#32) 7#32,
      mid (at' p2 1) .xwr .wd (cmdWrite 0x10008#32 7#32) 7#32, mid p2 .resp .ri (cmdRead 0#32 0#32) 0#32],
    nextIs (exec (.write 0x10008#32 7#32) s) (fun _ => true) = true := by decide

theorem witness_SequencerFrame : (∀ s ∈ [p2, mid (at' p2 2) .s3d .wd (cmdInit .usxgmii 0#32 0#32) 7#32,
      mid (at' p2 2) .s3p .rd (cmdInit .usxgmii 0#32 0#32) 7#32],
    nextIs (exec (.init .usxgmii 0#32 0#32) s) (fun _ => true) = true) ∧
    nextIs (exec (.setane true 0#32 0#32) p2) (fun _ => true) = true := by decide

/-- The invariant's hypotheses hold at reset and in the middle of a command. -/
theorem witness_EveryStepKeepsTheInvariant : Inv p2 ∧ nextIs (step p2) (fun _ => true) = true :=
  ⟨⟨by decide, nofun, rfl, nofun, nofun, nofun⟩, by decide⟩

theorem witness_NoStepFaults : let s := mid (at' p2 1) .xwr .wd (cmdWrite 0x10008#32 7#32) 7#32
    Inv s :=
  ⟨by decide, fun _ => rfl, rfl, fun _ => rfl, nofun, nofun⟩

theorem witness_StepMakesAtMostOneTransaction :
    nextIs (step (mid (at' p2 1) .xwr .wd (cmdWrite 0x10008#32 7#32) 7#32)) (fun t => t.bus == [.write 0x1008 7#32]) = true := by
  decide

/-- From an index write, and from the data write after it. -/
theorem witness_EveryStepKeepsTheSelection : ∀ f ∈ [Phase.wi, .wd],
    let s := mid (at' p2 1) .xwr f (cmdWrite 0x10008#32 7#32) 7#32
    s.selectsRegister ∧ nextIs (step s) (fun _ => true) = true ∧ s.events = [] := by decide

theorem witness_IndexHighHalfIsZeroAfterAccess : let s := mid (at' p2 1) .xwr .wd (cmdWrite 0x10008#32 7#32) 7#32
    s.selectsRegister ∧ nextIs (step s) (fun t => t.bus != s.bus) = true ∧ s.events = [] := by decide

/-- A bus error in each phase, landing and not. -/
theorem witness_BusErrorDoesNotChangeTheSequence : ∀ f ∈ [Phase.ri, .rd, .wi, .wd], ∀ b : Bool,
    let s := (mid (at' p2 1) .s4 f (cmdInit .sgmii 0#32 0#32) 0#32).withEvents [.busError 7#32 b]
    s.wellSet = true ∧ s.events = .busError 7#32 b :: [] ∧ s.seq.step.uses s.seq.phase = true ∧ s.canAccess s.reg = true := by
  decide

theorem witness_ResponseIsWrittenOnlyOnCompletion : let s := offered p2 ⟨0x80#8, 0#32, 0#32⟩
    nextIs (step s) (fun t => t.rsp != s.rsp) = true := by decide

/-- A BUSY block, a response that is taken, and an IDLE block that accepts; no reset is next in any of them. -/
theorem witness_OnlyCompletionTakingAndResetMoveTheBlock : ∀ s ∈ [mid p2 .s1 .ri (cmdInit .sgmii 0#32 0#32) 0#32,
      (mid p2 .resp .ri (cmdRead 0#32 0#32) 0#32).withEvents [.take], offered p2 ⟨0x13#8, 0#32, 0#32⟩],
    nextIs (step s) (fun _ => true) = true ∧ ∀ b : Bool, s.events.head? ≠ some (.reset b) := by decide

theorem witness_InputsAreNeverWrittenByTheBlock :
    let c : ConfigIn := { Config.p0Inputs with fixedSpeedTest := true }
    nextIs (step (p2.withEvents [.configure c])) (fun t => t.cfg == c) = true := by decide

theorem witness_HostDutiesAreKept :
    let s := mid p2 .s1 .ri (cmdInit .sgmii 0#32 0#32) 0#32
    let c : ConfigIn := { Config.p0Inputs with fixedSpeedTest := true }
    s.wellSet = true ∧ s.seq.step.busy = true ∧ s.seq.step ≠ .idle ∧ c ≠ s.cfg := by decide

theorem witness_OtherMastersReachTheFreeWindow : ∀ e ∈ [Event.master .index (some 7#32), .master .index none,
      .master (.data 0xFFFC#16) (some 7#32), .master (.data 0#16) none],
    (p2.withEvents [e]).wellSet = true ∧ (p2.withEvents [e]).seq.step.busy = false ∧ p2.accessible .index = true ∧
    p2.accessible (.data 0xFFFC#16) = true ∧ p2.accessible (.data 0#16) = true := by decide

/-- Another master writes and reads R_DIG_CTRL, the draw spent. -/
theorem witness_OtherMastersReachTheFreeWindow_digCtrl :
    ∀ e ∈ [Event.master (.data 4#16) (some 7#32), .master (.data 4#16) none],
    let s := (polling (at' p2 2) (.setFor 0)).withEvents [e]
    s.wellSet = true ∧ s.seq.step.busy = false ∧ s.accessible (.data 4#16) = true ∧ s.window.kind = .reference ∧
    s.window.select 4#16 = s.params.rDigCtrl ∧ s.window.vr = .setFor 0 := by decide

/-- Either window, and a number that is and one that is not a register's. -/
theorem witness_WindowChangesOnlyItsOwnRegisters :
    (p2.withEvents [.window 8#32 5#32]).wellSet = true ∧ (p2.withEvents [.window 9#32 5#32]).wellSet = true ∧
    p2.window.kind = .reference ∧ (State.reset.withEvents [.window 8#32 5#32]).wellSet = true ∧
    State.reset.window.kind = .oracle ∧ BitVec.toNat 8#32 % 4 = 0 ∧ BitVec.toNat 9#32 % 4 ≠ 0 := by decide

/-- Parameters that break 92 D34, and a POLL_LIMIT of 0. -/
theorem witness_IllFormedParametersAreRefused : ({ Config.p0 with fAnEn := ⟨15, 1⟩ } : Params).wf = false ∧
    ({ Config.p0Inputs with pollLimit := some 0 } : ConfigIn).wf Config.p0 = false := by decide

/-- A data address that wraps; a misaligned address inside the mapping; the index register's own address; an offset that is no
multiple of 4 at an aligned address. -/
theorem witness_AccessWithoutMeaningIsRefused :
    (let s := (mid p2 .xrd .rd (cmdRead 0x2000#32 0#32) 0#32).withCfg { Config.p0Inputs with base := 0xFFFFF000 };
      s.seq.step.uses s.seq.phase = true ∧ refusedIs (advance s) (.outsideMapping (.read 0x1000)) = true) ∧
    (let s := mid p2 .xwr .wd (cmdWrite 0x2001#32 0#32) 0#32;
      s.seq.step.uses s.seq.phase = true ∧ s.isMapped (.data (lo s.reg)) = true ∧
      (s.cfg.base + 0x2001) % 2 ^ s.params.aw % 4 ≠ 0) ∧
    (let s : State := { mid p2 .xrd .rd (cmdRead 0xFFFC#32 0#32) 0#32 with params := { Config.p0 with idxOff := 0xFFFC } };
      s.seq.step.uses s.seq.phase = true ∧ s.isMapped (.data (lo s.reg)) = true ∧
      (s.cfg.base + (lo s.reg).toNat) % 2 ^ s.params.aw = (s.cfg.base + s.params.idxOff) % 2 ^ s.params.aw) ∧
    (let s := (mid p2 .xrd .rd (cmdRead 0x2#32 0#32) 0#32).withCfg { Config.p0Inputs with base := 0x1002 };
      s.seq.step.uses s.seq.phase = true ∧ s.isMapped (.data (lo s.reg)) = true ∧ s.window.kind = .reference ∧
      refusedIs (advance s) (.outsideReference (.read 0x1004)) = true) := by decide

end Sys2Proof.Tests
end

section
/-! The block after reset (spec/10_state.md R37): a machine with nothing to do waits, and reset leaves the machine so. -/

namespace Sys2Proof.Machine

/-- P0's parameters and inputs are well formed, so steps from reset have a meaning (92 D34). -/
theorem State.reset_wellSet : State.reset.wellSet = true := by decide

/-- An IDLE block with no command on its port and no event scheduled waits (70_reset_and_hazards.md R244). -/
theorem step_waits {s : State} (hw : s.wellSet = true) (hidle : s.seq.step = .idle) (hport : s.port = none)
    (hevents : s.events = []) : step s = .next s :=
  (step_noEvents hw hevents).trans (blockTurn_idle_none hidle hport)

/-- Settles O7: the register values are those of `State.reset`, and the reset state meets the conditions of `step_waits`. -/
theorem resetLeavesTheBlockIdle : Obligations.ResetLeavesTheBlockIdle := by
  unfold Obligations.ResetLeavesTheBlockIdle
  have hnoResponse : State.reset.seq.step ≠ .resp := by decide
  have hwaits : step State.reset = .next State.reset := step_waits State.reset_wellSet rfl rfl rfl
  exact ⟨rfl, rfl, rfl, rfl, rfl, rfl, hnoResponse, hwaits⟩

end Sys2Proof.Machine
end

section
/-! Illegal control bytes (spec/30_encoding.md R85): the decoder rejects exactly the three causes, eight bytes remain, and an
IDLE block answers an illegal record in one step. -/

namespace Sys2Proof

/-- The three causes that make a control byte illegal (30_encoding.md R85). -/
abbrev Record.IsIllegal (r : Record) : Prop :=
  r.rsv ≠ 0#3 ∨ (r.op ≠ 2#2 ∧ r.mode ≠ 0#2) ∨ (r.op ≠ 3#2 ∧ r.en = true)

/-- A cause that holds is met by the decoder's first three tests, whichever of them names it. -/
theorem decode_of_isIllegal {r : Record} (h : r.IsIllegal) : ∃ e, decode r = .error e := by
  unfold decode
  by_cases hrsv : r.rsv ≠ 0#3
  · exact ⟨.reservedBits, if_pos hrsv⟩
  rw [if_neg hrsv]
  by_cases hmode : r.op ≠ 2#2 ∧ r.mode ≠ 0#2
  · exact ⟨.modeWithoutInit, if_pos hmode⟩
  rw [if_neg hmode]
  have hen : r.op ≠ 3#2 ∧ r.en = true := (h.resolve_left hrsv).resolve_left hmode
  exact ⟨.enWithoutSetane, if_pos hen⟩

/-- Without a cause the decoder goes by OP alone, and each of its four values has a command (30_encoding.md R82). -/
theorem decode_of_not_isIllegal {r : Record} (h : ¬r.IsIllegal) : ∃ i, decode r = .ok i := by
  obtain ⟨hrsv, hmode, hen⟩ : ¬r.rsv ≠ 0#3 ∧ ¬(r.op ≠ 2#2 ∧ r.mode ≠ 0#2) ∧ ¬(r.op ≠ 3#2 ∧ r.en = true) := by
    simpa only [not_or] using h
  rw [decode, if_neg hrsv, if_neg hmode, if_neg hen]
  split_ifs <;> exact ⟨_, rfl⟩

theorem decode_error_iff (r : Record) : (∃ e, decode r = .error e) ↔ r.IsIllegal := by
  refine ⟨fun ⟨e, he⟩ => ?_, decode_of_isIllegal⟩
  by_contra hlegal
  obtain ⟨i, hi⟩ := decode_of_not_isIllegal hlegal
  cases he.symm.trans hi

theorem decode_ok_iff (r : Record) : (∃ i, decode r = .ok i) ↔ ¬r.IsIllegal := by
  refine ⟨fun ⟨i, hi⟩ hillegal => ?_, decode_of_not_isIllegal⟩
  obtain ⟨e, he⟩ := decode_of_isIllegal hillegal
  cases he.symm.trans hi

/-- Legality is a matter of the control byte alone, so the 256 bytes are gone through. -/
theorem Record.not_isIllegal_iff (r : Record) :
    ¬r.IsIllegal ↔ r.ctl ∈ [0x00#8, 0x01#8, 0x02#8, 0x06#8, 0x0A#8, 0x0E#8, 0x03#8, 0x13#8] := by
  unfold Record.IsIllegal Record.rsv Record.op Record.mode Record.en
  generalize r.ctl = c
  revert c
  decide

end Sys2Proof

namespace Sys2Proof.Machine

theorem acceptRecord_of_error {r : Record} {e : Reject} (h : decode r = .error e) (s : State) :
    acceptRecord r s = .next (acceptIllegal r s) := by
  simp only [acceptRecord, h]

/-- An IDLE block with a record on its port and nothing scheduled takes the record off the port and accepts it
(41_accessor.md R100). -/
theorem step_accepts {s : State} {r : Record} (hw : s.wellSet = true) (hevents : s.events = []) (hidle : s.seq.step = .idle)
    (hport : s.port = some r) : step s = acceptRecord r (s.withPort none) :=
  (step_noEvents hw hevents).trans (blockTurn_idle_some hidle hport)

/-- Settles O3: the causes and the eight bytes are facts about `decode`, and the answer is `acceptIllegal`, which latches the
record and raises IllegalCommand. -/
theorem illegalControlBytesAreAnsweredSo : Obligations.IllegalControlBytesAreAnsweredSo := by
  unfold Obligations.IllegalControlBytesAreAnsweredSo
  refine ⟨decode_error_iff, fun r => (decode_ok_iff r).trans r.not_isIllegal_iff, ?_⟩
  intro s r e hw hevents hidle hport hdecode
  calc step s = acceptRecord r (s.withPort none) := step_accepts hw hevents hidle hport
    _ = .next (acceptIllegal r (s.withPort none)) := acceptRecord_of_error hdecode _

end Sys2Proof.Machine
end

section
/-! The Accessor's logical accesses (spec/41_accessor.md R104, R105): the two transactions of a read and of a write, told from
the states they leave. -/

namespace Sys2Proof.Machine

/-- The index write of a read changes of the window IDX only (10_state.md R31). -/
theorem doneRI_window (s : State) : s.doneRI.window = s.window.selecting s.reg := rfl

/-- The index write of a write changes of the window IDX only (10_state.md R31). -/
theorem doneWI_window (s : State) : s.doneWI.window = s.window.selecting s.reg := rfl

/-- A data read leaves IDX as the index write before it set it. -/
theorem afterRead_idx (s : State) : s.afterRead.window.idx = indexWord s.reg := Window.read_idx ..

/-- The data read of a logical read completes, and what follows in the same step, going on to the write or deciding, touches
neither `acc` nor the bus nor the window (42_sequencer.md R130, R131). -/
theorem advance_rd_keeps {s : State} (hu : s.seq.step.uses .ri = true) (ha : s.canAccess s.reg = true) :
    ∃ t, advance s.doneRI = .next t ∧ t.acc = s.afterRead.acc ∧ t.bus = s.afterRead.bus ∧
      t.window = s.afterRead.window := by
  refine ⟨_, advance_rd hu ha, ?_⟩
  split
  case isTrue => exact ⟨rfl, rfl, rfl⟩
  case isFalse => simp only [completeStep_acc, completeStep_bus, completeStep_window, countPoll_acc, countPoll_bus,
    countPoll_window, and_self]

/-- Settles O13: the two transactions leave `doneRI` and then a state that agrees with `afterRead`. -/
theorem logicalReadIsIndexWriteThenDataRead : Obligations.LogicalReadIsIndexWriteThenDataRead := by
  unfold Obligations.LogicalReadIsIndexWriteThenDataRead
  intro s x hseq hu ha
  have hphase : s.seq.phase = .ri := congrArg Seq.phase hseq
  obtain rfl : s.seq.step = x := congrArg Seq.step hseq
  obtain ⟨t, hread, hacc, hbus, hwindow⟩ := advance_rd_keeps hu ha
  have hidx : t.window.idx = indexWord s.reg := hwindow ▸ afterRead_idx s
  exact ⟨s.doneRI, t, advance_ri hphase hu ha, hread, rfl, doneRI_window s, rfl, rfl, hacc, hbus, hidx⟩

/-- Settles O14: the two transactions leave `doneWI` and then the completion of `afterWrite`, which touches neither the bus
nor the window. -/
theorem logicalWriteIsIndexWriteThenDataWrite : Obligations.LogicalWriteIsIndexWriteThenDataWrite := by
  unfold Obligations.LogicalWriteIsIndexWriteThenDataWrite
  intro s x hseq hu ha
  have hphase : s.seq.phase = .wi := congrArg Seq.phase hseq
  obtain rfl : s.seq.step = x := congrArg Seq.step hseq
  have hbus := completeStep_bus s.afterWrite
  have hwindow := completeStep_window s.afterWrite
  exact ⟨s.doneWI, completeStep s.afterWrite, advance_wi hphase hu ha, advance_wd hu ha, rfl, doneWI_window s, rfl, rfl,
    hbus, hwindow⟩

end Sys2Proof.Machine
end

section
/-! Acceptance (spec/41_accessor.md R100): an IDLE block accepts every record on its port, and what each command is dispatched
to is read off `exec_accepts`. -/

namespace Sys2Proof.Machine

theorem acceptRecord_of_ok {r : Record} {i : Instr} (h : decode r = .ok i) (s : State) : acceptRecord r s = exec i s := by
  simp only [acceptRecord, h]

/-- An IDLE block accepts every command: acceptance is neither a fault nor refused (41_accessor.md R100). -/
theorem exec_idle {s : State} (i : Instr) (hidle : s.seq.step = .idle) : ∃ t, exec i s = .next t := by
  cases i
  · exact ⟨_, (exec_read ..).trans (runCommand_idle hidle)⟩
  · exact ⟨_, (exec_write ..).trans (runCommand_idle hidle)⟩
  · exact ⟨_, (exec_init ..).trans (runCommand_idle hidle)⟩
  · exact ⟨_, (exec_setane ..).trans (runCommand_idle hidle)⟩

/-- What acceptance latches, and what it leaves alone (41_accessor.md R100). -/
theorem exec_accepts_frame {i : Instr} {s t : State} (h : exec i s = .next t) (hidle : s.seq.step = .idle) :
    t.cmd = latchOf i ∧ t.port = s.port ∧ t.bus = s.bus ∧ t.window = s.window ∧ t.params = s.params ∧ t.cfg = s.cfg ∧
      t.taken = s.taken ∧ t.pollcnt = s.pollcnt := by
  rw [(exec_accepts h hidle).1]
  exact ⟨rfl, rfl, rfl, rfl, rfl, rfl, rfl, rfl⟩

/-- Settles O6: an illegal record leaves `acceptIllegal`, and a legal one leaves a state of `exec_accepts`, which has one case
for each way a command is dispatched. -/
theorem acceptanceLatchesAndDispatches : Obligations.AcceptanceLatchesAndDispatches := by
  unfold Obligations.AcceptanceLatchesAndDispatches
  intro s q hw hevents hidle hport
  rw [step_accepts hw hevents hidle hport]
  cases hdecode : decode q with
  | error e =>
    refine ⟨_, acceptRecord_of_error hdecode _, rfl, rfl, rfl, rfl, rfl, rfl, rfl, rfl, ?_, nofun, nofun, nofun, nofun⟩
    exact fun _ _ => ⟨rfl, rfl, rfl⟩
  | ok i =>
    obtain ⟨t, hexec⟩ := exec_idle (s := s.withPort none) i hidle
    obtain ⟨hcmd, hport, hbus, hwindow, hparams, hcfg, htaken, hpollcnt⟩ := exec_accepts_frame hexec hidle
    refine ⟨t, (acceptRecord_of_ok hdecode _).trans hexec, hcmd.trans (latchOf_ofRecord hdecode), hport, hbus, hwindow,
      hparams, hcfg, htaken, hpollcnt, nofun, ?_⟩
    rcases (exec_accepts hexec hidle).2 with ⟨r, d, rfl, hread⟩ | ⟨r, d, rfl, hseq, hacc, hrsp⟩ |
      ⟨m, r, d, rfl, hacc, ⟨hseq, hrsp, hfails⟩ | ⟨hseq, hrsp, hgoes⟩⟩ | ⟨r, d, rfl, hseq, hacc, hrsp⟩ |
      ⟨r, d, rfl, hseq, hacc, hrsp⟩
    · refine ⟨?_, nofun, nofun, nofun⟩
      rintro _ _ ⟨⟩
      exact hread
    · refine ⟨nofun, ?_, nofun, nofun⟩
      rintro _ _ ⟨⟩
      exact ⟨hseq, hacc, hrsp⟩
    · refine ⟨nofun, nofun, ?_, nofun⟩
      rintro _ _ _ ⟨⟩
      exact ⟨hacc, (if_pos hfails).mpr ⟨congrArg Seq.step hseq, hrsp⟩⟩
    · refine ⟨nofun, nofun, ?_, nofun⟩
      rintro _ _ _ ⟨⟩
      exact ⟨hacc, (if_neg hgoes).mpr ⟨hseq, hrsp⟩⟩
    · refine ⟨nofun, nofun, nofun, ?_⟩
      rintro _ _ _ ⟨⟩
      exact ⟨hacc, hseq, hrsp⟩
    · refine ⟨nofun, nofun, nofun, ?_⟩
      rintro _ _ _ ⟨⟩
      exact ⟨hacc, congrArg Seq.step hseq, hrsp⟩

end Sys2Proof.Machine
end

section
/-! The modify functions (spec/42_sequencer.md R133): what the field helpers make of a field, and the fields each step names. -/

namespace Sys2Proof

/-- The five conditions of a well-formed parameter set (92 D34). -/
theorem Params.wf_iff {p : Params} : p.wf = true ↔ p.addressesFit = true ∧ p.fieldsInWord = true ∧ p.bitsAreBits = true ∧
    p.fieldsDisjoint = true ∧ p.anModeFits = true := by
  simp only [Params.wf, Bool.and_eq_true, and_assoc]

theorem Field.inWord_iff {f : Field} : f.inWord = true ↔ 1 ≤ f.width ∧ f.lsb + f.width ≤ 32 := by
  simp only [Field.inWord, Bool.and_eq_true, decide_eq_true_eq]

/-- Every field the block names lies in its register (00_scope.md R12). -/
theorem Params.inWord_of_wf {p : Params} (h : p.wf = true) {x : Word × Field} (hx : x ∈ p.namedFields) :
    x.2.inWord = true := by
  obtain ⟨-, hfields, -⟩ := Params.wf_iff.1 h
  exact List.all_eq_true.1 hfields x hx

/-- The fields the spec calls bits (00_scope.md R12), as `Params.bitsAreBits` lists them. -/
abbrev Params.bits (p : Params) : List Field :=
  [p.fSoftRst, p.fAnEn, p.fAnIntrEn, p.fEn2p5g, p.fUsxgEn, p.fVrRst, p.fMacAutoSw]

theorem Params.bits_sublist (p : Params) : p.bits.Sublist (p.namedFields.map Prod.snd) :=
  .cons_cons _ <| .cons_cons _ <| .cons _ <| .cons _ <| .cons _ <| .cons_cons _ <| .cons_cons _ <| .cons_cons _ <|
    .cons_cons _ <| .cons _ <| .cons_cons _ .slnil

/-- A field the spec calls a bit is one bit wide and lies in its register (00_scope.md R12). -/
theorem Params.bit_of_wf {p : Params} (h : p.wf = true) {f : Field} (hf : f ∈ p.bits) :
    f.isBit = true ∧ f.inWord = true := by
  obtain ⟨x, hx, rfl⟩ := List.mem_map.1 (p.bits_sublist.subset hf)
  have hword : x.2.inWord = true := Params.inWord_of_wf h hx
  obtain ⟨-, -, hbits, -⟩ := Params.wf_iff.1 h
  exact ⟨List.all_eq_true.1 hbits x.2 hf, hword⟩

/-- F_TX_CFG and F_AN_INTR_EN, both of R_AN_CTRL, do not overlap (92 D34). -/
theorem Params.txCfg_disjoint_of_wf {p : Params} (h : p.wf = true) : p.fTxCfg.disjoint p.fAnIntrEn = true := by
  obtain ⟨-, -, -, hdisjoint, -⟩ := Params.wf_iff.1 h
  have hpairs := of_decide_eq_true hdisjoint
  simp only [Params.namedFields, List.pairwise_cons] at hpairs
  obtain ⟨-, -, -, -, htx, -⟩ := hpairs
  exact htx (p.rAnCtrl, p.fAnIntrEn) (List.mem_cons_self ..) rfl

/-- The SGMII encoding fits its field (00_scope.md R13). -/
theorem Params.anMode_lt_of_wf {p : Params} (h : p.wf = true) : p.vAnModeSgmii.toNat < 2 ^ p.fAnMode.width := by
  obtain ⟨-, -, -, -, hfits⟩ := Params.wf_iff.1 h
  exact of_decide_eq_true hfits

namespace Machine

/-- Bit i of a field taken out of a word, the field lying in the word. -/
theorem ext_getLsbD_of_inWord {f : Field} (hf : f.inWord = true) (x : Word) (i : Nat) :
    (ext f x).getLsbD i = (decide (i < f.width) && x.getLsbD (f.lsb + i)) := by
  obtain ⟨-, hword⟩ := Field.inWord_iff.1 hf
  rw [ext_getLsbD, mask_getLsbD, Bool.and_comm]
  by_cases hi : i < f.width
  · simp [hi, show f.lsb + i < 32 by omega]
  · simp [hi]

/-- A bit of the field lies under its mask. -/
theorem mask_getLsbD_add {f : Field} (hf : f.inWord = true) {i : Nat} (hi : i < f.width) :
    (mask f).getLsbD (f.lsb + i) = true := by
  obtain ⟨-, hword⟩ := Field.inWord_iff.1 hf
  simp [mask_getLsbD, hi, show f.lsb + i < 32 by omega]

/-- A field that was replaced reads as the value given, where that fits. -/
theorem ext_setf {f : Field} (hf : f.inWord = true) {v : Word} (hv : v.toNat < 2 ^ f.width) (a : Word) :
    ext f (setf f a v) = v := by
  apply BitVec.eq_of_getLsbD_eq
  intro i _
  rw [ext_getLsbD_of_inWord hf]
  by_cases hi : i < f.width
  · simp [hi, setf_getLsbD, mask_getLsbD_add hf hi]
  · have hpow : v.toNat < 2 ^ i := hv.trans_le (Nat.pow_le_pow_right Nat.two_pos (by omega))
    simp [hi, BitVec.getLsbD, Nat.testBit_lt_two_pow hpow]

/-- The value 1 fits every field of a word. -/
theorem one_lt_two_pow_width {f : Field} (hf : f.inWord = true) : (1#32).toNat < 2 ^ f.width := by
  obtain ⟨hone, -⟩ := Field.inWord_iff.1 hf
  exact Nat.one_lt_two_pow (by omega)

/-- A field that was cleared reads as 0. -/
theorem ext_clr (f : Field) (a : Word) : ext f (clr f a) = 0#32 := by
  apply BitVec.eq_of_getLsbD_eq
  intro i _
  simp [ext_getLsbD, clr_getLsbD]

/-- A bit that was set reads as 1. -/
theorem ext_setb {f : Field} (hb : f.isBit = true) (hf : f.inWord = true) (a : Word) : ext f (setb f a) = 1#32 := by
  have hwidth : f.width = 1 := eq_of_beq hb
  apply BitVec.eq_of_getLsbD_eq
  intro i _
  rw [ext_getLsbD_of_inWord hf, setb_getLsbD]
  by_cases hi : i < f.width
  · obtain rfl : i = 0 := by omega
    rw [mask_getLsbD_add hf hi]
    simp [hi]
  · simp [hi, show i ≠ 0 by omega]

/-- Setting a field leaves a field disjoint from it as it was. -/
theorem ext_setb_of_disjoint {f g : Field} (h : f.disjoint g = true) (a : Word) : ext f (setb g a) = ext f a := by
  refine ext_congr fun i hi => ?_
  rw [setb_getLsbD, disjoint_masks h hi, Bool.or_false]

/-- The fields a step's modify function names (42_sequencer.md R133). -/
def SeqStep.fields (p : Params) : SeqStep → List Field
  | .s2a | .s3a => [p.fPcsType]
  | .s2b => [p.fAnMode]
  | .s2c => [p.fEn2p5g]
  | .s3b => [p.fUsxgEn]
  | .s3c => [p.fUsxgMode]
  | .s3d => [p.fVrRst]
  | .s4 => [p.fTxCfg, p.fAnIntrEn]
  | .s5 => [p.fMacAutoSw]
  | .sane => [p.fAnEn]
  | .idle | .xrd | .xwr | .s1 | .s3p | .resp => []

section
variable {f : Field} {i : Nat} (h : (mask f).getLsbD i = false) (a : Word)
include h

theorem clr_getLsbD_outside : (clr f a).getLsbD i = a.getLsbD i := by simp [clr_getLsbD, h]

theorem setb_getLsbD_outside : (setb f a).getLsbD i = a.getLsbD i := by simp [setb_getLsbD, h]

theorem setf_getLsbD_outside (v : Word) : (setf f a v).getLsbD i = a.getLsbD i := by simp [setf_getLsbD, h]

end

/-- A modify function keeps every bit outside the fields it names (42_sequencer.md R133). -/
theorem SeqStep.modify_getLsbD_outside (p : Params) (t : Bool) (x : SeqStep) (a : Word) (i : Nat)
    (h : ∀ f ∈ x.fields p, (mask f).getLsbD i = false) : (x.modify p t a).getLsbD i = a.getLsbD i := by
  cases x <;> simp only [SeqStep.fields, List.forall_mem_cons, List.not_mem_nil, false_implies, implies_true, and_true] at h
  case s2a | s2b => exact setf_getLsbD_outside h a _
  case s3a | s3c => exact clr_getLsbD_outside h a
  case s2c | s3b | s3d => exact setb_getLsbD_outside h a
  case s4 =>
    obtain ⟨htx, hintr⟩ := h
    exact (setb_getLsbD_outside hintr _).trans (clr_getLsbD_outside htx a)
  case s5 =>
    cases t
    · exact (setb_getLsbD_outside h _).trans (clr_getLsbD_outside h a)
    · exact clr_getLsbD_outside h a
  case sane =>
    cases t
    · exact setb_getLsbD_outside h a
    · exact clr_getLsbD_outside h a
  case idle | xrd | xwr | s1 | s3p | resp => rfl

/-- Settles O19: each row is the lemma on its field helper, at a field that well-formed parameters put in its register, and
`modify_getLsbD_outside`; in S4 the set comes after the clear, so it wins everywhere and undoes it nowhere. -/
theorem modifyFunctionsSetTheirFields : Obligations.ModifyFunctionsSetTheirFields := by
  unfold Obligations.ModifyFunctionsSetTheirFields
  refine ⟨fun p c => ⟨rfl, rfl, rfl, rfl, rfl, rfl, rfl, rfl, rfl, rfl⟩, fun p t a i hi => ?_, fun p t a hwf => ?_⟩
  · exact (setb_getLsbD ..).trans (by rw [hi, Bool.or_true])
  have kept (x : SeqStep) := SeqStep.modify_getLsbD_outside p t x a
  have named {x : Word × Field} (hx : x ∈ p.namedFields) : x.2.inWord = true := Params.inWord_of_wf hwf hx
  have isSet {f : Field} (hf : f ∈ p.bits) (b : Word) : ext f (setb f b) = 1#32 :=
    let ⟨hbit, hword⟩ := Params.bit_of_wf hwf hf
    ext_setb hbit hword b
  have hpcs : p.fPcsType.inWord = true := named (x := (p.rPcsType, p.fPcsType)) (by simp [Params.namedFields])
  have hmode : p.fAnMode.inWord = true := named (x := (p.rAnCtrl, p.fAnMode)) (by simp [Params.namedFields])
  have htx : ext p.fTxCfg (SeqStep.s4.modify p t a) = 0#32 :=
    (ext_setb_of_disjoint (Params.txCfg_disjoint_of_wf hwf) _).trans (ext_clr _ a)
  have hauto : ext p.fMacAutoSw (SeqStep.s5.modify p t a) = if t then 0#32 else 1#32 := by
    cases t
    · exact isSet (by simp) _
    · exact ext_clr _ a
  have han : ext p.fAnEn (SeqStep.sane.modify p t a) = if t then 0#32 else 1#32 := by
    cases t
    · exact isSet (by simp) a
    · exact ext_clr _ a
  exact ⟨⟨ext_setf hpcs (one_lt_two_pow_width hpcs) a, kept .s2a⟩,
    ⟨ext_setf hmode (Params.anMode_lt_of_wf hwf) a, kept .s2b⟩, ⟨isSet (by simp) a, kept .s2c⟩,
    ⟨ext_clr _ a, kept .s3a⟩, ⟨isSet (by simp) a, kept .s3b⟩, ⟨ext_clr _ a, kept .s3c⟩, ⟨isSet (by simp) a, kept .s3d⟩,
    ⟨htx, isSet (by simp) _, kept .s4⟩, ⟨hauto, kept .s5⟩, ⟨han, kept .sane⟩⟩

end Machine

end Sys2Proof
end

section
/-! The steps of the sequencer (spec/42_sequencer.md R130, R131): the four phases of a read-modify-write step, S1 with its
decision, and the tail S4, S5 that every completed INIT ends with. -/

namespace Sys2Proof.Machine

/-- Reading a step's register takes away no access (70 R241). -/
theorem afterRead_canAccess (s : State) (q : Seq) (r : Word) : (s.afterRead.withSeq q).canAccess r = s.canAccess r :=
  State.canAccess_congr (s := s) (t := s.afterRead.withSeq q) rfl rfl (Window.read_kind ..) r

/-- Nor does a read-modify-write step. -/
theorem afterRmw_canAccess (s : State) (q : Seq) (r : Word) : (s.afterRmw.withSeq q).canAccess r = s.canAccess r := by
  refine State.canAccess_congr (s := s) (t := s.afterRmw.withSeq q) rfl rfl ?_ r
  exact (Window.write_kind ..).trans (Window.read_kind ..)

/-- Settles O21: the read leaves `doneRI` and then `afterRead` on the way to WI, from which the write leaves `doneWI` and then
the completion of the data write. -/
theorem readModifyWriteStepRunsFourPhases : Obligations.ReadModifyWriteStepRunsFourPhases := by
  unfold Obligations.ReadModifyWriteStepRunsFourPhases
  intro s x hseq hri hwi ha
  have hphase : s.seq.phase = .ri := congrArg Seq.phase hseq
  obtain rfl : s.seq.step = x := congrArg Seq.step hseq
  let s₂ := s.afterRead.withSeq ⟨s.seq.step, .wi⟩
  have ha₂ : s₂.canAccess s₂.reg = true := (afterRead_canAccess s _ _).trans ha
  have hread : advance s.doneRI = .next s₂ := (advance_rd hri ha).trans (by rw [if_pos hwi])
  have hwrite : advance s₂.doneWI = .next (completeStep s₂.doneWI.haveWritten) :=
    doneWI_haveWritten s₂ ▸ advance_wd hwi ha₂
  exact ⟨s.doneRI, s₂, s₂.doneWI, _, advance_ri hphase hri ha, hread, advance_wi rfl hwi ha₂, hwrite, rfl, rfl, rfl,
    rfl, (List.append_assoc s.bus [_] [_]).symm, rfl, rfl, rfl, rfl, completeStep_bus _, completeStep_acc _, rfl⟩

/-! Acceptance of INIT and SETANE by an IDLE block. -/

/-- The latched codes the mode check tests are those of the `other` modes (30_encoding.md R83, 42_sequencer.md R151). -/
theorem cmdInit_mode_other (m : PcsMode) (r d : Word) :
    ((cmdInit m r d).mode = 2#2 ∨ (cmdInit m r d).mode = 3#2) ↔ (m = .other ∨ m = .other3) := by
  cases m <;> simp [cmdInit, PcsMode.code]

/-- The state in which an accepted INIT is about to make its first transaction. -/
def State.startedInit (s : State) (m : PcsMode) (r d : Word) : State :=
  { s with seq := ⟨.s1, .ri⟩, cmd := cmdInit m r d }

theorem exec_init_fails {s : State} {m : PcsMode} (r d : Word) (hidle : s.seq.step = .idle) (hm : m = .other ∨ m = .other3)
    (hfails : s.cfg.unsupportedModeFails = true) :
    exec (.init m r d) s = .next ((s.accept (cmdInit m r d)).raise .unsupportedMode) := by
  rw [exec_init, runCommand_idle hidle, startInit, if_pos ⟨(cmdInit_mode_other m r d).2 hm, hfails⟩]

theorem exec_init_starts {s : State} {m : PcsMode} (r d : Word) (hidle : s.seq.step = .idle)
    (hm : ¬((m = .other ∨ m = .other3) ∧ s.cfg.unsupportedModeFails = true)) :
    exec (.init m r d) s = .next (s.startedInit m r d) := by
  have hgoes : ¬(((s.accept (cmdInit m r d)).cmd.mode = 2#2 ∨ (s.accept (cmdInit m r d)).cmd.mode = 3#2) ∧
      (s.accept (cmdInit m r d)).cfg.unsupportedModeFails = true) :=
    fun ⟨hmode, hfails⟩ => hm ⟨(cmdInit_mode_other m r d).1 hmode, hfails⟩
  rw [exec_init, runCommand_idle hidle, startInit, if_neg hgoes]
  rfl

/-- Settles O23: the two outcomes of the mode check. -/
theorem unsupportedModeFailsAtAcceptance : Obligations.UnsupportedModeFailsAtAcceptance := by
  unfold Obligations.UnsupportedModeFailsAtAcceptance
  exact fun s m r d hidle => ⟨exec_init_fails r d hidle, exec_init_starts r d hidle⟩

/-- Settles O37: with EN = 0 acceptance is the completion. -/
theorem setaneZeroIsANoOpThatResponds : Obligations.SetaneZeroIsANoOpThatResponds := by
  unfold Obligations.SetaneZeroIsANoOpThatResponds
  intro s r d hidle
  calc exec (.setane false r d) s = .next (startSetane (s.accept (cmdSetane false r d))) :=
        (exec_setane ..).trans (runCommand_idle hidle)
    _ = .next ((s.accept (cmdSetane false r d)).finish .ok 0#32) := rfl

/-! S1 and its decision. -/

/-- Outside the poll nothing is counted (42_sequencer.md R161). -/
theorem countPoll_of_ne_s3p {s : State} (h : s.seq.step ≠ .s3p) : countPoll s = s := if_neg fun hpoll => h hpoll.1

/-- S1 ends INIT where F_SOFT_RST reads set (42_sequencer.md R140). -/
theorem afterS1_of_softReset {s : State} (h : softResetSet s.params s.acc = true) : afterS1 s = s.raise .resetInProgress :=
  if_pos h

/-- With an `other` mode S1 goes on to S4 (42_sequencer.md R134, R152). -/
theorem afterS1_of_other {s : State} (h : softResetSet s.params s.acc = false) (hm : s.cmd.mode ≠ 0#2 ∧ s.cmd.mode ≠ 1#2) :
    afterS1 s = s.goto .s4 := by
  rw [afterS1, if_neg (Bool.eq_false_iff.1 h), if_neg hm.1, if_neg hm.2]

/-- S1 makes its two transactions and decides (42_sequencer.md R131). -/
theorem execRun_s1 {s : State} (m : PcsMode) (r d : Word) (ha : s.canAccess s.params.rMiiCtrl = true) :
    execRun (.init m r d) 2 (s.startedInit m r d) = .next (afterS1 (s.startedInit m r d).afterRead) := by
  have hcount : countPoll (s.startedInit m r d).afterRead = (s.startedInit m r d).afterRead := countPoll_of_ne_s3p nofun
  calc execRun (.init m r d) 2 (s.startedInit m r d) = .next (completeStep (countPoll (s.startedInit m r d).afterRead)) :=
        execRun_logicalRead (s := s.startedInit m r d) rfl rfl rfl rfl ha
    _ = .next (afterS1 (s.startedInit m r d).afterRead) := by rw [hcount]; rfl

/-- Settles O24: after the acceptance S1 reads F_SOFT_RST set and raises. -/
theorem softResetEndsInit : Obligations.SoftResetEndsInit := by
  unfold Obligations.SoftResetEndsInit
  intro s m r d hidle ha hm hsoft
  rw [execRun_succ, exec_init_starts r d hidle hm, andThen_next, execRun_s1 m r d ha,
    afterS1_of_softReset (s := (s.startedInit m r d).afterRead) hsoft]
  rfl

/-! S4 and S5. -/

/-- The registers INIT and SETANE access, one by one (70 R241). -/
theorem State.canAccessAll_iff (s : State) : s.canAccessAll = true ↔
    s.canAccess s.params.rMiiCtrl = true ∧ s.canAccess s.params.rPcsType = true ∧ s.canAccess s.params.rAnCtrl = true ∧
      s.canAccess s.params.rDigCtrl = true ∧ s.canAccess s.params.r2p5g = true ∧ s.canAccess s.params.rUsxgMode = true ∧
      s.canAccess s.params.rMiiDigCtrl = true := by
  simp [State.canAccessAll]

/-- The transactions of a step depend on the parameters, the inputs and the step's register alone. -/
theorem rmwTxns_congr {s t : State} (hp : t.params = s.params) (hc : t.cfg = s.cfg) {x : SeqStep}
    (hx : x.register s.params t.cmd = x.register s.params s.cmd) (a : Word) : t.rmwTxns x a = s.rmwTxns x a := by
  simp only [State.rmwTxns, State.indexTxn, State.readTxn, State.writeTxn, State.addrOf_congr hp hc, hp, hc, hx]

/-- The state in which an INIT that went on to S4 from this one has answered OK (42_sequencer.md R148, R149, R153). -/
def State.afterS4S5 (s : State) : State := (((s.goto .s4).afterRmw.goto .s5).afterRmw).finish .ok 0#32

/-- INIT from S4 on makes the eight transactions of S4 and S5 and answers. -/
theorem execRun_s4_s5 {s : State} {m : PcsMode} {r d : Word} (hcmd : s.cmd = cmdInit m r d)
    (h4 : s.canAccess s.params.rAnCtrl = true) (h5 : s.canAccess s.params.rMiiDigCtrl = true) :
    execRun (.init m r d) 8 (s.goto .s4) = .next s.afterS4S5 := by
  let s₅ := (s.goto .s4).afterRmw.goto .s5
  have h5' : s₅.canAccess s.params.rMiiDigCtrl = true := (afterRmw_canAccess (s.goto .s4) _ _).trans h5
  calc execRun (.init m r d) 8 (s.goto .s4) = andThen (execRun (.init m r d) 4 (s.goto .s4)) (execRun (.init m r d) 4) :=
        execRun_add _ 4 4 _
    _ = execRun (.init m r d) 4 s₅ := by
        rw [execRun_rmw (i := .init m r d) (s := s.goto .s4) rfl hcmd rfl rfl rfl h4, andThen_next]
        rfl
    _ = .next s.afterS4S5 := execRun_rmw (s := s₅) rfl hcmd rfl rfl rfl h5'

theorem afterS4S5_bus (s : State) : ∃ e f, s.afterS4S5.bus = s.bus ++ s.rmwTxns .s4 e ++ s.rmwTxns .s5 f :=
  have h5 : ∀ f, ((s.goto .s4).afterRmw.goto .s5).rmwTxns .s5 f = s.rmwTxns .s5 f := rmwTxns_congr rfl rfl rfl
  ⟨_, _, congrArg ((s.goto .s4).afterRmw.bus ++ ·) (h5 _)⟩

/-- A read-modify-write step leaves IDX at its register (10_state.md R31). -/
theorem afterRmw_idx (s : State) : s.afterRmw.window.idx = indexWord s.reg := Window.write_data_idx ..

theorem afterS4S5_idx (s : State) : s.afterS4S5.window.idx = indexWord s.params.rMiiDigCtrl := afterRmw_idx _

/-- Settles O26: S1 decides as in `softResetEndsInit`, or goes on to S4 and S5 directly, no mode step being run. -/
theorem initOtherFallsThrough : Obligations.InitOtherFallsThrough := by
  unfold Obligations.InitOtherFallsThrough
  intro s m r d hidle ha hm hfails
  obtain ⟨hmii, -, han, -, -, -, hdig⟩ := s.canAccessAll_iff.1 ha
  have hstarts : ¬((m = .other ∨ m = .other3) ∧ s.cfg.unsupportedModeFails = true) := by simp [hfails]
  refine ⟨fun hset => ⟨_, softResetEndsInit s m r d hidle hmii hstarts hset, rfl, rfl⟩, fun hclear => ?_⟩
  let s₁ := s.startedInit m r d
  let s₂ := s₁.afterRead
  have hmode : (cmdInit m r d).mode ≠ 0#2 ∧ (cmdInit m r d).mode ≠ 1#2 := by
    rcases hm with rfl | rfl <;> simp [cmdInit, PcsMode.code]
  have hread : execRun (.init m r d) 2 s₁ = .next (s₂.goto .s4) :=
    (execRun_s1 m r d hmii).trans (congrArg _ (afterS1_of_other hclear hmode))
  have htail : execRun (.init m r d) 8 (s₂.goto .s4) = .next s₂.afterS4S5 :=
    execRun_s4_s5 rfl ((afterRead_canAccess s₁ s₂.seq _).trans han) ((afterRead_canAccess s₁ s₂.seq _).trans hdig)
  have hrun : execRun (.init m r d) 10 s₁ = .next s₂.afterS4S5 := by
    rw [show 10 = 2 + 8 from rfl, execRun_add, hread, andThen_next, htail]
  obtain ⟨e, f, hbus⟩ := afterS4S5_bus s₂
  have hs4 : s₂.rmwTxns .s4 e = s.rmwTxns .s4 e := rmwTxns_congr rfl rfl rfl e
  have hs5 : s₂.rmwTxns .s5 f = s.rmwTxns .s5 f := rmwTxns_congr rfl rfl rfl f
  rw [hs4, hs5] at hbus
  exact ⟨s₁, s₂.afterS4S5, e, f, exec_init_starts r d hidle hstarts, hrun, rfl, rfl, afterS4S5_idx s₂, hbus⟩

end Sys2Proof.Machine
end

section
/-! How a response comes about (spec/60_exceptions.md R200): the completions that respond, the transactions they follow, the
acceptances that respond, and that no other step enters RESP. -/

namespace Sys2Proof.Machine

theorem State.seq_eq {s : State} {x : SeqStep} {f : Phase} (hx : s.seq.step = x) (hf : s.seq.phase = f) :
    s.seq = ⟨x, f⟩ := by
  rw [← hx, ← hf]

/-- The steps that only read have no data write (10_state.md R22). -/
theorem uses_wd_ne {x : SeqStep} (h : x.uses .wd = true) : x ≠ .s1 ∧ x ≠ .s3p ∧ x ≠ .xrd := by
  cases x <;> simp_all [SeqStep.uses]

/-- The rows of 42_sequencer.md R134 that end in RESP, each with the state it leaves. -/
theorem completeStep_responds {s : State} (hbusy : s.seq.step.busy = true) (hresp : (completeStep s).seq.step = .resp) :
    (s.seq.step = .s1 ∧ softResetSet s.params s.acc = true ∧ completeStep s = s.raise .resetInProgress) ∨
    (s.seq.step = .s3p ∧ vrResetSet s.params s.acc = true ∧ s.cfg.pollLimit = some s.pollcnt ∧
      completeStep s = s.raise .pollTimeout) ∨
    ((s.seq.step = .xwr ∨ s.seq.step = .s5 ∨ s.seq.step = .sane) ∧ completeStep s = s.finish .ok 0#32) ∨
    (s.seq.step = .xrd ∧ completeStep s = s.finish .ok s.acc) := by
  rcases completeStep_rows s hbusy with ⟨y, n, hgoto, hrow⟩ | ⟨st, d, hfinish, hrow⟩
  · rw [hgoto] at hresp
    obtain rfl : y = .resp := hresp
    simp at hrow
  · rcases hrow with ⟨hstep, hsoft, rfl, rfl⟩ | ⟨hstep, hvr, hlimit, rfl, rfl⟩ | ⟨hstep, rfl, rfl⟩ | ⟨hstep, rfl, rfl⟩
    · exact .inl ⟨hstep, hsoft, hfinish⟩
    · exact .inr (.inl ⟨hstep, hvr, hlimit, hfinish⟩)
    · exact .inr (.inr (.inl ⟨or_rotate.2 hstep, hfinish⟩))
    · exact .inr (.inr (.inr ⟨hstep, hfinish⟩))

/-- With a POLL_LIMIT every poll read is counted (42_sequencer.md R161). -/
theorem countPoll_pollcnt_of_limited {s : State} (hstep : s.seq.step = .s3p) (hlimit : s.cfg.pollLimit ≠ none) :
    (countPoll s).pollcnt = s.pollcnt + 1 :=
  (countPoll_pollcnt s).trans (if_pos ⟨hstep, hlimit⟩)

/-- The transactions that end in a response, however the bus ends them: the data reads of S1, of S3P and of XRD, and the data
write of XWR, S5 and SANE. -/
theorem advance_responds {s t : State} {e : BusEnd} (h : advance s e = .next t) (hresp : t.seq.step = .resp) :
    (s.seq = ⟨.s1, .rd⟩ ∧ softResetSet s.params t.acc = true ∧ t.rsp = ⟨.resetInProgress, 0#32⟩) ∨
    (s.seq = ⟨.s3p, .rd⟩ ∧ vrResetSet s.params t.acc = true ∧ s.cfg.pollLimit = some t.pollcnt ∧
      t.pollcnt = s.pollcnt + 1 ∧ t.rsp = ⟨.pollTimeout, 0#32⟩) ∨
    (s.seq.phase = .wd ∧ (s.seq.step = .xwr ∨ s.seq.step = .s5 ∨ s.seq.step = .sane) ∧ t.rsp = ⟨.ok, 0#32⟩) ∨
    (s.seq = ⟨.xrd, .rd⟩ ∧ t.rsp = ⟨.ok, t.acc⟩) := by
  obtain ⟨huses, -, rfl⟩ := advance_eq_next.1 h
  have hbusy : s.seq.step.busy = true := uses_busy huses
  have hnotResp : s.seq.step ≠ .resp := (busy_ne hbusy).2
  rcases donePhase_cases huses with ⟨-, hdone⟩ | ⟨-, -, hdone⟩ | ⟨hphase, hreads, hdone⟩ | ⟨-, hdone⟩ |
    ⟨hphase, hwrites, hdone⟩ <;> rw [hdone] at hresp ⊢
  · exact absurd hresp hnotResp
  · exact absurd hresp hnotResp
  · have hseq : (countPoll (s.haveRead e)).seq = s.seq := countPoll_seq _
    have hparams : (countPoll (s.haveRead e)).params = s.params := countPoll_params _
    have hcfg : (countPoll (s.haveRead e)).cfg = s.cfg := countPoll_cfg _
    rcases completeStep_responds (hseq ▸ hbusy) hresp with ⟨hstep, hsoft, hend⟩ | ⟨hstep, hvr, hlimit, hend⟩ |
      ⟨hstep, -⟩ | ⟨hstep, hend⟩
    · rw [hend]
      exact .inl ⟨State.seq_eq (hseq ▸ hstep) hphase, hparams ▸ hsoft, rfl⟩
    · rw [hend]
      have hlimited : s.cfg.pollLimit = some (countPoll (s.haveRead e)).pollcnt := hcfg ▸ hlimit
      have hcount : (countPoll (s.haveRead e)).pollcnt = s.pollcnt + 1 :=
        countPoll_pollcnt_of_limited (s := s.haveRead e) (hseq ▸ hstep) (hlimited.trans_ne nofun)
      exact .inr (.inl ⟨State.seq_eq (hseq ▸ hstep) hphase, hparams ▸ hvr, hlimited, hcount, rfl⟩)
    · rw [hseq] at hstep
      rcases hreads with hx | hx | hx <;> simp [hx] at hstep
    · rw [hend]
      exact .inr (.inr (.inr ⟨State.seq_eq (hseq ▸ hstep) hphase, rfl⟩))
  · exact absurd hresp hnotResp
  · obtain ⟨hnotS1, hnotS3p, hnotXrd⟩ := uses_wd_ne hwrites
    rcases completeStep_responds (s := s.haveWritten e) hbusy hresp with ⟨hstep, -⟩ | ⟨hstep, -⟩ | ⟨hstep, hend⟩ |
      ⟨hstep, -⟩
    · exact absurd hstep hnotS1
    · exact absurd hstep hnotS3p
    · rw [hend]
      exact .inr (.inr (.inl ⟨hphase, hstep, rfl⟩))
    · exact absurd hstep hnotXrd

/-- The acceptances that respond: an INIT that fails the mode check, and SETANE 0 (42_sequencer.md R151, R171). -/
theorem exec_accepts_responds {i : Instr} {s t : State} (h : exec i s = .next t) (hidle : s.seq.step = .idle)
    (hresp : t.seq.step = .resp) :
    (∃ m r d, i = .init m r d ∧ (m = .other ∨ m = .other3) ∧ s.cfg.unsupportedModeFails = true ∧
      t.rsp = ⟨.unsupportedMode, 0#32⟩) ∨
    (∃ r d, i = .setane false r d ∧ t.rsp = ⟨.ok, 0#32⟩) := by
  rcases (exec_accepts h hidle).2 with ⟨_, _, -, hseq, -⟩ | ⟨_, _, -, hseq, -⟩ |
    ⟨m, r, d, rfl, -, ⟨-, hrsp, hmode, hfails⟩ | ⟨hseq, -⟩⟩ | ⟨_, _, -, hseq, -⟩ | ⟨r, d, rfl, -, -, hrsp⟩
  · simp [hseq] at hresp
  · simp [hseq] at hresp
  · exact .inl ⟨m, r, d, rfl, hmode, hfails, hrsp⟩
  · simp [hseq] at hresp
  · simp [hseq] at hresp
  · exact .inr ⟨r, d, rfl, hrsp⟩

/-- The moves that enter RESP: a transaction, an acceptance, or the rejection of an illegal command. -/
theorem Moved.responds {s t : State} (h : Moved s t) (hs : s.seq.step ≠ .resp) (ht : t.seq.step = .resp) :
    (∃ ev e, advance (s.withEvents ev) e = .next t) ∨
    (∃ ev q i, s.seq.step = .idle ∧ s.port = some q ∧ decode q = .ok i ∧
      exec i ((s.withEvents ev).withPort none) = .next t) ∨
    (∃ q e, s.seq.step = .idle ∧ s.port = some q ∧ decode q = .error e ∧ t.rsp = ⟨.illegalCommand, 0#32⟩) := by
  cases h with
  | accepted ev q i _ hidle hport hdecode hexec => exact .inr (.inl ⟨ev, q, i, hidle, hport, hdecode, hexec⟩)
  | rejected _ q e hidle hport hdecode => exact .inr (.inr ⟨q, e, hidle, hport, hdecode, rfl⟩)
  | advanced ev _ _ hadvance => exact .inl ⟨ev, .ok, hadvance⟩
  | failed ev u b _ _ _ hadvance => exact .inl ⟨ev, .error u b, hadvance⟩
  | taken | abandoned | abandonedApplied => simp at ht
  | waited | presented | configured | ignored | masterWrote | masterRead | windowChanged => exact absurd ht hs

/-- Settles O11: RESP is entered by a transaction, an acceptance or a rejection, and each way of doing so has one status. -/
theorem everyErrorHasItsCause : Obligations.EveryErrorHasItsCause := by
  unfold Obligations.EveryErrorHasItsCause
  refine ⟨⟨rfl, rfl, rfl, rfl, rfl⟩, fun s t hstep hs ht => ?_⟩
  rcases (step_next hstep).2.responds hs ht with ⟨ev, e, hadvance⟩ | ⟨ev, q, i, hidle, hport, hdecode, hexec⟩ |
    ⟨q, e, hidle, hport, hdecode, hrsp⟩
  · rcases advance_responds hadvance ht with ⟨hseq, hsoft, hrsp⟩ | ⟨hseq, hvr, hlimit, hcount, hrsp⟩ |
      ⟨hphase, hwrites, hrsp⟩ | ⟨hseq, hrsp⟩ <;> rw [hrsp]
    · exact ⟨hseq, hsoft, rfl⟩
    · exact ⟨hseq, hvr, hlimit, hcount, rfl⟩
    · exact .inr (.inl ⟨hphase, hwrites, rfl⟩)
    · exact .inl ⟨hseq, rfl⟩
  · rcases exec_accepts_responds hexec hidle ht with ⟨m, r, d, rfl, hmode, hfails, hrsp⟩ | ⟨r, d, rfl, hrsp⟩ <;> rw [hrsp]
    · exact ⟨hidle, hfails, rfl, q, m, r, d, hport, hdecode, hmode⟩
    · exact .inr (.inr ⟨hidle, rfl, q, r, d, hport, hdecode⟩)
  · rw [hrsp]
    exact ⟨hidle, rfl, q, e, hport, hdecode⟩

end Sys2Proof.Machine
end

section
/-! Encoding (spec/30_encoding.md R80 to R89): a legal record is determined by the latch of the command it decodes to, so
decoding and encoding are inverse to each other, on records and on 72 bits. -/

namespace Sys2Proof

/-- The 72 bits of the record of a word are the word. -/
theorem Record.toBits_ofBits (w : BitVec 72) : (Record.ofBits w).toBits = w := by
  apply BitVec.eq_of_getLsbD_eq
  intro i hi
  simp only [Record.ofBits, Record.toBits, BitVec.getLsbD_append, BitVec.getLsbD_extractLsb']
  split_ifs <;> grind

/-- A control byte with RSV = 000 is made of its other fields (30_encoding.md R81). -/
theorem controlByte_of_fields (c : BitVec 8) (h : c.extractLsb' 5 3 = 0#3) :
    c = controlByte (c.getLsbD 4) (c.extractLsb' 2 2) (c.extractLsb' 0 2) := by
  revert c
  decide

/-- A record the decoder accepts has RSV = 000 (30_encoding.md R85). -/
theorem rsv_of_decode_ok {q : Record} {i : Instr} (h : decode q = .ok i) : q.rsv = 0#3 := by
  by_contra hrsv
  exact (decode_ok_iff q).1 ⟨i, h⟩ (.inl hrsv)

/-- Every command decodes from its record, with every operand. -/
theorem decode_encode (i : Instr) : decode (encode i) = .ok i := by
  cases i <;> simp [decode, encode, Record.rsv, Record.op, Record.mode, Record.en, controlByte_fields]

namespace Machine

/-- A command's record holds the fields that acceptance latches (41_accessor.md R100). -/
theorem encode_eq_latchOf (i : Instr) : encode i =
    ⟨controlByte (latchOf i).en (latchOf i).mode (latchOf i).op, (latchOf i).regnum, (latchOf i).wdata⟩ := by
  cases i <;> rfl

/-- A record that decodes is the record of what it decodes to. -/
theorem encode_of_decode {q : Record} {i : Instr} (h : decode q = .ok i) : encode i = q := by
  have hctl : q.ctl = controlByte q.en q.mode q.op := controlByte_of_fields q.ctl (rsv_of_decode_ok h)
  rw [encode_eq_latchOf, latchOf_ofRecord h]
  simp only [Cmd.ofRecord, ← hctl]

theorem decode_eq_ok_iff (q : Record) (i : Instr) : decode q = .ok i ↔ q = encode i :=
  ⟨fun h => (encode_of_decode h).symm, fun h => h ▸ decode_encode i⟩

/-- Settles O1: a record is the record of what it decodes to, and the 72 bits and the record determine each other. -/
theorem decodeAndEncodeAreInverse : Obligations.DecodeAndEncodeAreInverse := by
  unfold Obligations.DecodeAndEncodeAreInverse
  intro w i
  have hbits : Record.ofBits w = encode i ↔ w = encodeBits i :=
    ⟨fun h => (Record.toBits_ofBits w).symm.trans (congrArg Record.toBits h), fun h => h ▸ Record.ofBits_toBits _⟩
  exact (decode_eq_ok_iff _ i).trans hbits

/-- Settles O2: each byte is the control byte of its command's record. -/
theorem controlBytesDecodeAsTheMapSays : Obligations.ControlBytesDecodeAsTheMapSays := by
  unfold Obligations.ControlBytesDecodeAsTheMapSays
  intro r d
  exact ⟨decode_encode (.read r d), decode_encode (.write r d), decode_encode (.init .sgmii r d),
    decode_encode (.init .usxgmii r d), decode_encode (.init .other r d), decode_encode (.init .other3 r d),
    decode_encode (.setane false r d), decode_encode (.setane true r d)⟩

end Machine

end Sys2Proof
end

section
/-! The decomposer (spec/41_accessor.md R101) and the table of the sequencer's steps (spec/10_state.md R22). -/

namespace Sys2Proof.Machine

/-- `lo` keeps the low half, bit by bit. -/
theorem lo_getLsbD (r : Word) (i : Nat) : (lo r).getLsbD i = (decide (i < 16) && r.getLsbD i) := by
  simp only [BitVec.getLsbD, lo_toNat]
  exact Nat.testBit_mod_two_pow r.toNat 16 i

/-- Two words with their halves in place are joined by an or as by appending. -/
theorem append_eq_shiftLeft_or (a b : Half) : a ++ b = (a.setWidth 32 <<< 16) ||| b.setWidth 32 := by
  apply BitVec.eq_of_getLsbD_eq
  intro i hi
  simp only [BitVec.getLsbD_append, BitVec.getLsbD_or, BitVec.getLsbD_shiftLeft, BitVec.getLsbD_setWidth]
  grind

/-- Settles O12: the halves bit by bit, and `hi_append_lo` for the recomposition. -/
theorem splitOfARegisterNumber : Obligations.SplitOfARegisterNumber := by
  unfold Obligations.SplitOfARegisterNumber
  intro r
  have hhi : (hi r).setWidth 32 = r >>> 16 := by
    apply BitVec.eq_of_toNat_eq
    simp only [BitVec.toNat_setWidth, BitVec.toNat_ushiftRight, hi_toNat, Nat.shiftRight_eq_div_pow]
    omega
  have hlo : (lo r).setWidth 32 = r &&& 0xFFFF#32 := by
    apply BitVec.eq_of_toNat_eq
    have hmask : (r &&& 0xFFFF#32).toNat = r.toNat % 2 ^ 16 := Nat.and_two_pow_sub_one_eq_mod r.toNat 16
    simp only [BitVec.toNat_setWidth, lo_toNat, hmask]
    omega
  have hhalf : hi r = r.extractLsb' 16 16 := BitVec.eq_of_getLsbD_eq fun i _ => by
    simp only [hi_getLsbD, BitVec.getLsbD_extractLsb']
  have lhalf : lo r = r.extractLsb' 0 16 := BitVec.eq_of_getLsbD_eq fun i _ => by
    simp only [lo_getLsbD, BitVec.getLsbD_extractLsb', Nat.zero_add]
  exact ⟨hhalf, lhalf, hhi, hlo, (append_eq_shiftLeft_or ..).symm.trans (hi_append_lo r)⟩

/-- Settles O20: each row is read off the definitions of the codes, the phases and the registers. -/
theorem stepsFollowTheStateTable : Obligations.StepsFollowTheStateTable := by
  unfold Obligations.StepsFollowTheStateTable
  intro p c
  simp only [SeqStep.code, Phase.code, SeqStep.register]
  decide
end Sys2Proof.Machine
end

section
/-! Which meaning a step runs (spec/30_encoding.md R86, R87; spec/41_accessor.md R100): the command on the port of an IDLE
block, and the command in flight of a BUSY one. -/

namespace Sys2Proof.Machine

/-- A BUSY step that belongs to the latch of a command is one of the command's own steps (42_sequencer.md R134). -/
theorem ownsStep_of_runsFor {i : Instr} {x : SeqStep} {g : ConfigIn} (hbusy : x.busy = true)
    (h : x.runsFor (latchOf i) g = true) : ownsStep i x = true := by
  revert hbusy h
  cases i <;> cases x <;>
    simp [SeqStep.busy, SeqStep.runsFor, latchOf, cmdRead, cmdWrite, cmdInit, cmdSetane, ownsStep, SeqStep.ofInit]

/-- Settles O4: an IDLE block accepts the record that decodes to i, and a BUSY one makes the next transaction, which is the
meaning of the command in flight. -/
theorem stepRunsTheDecodedCommand : Obligations.StepRunsTheDecodedCommand := by
  unfold Obligations.StepRunsTheDecodedCommand
  refine ⟨fun s r i hw hevents hidle hport hdecode => ?_, fun s r i hw hevents hbusy hruns hdecode hcmd => ?_⟩
  · exact (step_accepts hw hevents hidle hport).trans (acceptRecord_of_ok hdecode _)
  · have hlatch : s.cmd = latchOf i := hcmd.trans (latchOf_ofRecord hdecode).symm
    calc step s = blockTurn s := step_noEvents hw hevents
      _ = advance s := blockTurn_busy hbusy
      _ = exec i s := (exec_eq_advance (ownsStep_of_runsFor hbusy (hlatch ▸ hruns)) hlatch).symm

/-- Settles O5: the placed word stands on the port of an IDLE block with nothing scheduled. -/
theorem placedWordIsRunNext : Obligations.PlacedWordIsRunNext := by
  unfold Obligations.PlacedWordIsRunNext
  intro s nbits w i hw hdecode
  have hok : decode (tableRecord nbits w) = .ok i := by
    unfold decodeTableWord at hdecode
    cases h : decode (tableRecord nbits w) <;> simp_all [Except.toOption]
  exact stepRunsTheDecodedCommand.1 (s.withFetchWord nbits w) _ i hw rfl rfl rfl hok

end Sys2Proof.Machine
end

section
/-! What a transaction of the block does, however the bus ends it (spec/42_sequencer.md R130, R134): what it leaves alone, where
the sequencer goes, and that it neither faults nor is refused where its target has a meaning. -/

namespace Sys2Proof.Machine

/-- A block that is not IDLE is BUSY or has a response (00_scope.md R19). -/
theorem SeqStep.busy_or_resp {x : SeqStep} (h : x ≠ .idle) : x.busy = true ∨ x = .resp := by
  cases x <;> simp_all [SeqStep.busy]

section
variable {s t : State} {e : BusEnd}

/-- What no transaction changes. -/
theorem advance_frame (h : advance s e = .next t) : t.params = s.params ∧ t.cfg = s.cfg ∧ t.cmd = s.cmd ∧
    t.port = s.port ∧ t.taken = s.taken ∧ t.events = s.events ∧ t.window.kind = s.window.kind := by
  obtain ⟨-, -, rfl⟩ := advance_eq_next.1 h
  exact donePhase_frame s

/-- A transaction is appended to the bus record (20_memory.md R52). -/
theorem advance_bus (h : advance s e = .next t) : ∃ x, t.bus = s.bus ++ [x] := by
  obtain ⟨-, -, rfl⟩ := advance_eq_next.1 h
  exact donePhase_bus s

/-- A transaction that completes is made in a phase its step uses. -/
theorem advance_uses (h : advance s e = .next t) : s.seq.step.uses s.seq.phase = true := (advance_eq_next.1 h).1

/-- After a transaction the block is in the middle of the same step, or the step is completed. -/
theorem advance_cases (h : advance s e = .next t) :
    (t.seq.step = s.seq.step ∧ t.rsp = s.rsp ∧ t.pollcnt = s.pollcnt ∧
      ((s.seq.phase = .ri ∧ t.seq.phase = .rd ∧ t.acc = s.acc) ∨
        (s.seq.phase = .rd ∧ t.seq.phase = .wi ∧ s.seq.step.uses .wi = true) ∨
        (s.seq.phase = .wi ∧ t.seq.phase = .wd ∧ t.acc = s.seq.step.modify s.params s.cfg.fixedSpeedTest s.acc))) ∨
    ((s.seq.phase = .rd ∧ (s.seq.step = .xrd ∨ s.seq.step = .s1 ∨ s.seq.step = .s3p) ∧
        t = completeStep (countPoll (s.haveRead e))) ∨
      (s.seq.phase = .wd ∧ s.seq.step.uses .wd = true ∧ t = completeStep (s.haveWritten e))) := by
  obtain ⟨huses, -, rfl⟩ := advance_eq_next.1 h
  rcases donePhase_cases huses with ⟨hphase, hdone⟩ | ⟨hphase, hwi, hdone⟩ | hread | ⟨hphase, hdone⟩ | hwrite
  · rw [hdone]
    exact .inl ⟨rfl, rfl, rfl, .inl ⟨hphase, rfl, rfl⟩⟩
  · rw [hdone]
    exact .inl ⟨rfl, rfl, rfl, .inr (.inl ⟨hphase, rfl, hwi⟩)⟩
  · exact .inr (.inl hread)
  · rw [hdone]
    exact .inl ⟨rfl, rfl, rfl, .inr (.inr ⟨hphase, rfl, rfl⟩)⟩
  · exact .inr (.inr hwrite)

/-- Completing a BUSY step leaves RSP alone or responds (10_state.md R26). -/
theorem completeStep_rsp (hbusy : s.seq.step.busy = true) :
    (completeStep s).rsp = s.rsp ∨ (completeStep s).seq.step = .resp := by
  rcases completeStep_rows s hbusy with ⟨y, n, hgoto, -⟩ | ⟨st, d, hfinish, -⟩
  · exact .inl (hgoto ▸ rfl)
  · exact .inr (hfinish ▸ rfl)

/-- A transaction leaves RSP alone or ends in a response (10_state.md R26). -/
theorem advance_rsp (h : advance s e = .next t) : t.rsp = s.rsp ∨ t.seq.step = .resp := by
  have hbusy : s.seq.step.busy = true := uses_busy (advance_uses h)
  rcases advance_cases h with ⟨-, hrsp, -⟩ | ⟨-, -, rfl⟩ | ⟨-, -, rfl⟩
  · exact .inl hrsp
  · have hseq : (countPoll (s.haveRead e)).seq = s.seq := countPoll_seq _
    have hrsp : (countPoll (s.haveRead e)).rsp = s.rsp := countPoll_rsp _
    exact hrsp ▸ completeStep_rsp (hseq ▸ hbusy)
  · exact completeStep_rsp (s := s.haveWritten e) hbusy

/-- A transaction that completes its step leaves the block at the start of a step, or with a response. -/
theorem advance_seq (h : advance s e = .next t) : t.seq.step ≠ .idle ∧ (t.seq.step = s.seq.step ∨ t.seq.phase = .ri) := by
  have hbusy : s.seq.step.busy = true := uses_busy (advance_uses h)
  rcases advance_cases h with ⟨hstep, -⟩ | ⟨-, -, rfl⟩ | ⟨-, -, rfl⟩
  · exact ⟨hstep ▸ (busy_ne hbusy).1, .inl hstep⟩
  · have hseq : (countPoll (s.haveRead e)).seq = s.seq := countPoll_seq _
    exact (completeStep_phase (hseq ▸ hbusy)).imp_right .inr
  · exact (completeStep_phase (s := s.haveWritten e) hbusy).imp_right .inr

/-- A transaction leaves the block BUSY or with a response (70_reset_and_hazards.md R242). -/
theorem advance_busy_or_resp (h : advance s e = .next t) : t.seq.step.busy = true ∨ t.seq.step = .resp :=
  SeqStep.busy_or_resp (advance_seq h).1

end

end Sys2Proof.Machine
end

section
/-! The invariant (spec/10_state.md section 2): it holds of every IDLE block with a canonical memory, and acceptance,
transactions and events keep it. -/

namespace Sys2Proof.Machine

/-- Of an IDLE block the invariant asks a canonical memory only. -/
theorem Inv.of_idle {s : State} (hmemory : s.window.reg.wf) (hidle : s.seq.step = .idle) : Inv s where
  memory := hmemory
  phase := by rw [hidle]; nofun
  latch := by rw [hidle]; rfl
  writeValue := by rw [hidle]; nofun
  poll := by rw [hidle]; nofun
  response := by rw [hidle]; nofun

/-- Settles O44: at reset the block is IDLE and nothing has been written. -/
theorem invariantHoldsAtReset : Obligations.InvariantHoldsAtReset := Inv.of_idle Memory.nil_wf rfl

/-- Of a block with a response it asks a canonical memory and a legal RDATA. -/
theorem Inv.of_resp {s : State} (hmemory : s.window.reg.wf) (hresp : s.seq.step = .resp)
    (hrsp : s.rsp.rdata = 0#32 ∨ (s.rsp.status = .ok ∧ s.cmd.op = 0#2)) : Inv s where
  memory := hmemory
  phase := by rw [hresp]; nofun
  latch := by rw [hresp]; rfl
  writeValue := by rw [hresp]; nofun
  poll := by rw [hresp]; nofun
  response := fun _ => hrsp

/-- Of a BUSY block it asks nothing about RSP. -/
theorem Inv.of_busy {s : State} (hmemory : s.window.reg.wf) (hphase : s.seq.step.uses s.seq.phase = true)
    (hlatch : s.seq.step.runsFor s.cmd s.cfg = true) (hwrite : s.seq.step = .xwr → s.acc = s.cmd.wdata)
    (hpoll : s.seq.step = .s3p → ∀ l, s.cfg.pollLimit = some l → s.pollcnt < l) : Inv s where
  memory := hmemory
  phase := fun _ => hphase
  latch := hlatch
  writeValue := hwrite
  poll := hpoll
  response := fun h => absurd h (busy_ne (uses_busy hphase)).2

section
variable {s t : State} (h : Inv s)
include h

/-- The invariant does not speak of the schedule. -/
theorem Inv.withEvents (ev : List Event) : Inv (s.withEvents ev) :=
  ⟨h.memory, h.phase, h.latch, h.writeValue, h.poll, h.response⟩

/-- Nor of the command port. -/
theorem Inv.withPort (q : Option Record) : Inv (s.withPort q) :=
  ⟨h.memory, h.phase, h.latch, h.writeValue, h.poll, h.response⟩

/-- Of the window it speaks of the memory only. -/
theorem Inv.withWindow {w : Window} (hmemory : w.reg.wf) : Inv (s.withWindow w) :=
  ⟨hmemory, h.phase, h.latch, h.writeValue, h.poll, h.response⟩

/-- Acceptance leads into a step of the command it latched. -/
theorem Inv.accepts {i : Instr} (hidle : s.seq.step = .idle) (hexec : exec i s = .next t) : Inv t := by
  obtain ⟨hcmd, -, -, hwindow, -, hcfg, -, -⟩ := exec_accepts_frame hexec hidle
  have hmemory : t.window.reg.wf := hwindow ▸ h.memory
  rcases (exec_accepts hexec hidle).2 with ⟨r, d, rfl, hseq, -⟩ | ⟨r, d, rfl, hseq, hacc, -⟩ |
    ⟨m, r, d, rfl, -, ⟨hseq, hrsp, -⟩ | ⟨hseq, -, hm⟩⟩ | ⟨r, d, rfl, hseq, -⟩ | ⟨r, d, rfl, hseq, -, hrsp⟩
  · refine .of_busy hmemory ?_ ?_ ?_ ?_ <;> simp [hseq, hcmd, SeqStep.uses, SeqStep.runsFor, latchOf, cmdRead]
  · refine .of_busy hmemory ?_ ?_ ?_ ?_ <;> simp [hseq, hcmd, hacc, SeqStep.uses, SeqStep.runsFor, latchOf, cmdWrite]
  · exact .of_resp hmemory (by rw [hseq]) (.inl (by rw [hrsp]))
  · rw [← cmdInit_mode_other m r d] at hm
    have hlatch : SeqStep.s1.runsFor (cmdInit m r d) s.cfg = true := by
      simpa [SeqStep.runsFor, cmdInit, imp_iff_not_or] using hm
    refine .of_busy hmemory ?_ ?_ ?_ ?_ <;> simp [hseq, hcmd, hcfg, SeqStep.uses, latchOf, hlatch]
  · refine .of_busy hmemory ?_ ?_ ?_ ?_ <;> simp [hseq, hcmd, SeqStep.uses, SeqStep.runsFor, latchOf, cmdSetane]
  · exact .of_resp hmemory (by rw [hseq]) (.inl (by rw [hrsp]))

end

/-- The rows of 42_sequencer.md R134 that go on, go on to the first phase of a step of the same command, none of them XWR. -/
theorem completeStep_goes {s : State} (hbusy : s.seq.step.busy = true) (hlatch : s.seq.step.runsFor s.cmd s.cfg = true)
    (hgoes : (completeStep s).seq.step ≠ .resp) : (completeStep s).seq.step.uses .ri = true ∧
      (completeStep s).seq.step.runsFor s.cmd s.cfg = true ∧ (completeStep s).seq.step ≠ .xwr := by
  rcases completeStep_rows s hbusy with ⟨y, n, hgoto, hrow⟩ | ⟨st, d, hfinish, -⟩
  · rw [hgoto, State.goto_seq]
    rcases hrow with ⟨hstep, -, -, ⟨rfl, hm⟩ | ⟨rfl, hm⟩ | ⟨rfl, hm⟩⟩ | ⟨hstep, rfl, -⟩ | ⟨hstep, hfixed, rfl, -⟩ |
      ⟨hstep, -, rfl, -⟩ | ⟨hstep, rfl, -⟩ | ⟨hstep, rfl, -⟩ | ⟨hstep, rfl, -⟩ | ⟨hstep, rfl, -⟩ | ⟨hstep, rfl, -⟩ |
      ⟨hstep, -, rfl, -⟩ | ⟨hstep, -, -, rfl, -⟩ | ⟨hstep, rfl, -⟩ <;>
      rw [hstep] at hlatch <;> simp_all [SeqStep.uses, SeqStep.runsFor]
  · exact absurd (hfinish ▸ rfl) hgoes

/-- A completed step that goes on to the poll has `pollcnt` below POLL_LIMIT: S3D clears it, and S3P goes on only below
(42_sequencer.md R161, R163). -/
theorem completeStep_poll_lt {s : State} {l : Nat} (hbusy : s.seq.step.busy = true) (hlimit : s.cfg.pollLimit = some l)
    (hpos : 0 < l) (hle : s.seq.step = .s3p → s.pollcnt ≤ l) (hpoll : (completeStep s).seq.step = .s3p) :
    (completeStep s).pollcnt < l := by
  rcases completeStep_rows s hbusy with ⟨y, n, hgoto, hrow⟩ | ⟨st, d, hfinish, -⟩
  · rw [hgoto] at hpoll ⊢
    obtain rfl : y = .s3p := hpoll
    have hrow : (s.seq.step = .s3d ∧ n = 0) ∨ (s.seq.step = .s3p ∧ vrResetSet s.params s.acc = true ∧
        ¬l = s.pollcnt ∧ n = s.pollcnt) := by simpa [hlimit] using hrow
    show n < l
    rcases hrow with ⟨-, rfl⟩ | ⟨hstep, -, hne, rfl⟩
    · exact hpos
    · exact lt_of_le_of_ne (hle hstep) (Ne.symm hne)
  · rw [hfinish] at hpoll
    cases hpoll

/-- A response is READ's, or holds 0 (10_state.md R26). -/
theorem completeStep_rdata {s : State} (hbusy : s.seq.step.busy = true) (hlatch : s.seq.step.runsFor s.cmd s.cfg = true)
    (hresp : (completeStep s).seq.step = .resp) :
    (completeStep s).rsp.rdata = 0#32 ∨ ((completeStep s).rsp.status = .ok ∧ s.cmd.op = 0#2) := by
  rcases completeStep_responds hbusy hresp with ⟨-, -, hend⟩ | ⟨-, -, -, hend⟩ | ⟨-, hend⟩ | ⟨hstep, hend⟩ <;> rw [hend]
  · exact .inl rfl
  · exact .inl rfl
  · exact .inl rfl
  · rw [hstep] at hlatch
    exact .inr ⟨rfl, eq_of_beq hlatch⟩

/-- Completing a step keeps the invariant; `pollcnt` counts the read the step made, and may stand at POLL_LIMIT. -/
theorem Inv.completes {s : State} (hbusy : s.seq.step.busy = true) (hmemory : s.window.reg.wf)
    (hlatch : s.seq.step.runsFor s.cmd s.cfg = true) (hlimit : s.cfg.pollLimit ≠ some 0)
    (hpoll : s.seq.step = .s3p → ∀ l, s.cfg.pollLimit = some l → s.pollcnt ≤ l) : Inv (completeStep s) := by
  have hmemory' : (completeStep s).window.reg.wf := (completeStep_window s).symm ▸ hmemory
  by_cases hresp : (completeStep s).seq.step = .resp
  · exact .of_resp hmemory' hresp ((completeStep_cmd s).symm ▸ completeStep_rdata hbusy hlatch hresp)
  · obtain ⟨huses, hruns, hxwr⟩ := completeStep_goes hbusy hlatch hresp
    refine .of_busy hmemory' ?_ ?_ (fun h => absurd h hxwr) fun hs3p l hl => ?_
    · rwa [(completeStep_phase hbusy).2]
    · rwa [completeStep_cmd, completeStep_cfg]
    · rw [completeStep_cfg] at hl
      have hpos : 0 < l := Nat.pos_of_ne_zero fun h0 => hlimit (h0 ▸ hl)
      exact completeStep_poll_lt hbusy hl hpos (fun h => hpoll h l hl) hs3p

/-- A transaction in the middle of a step goes on to a phase the step uses. -/
theorem uses_advance {s t : State} {e : BusEnd} (h : advance s e = .next t) (hstep : t.seq.step = s.seq.step)
    (hphase : (s.seq.phase = .ri ∧ t.seq.phase = .rd) ∨ (t.seq.phase = .wi ∧ s.seq.step.uses .wi = true) ∨
      (s.seq.phase = .wi ∧ t.seq.phase = .wd)) : t.seq.step.uses t.seq.phase = true := by
  have huses := advance_uses h
  rw [hstep]
  rcases hphase with ⟨hf, hf'⟩ | ⟨hf', hwi⟩ | ⟨hf, hf'⟩ <;> rw [hf']
  · rw [hf] at huses; revert huses; cases s.seq.step <;> decide
  · exact hwi
  · rw [hf] at huses; revert huses; cases s.seq.step <;> decide

/-- In the middle of XWR a transaction leaves the value in `acc` (41_accessor.md R105). -/
theorem advance_xwr_acc {s t : State} {e : BusEnd} (h : advance s e = .next t) (hstep : s.seq.step = .xwr) :
    t.acc = s.acc := by
  obtain ⟨huses, -, rfl⟩ := advance_eq_next.1 h
  rw [hstep] at huses
  rw [donePhase_acc, hstep]
  cases hf : s.seq.phase
  case rd => rw [hf] at huses; cases huses
  all_goals rfl

/-- A poll read is counted once (42_sequencer.md R161). -/
theorem countPoll_le (s : State) : (countPoll s).pollcnt ≤ s.pollcnt + 1 := by
  rw [countPoll_pollcnt]
  split <;> omega

/-- A transaction keeps the invariant, however the bus ends it; POLL_LIMIT is not 0 (00_scope.md R14). -/
theorem Inv.advances {s t : State} {e : BusEnd} (h : Inv s) (hlimit : s.cfg.pollLimit ≠ some 0)
    (hadvance : advance s e = .next t) : Inv t := by
  have hbusy : s.seq.step.busy = true := uses_busy (advance_uses hadvance)
  obtain ⟨-, hcfg, hcmd, -⟩ := advance_frame hadvance
  rcases advance_cases hadvance with ⟨hstep, -, hcount, hphase⟩ | ⟨-, -, rfl⟩ | ⟨-, -, rfl⟩
  · have hmemory : t.window.reg.wf := (advance_eq_next.1 hadvance).2.2 ▸ donePhase_wf s h.memory
    refine .of_busy hmemory (uses_advance hadvance hstep (by tauto)) ?_ ?_ ?_ <;> rw [hstep]
    · rw [hcmd, hcfg]
      exact h.latch
    · rw [hcmd]
      exact fun hxwr => (advance_xwr_acc hadvance hxwr).trans (h.writeValue hxwr)
    · rw [hcfg, hcount]
      exact h.poll
  · refine .completes ?_ ?_ ?_ ?_ ?_ <;> simp only [countPoll_seq, countPoll_window, countPoll_cmd, countPoll_cfg]
    · exact hbusy
    · exact Window.answer_wf _ _ _ _ _ h.memory
    · exact h.latch
    · exact hlimit
    · exact fun hs3p l hl => (countPoll_le _).trans (h.poll hs3p l hl)
  · refine .completes hbusy ?_ h.latch hlimit fun hs3p l hl => (h.poll hs3p l hl).le
    exact Window.receive_wf _ _ _ _ _ _ h.memory

/-- Well-formed inputs have no POLL_LIMIT of 0 (00_scope.md R14). -/
theorem State.pollLimit_ne_zero {s : State} (hw : s.wellSet = true) : s.cfg.pollLimit ≠ some 0 := by
  simp only [State.wellSet, ConfigIn.wf, Bool.and_eq_true, decide_eq_true_eq] at hw
  exact hw.2.2

/-- Settles O43: whatever moved the machine, the block is IDLE after it, or the move leaves what the invariant speaks of alone,
or it is an acceptance or a transaction. -/
theorem everyStepKeepsTheInvariant : Obligations.EveryStepKeepsTheInvariant := by
  unfold Obligations.EveryStepKeepsTheInvariant
  intro s t h hstep
  obtain ⟨hw, hmoved⟩ := step_next hstep
  have hlimit : s.cfg.pollLimit ≠ some 0 := State.pollLimit_ne_zero hw
  cases hmoved with
  | waited ev | ignored ev => exact h.withEvents ev
  | presented ev q => exact (h.withEvents ev).withPort (some q)
  | accepted ev q i _ hidle _ _ hexec => exact ((h.withEvents ev).withPort none).accepts hidle hexec
  | rejected => exact .of_resp h.memory rfl (.inl rfl)
  | advanced ev _ _ hadvance | failed ev _ _ _ _ _ hadvance => exact (h.withEvents ev).advances hlimit hadvance
  | taken | abandoned => exact .of_idle h.memory rfl
  | abandonedApplied ev u _ _ hadvance => exact .of_idle ((h.withEvents ev).advances hlimit hadvance).memory rfl
  | configured ev c _ hidle => exact .of_idle h.memory hidle
  | masterWrote ev x v => exact (h.withEvents ev).withWindow (Window.write_wf _ _ _ _ _ h.memory)
  | masterRead ev x => exact (h.withEvents ev).withWindow (Window.read_wf _ _ _ _ h.memory)
  | windowChanged ev n v => exact (h.withEvents ev).withWindow (Memory.storeWord_wf h.memory _ _ _)

end Sys2Proof.Machine
end

section
/-! The whole machine (spec/10_state.md R20, R26, R30; spec/20_memory.md R52; spec/30_encoding.md R86): what each move of
`Moved` leaves alone, and what moves the block. -/

namespace Sys2Proof.Machine

/-- A bus write never faults. -/
theorem busWrite_ne_fault (t : Target) (v : Word) (s : State) (e : BusEnd) (f : Fault) : busWrite t v s e ≠ .fault f := by
  unfold busWrite
  split <;> nofun

/-- A bus read never faults. -/
theorem busRead_ne_fault (t : Target) (s : State) (e : BusEnd) (f : Fault) : busRead t s e ≠ .fault f := by
  unfold busRead
  split <;> nofun

/-- A sequence whose parts do not fault does not fault. -/
theorem andThen_ne_fault {α β : Type} {o : Host.Outcome α Fault Refusal} {g : α → Host.Outcome β Fault Refusal} {f : Fault}
    (ho : o ≠ .fault f) (hg : ∀ a, g a ≠ .fault f) : andThen o g ≠ .fault f := by
  cases o with
  | next a => exact hg a
  | fault r => exact fun h => ho (congrArg _ (Host.Outcome.fault.inj h))
  | refused r => nofun

/-- A transaction in a phase its step uses does not fault (10_state.md R22). -/
theorem advance_ne_fault {s : State} {e : BusEnd} (h : s.seq.step.uses s.seq.phase = true) (f : Fault) :
    advance s e ≠ .fault f := by
  rw [advance, if_pos h]
  cases s.seq.phase
  · exact andThen_ne_fault (busWrite_ne_fault _ _ _ _ _) fun _ => nofun
  · refine andThen_ne_fault (busRead_ne_fault _ _ _ _) fun _ => ?_
    split <;> nofun
  · exact andThen_ne_fault (busWrite_ne_fault _ _ _ _ _) fun _ => nofun
  · exact andThen_ne_fault (busWrite_ne_fault _ _ _ _ _) fun _ => nofun

/-- The block's turn does not fault where a BUSY block is in a phase its step uses. -/
theorem blockTurn_ne_fault {s : State} (h : s.seq.step.busy = true → s.seq.step.uses s.seq.phase = true) (f : Fault) :
    blockTurn s ≠ .fault f := by
  rcases blockTurn_cases s with ⟨-, -, e⟩ | ⟨q, hidle, -, e⟩ | ⟨-, e⟩ | ⟨hbusy, e⟩ <;> rw [e]
  · nofun
  · cases hdecode : decode q with
    | error r => rw [acceptRecord_of_error hdecode]; nofun
    | ok i =>
      obtain ⟨t, hexec⟩ := exec_idle (s := s.withPort none) i hidle
      rw [acceptRecord_of_ok hdecode, hexec]
      nofun
  · nofun
  · exact advance_ne_fault (h hbusy) f

/-- Nor does an event that is ready. -/
theorem happen_ne_fault {s : State} {x : Event} (h : s.seq.step.busy = true → s.seq.step.uses s.seq.phase = true)
    (hready : x.ready s = true) (f : Fault) : happen x s ≠ .fault f := by
  cases x with
  | block => exact blockTurn_ne_fault h f
  | busError u b => exact advance_ne_fault (h hready) f
  | present q => nofun
  | take => nofun
  | reset b =>
    simp only [happen, resetTurn]
    split
    · rename_i hb
      exact andThen_ne_fault (advance_ne_fault (h (Bool.and_eq_true_iff.1 hb).2) f) fun _ => nofun
    · nofun
  | configure c =>
    simp only [happen, configure]
    split_ifs <;> nofun
  | master x w =>
    simp only [happen, otherAccess]
    cases w <;> split_ifs <;> nofun
  | window n v =>
    simp only [happen, windowChange]
    split
    · nofun
    · split_ifs <;> nofun

/-- Settles O45: a step is refused, the block's turn or an event, and the only fault of either is a phase the step does not
use. -/
theorem noStepFaults : Obligations.NoStepFaults := by
  unfold Obligations.NoStepFaults
  intro s f h
  rcases step_cases s with ⟨-, e⟩ | ⟨-, e⟩ | ⟨x, ev, -, -, hready, e⟩ <;> rw [e]
  · nofun
  · exact blockTurn_ne_fault h.phase f
  · exact happen_ne_fault (s := s.withEvents ev) h.phase hready f

/-- Settles O46: only a transaction appends to the bus record, and only a BUSY block makes one. -/
theorem stepMakesAtMostOneTransaction : Obligations.StepMakesAtMostOneTransaction := by
  unfold Obligations.StepMakesAtMostOneTransaction
  intro s t hstep
  cases (step_next hstep).2 with
  | advanced ev _ hbusy hadvance | failed ev _ _ _ _ hbusy hadvance | abandonedApplied ev _ _ hbusy hadvance =>
    obtain ⟨x, hbus⟩ := advance_bus hadvance
    exact .inr ⟨hbusy, x, hbus⟩
  | accepted ev q i _ hidle _ _ hexec =>
    obtain ⟨-, -, hbus, -⟩ := exec_accepts_frame hexec hidle
    exact .inl hbus
  | waited | rejected | presented | taken | abandoned | configured | ignored | masterWrote | masterRead
  | windowChanged => exact .inl rfl

/-- Settles O10: the port is emptied by acceptance only, which an IDLE block makes, and filled only when it is free. -/
theorem presentedCommandWaits : Obligations.PresentedCommandWaits := by
  unfold Obligations.PresentedCommandWaits
  intro s t r hidle hport hstep
  cases (step_next hstep).2 with
  | advanced ev _ _ hadvance | failed ev _ _ _ _ _ hadvance | abandonedApplied ev _ _ _ hadvance =>
    obtain ⟨-, -, -, hkept, -⟩ := advance_frame hadvance
    exact hkept.trans hport
  | accepted _ _ _ _ h | rejected _ _ _ h => exact absurd h hidle
  | presented ev q hfree => cases hfree.symm.trans hport
  | waited | taken | abandoned | configured | ignored | masterWrote | masterRead | windowChanged => exact hport

/-- Acceptance leaves RSP alone or responds. -/
theorem exec_accepts_rsp {i : Instr} {s t : State} (h : exec i s = .next t) (hidle : s.seq.step = .idle) :
    t.rsp = s.rsp ∨ t.seq.step = .resp := by
  rcases (exec_accepts h hidle).2 with ⟨_, _, -, -, -, hrsp⟩ | ⟨_, _, -, -, -, hrsp⟩ |
    ⟨_, _, _, -, -, ⟨hseq, -⟩ | ⟨-, hrsp, -⟩⟩ | ⟨_, _, -, -, -, hrsp⟩ | ⟨_, _, -, hseq, -⟩
  · exact .inl hrsp
  · exact .inl hrsp
  · exact .inr (by rw [hseq])
  · exact .inl hrsp
  · exact .inl hrsp
  · exact .inr (by rw [hseq])

/-- Settles O50: RSP is written by a completing transaction, by an acceptance that responds, and by block reset. -/
theorem responseIsWrittenOnlyOnCompletion : Obligations.ResponseIsWrittenOnlyOnCompletion := by
  unfold Obligations.ResponseIsWrittenOnlyOnCompletion
  intro s t hstep hne
  cases (step_next hstep).2 with
  | advanced ev _ hbusy hadvance | failed ev _ _ _ _ hbusy hadvance =>
    exact .inl ⟨(busy_ne hbusy).2, (advance_rsp hadvance).resolve_left hne⟩
  | accepted ev q i _ hidle _ _ hexec =>
    exact .inl ⟨by rw [hidle]; nofun, (exec_accepts_rsp hexec hidle).resolve_left hne⟩
  | rejected ev q e hidle => exact .inl ⟨by rw [hidle]; nofun, rfl⟩
  | abandoned ev b hevents => exact .inr ⟨b, ev, hevents⟩
  | abandonedApplied ev u hevents => exact .inr ⟨true, ev, hevents⟩
  | waited | presented | taken | configured | ignored | masterWrote | masterRead | windowChanged => exact absurd rfl hne

/-- Settles O52: only the event that sets the inputs writes them, and nothing writes the parameters. -/
theorem inputsAreNeverWrittenByTheBlock : Obligations.InputsAreNeverWrittenByTheBlock := by
  unfold Obligations.InputsAreNeverWrittenByTheBlock
  intro s t hstep
  cases (step_next hstep).2 with
  | advanced ev _ _ hadvance | failed ev _ _ _ _ _ hadvance | abandonedApplied ev _ _ _ hadvance =>
    obtain ⟨hparams, hcfg, -⟩ := advance_frame hadvance
    exact ⟨hparams, .inl hcfg⟩
  | accepted ev q i _ hidle _ _ hexec =>
    obtain ⟨-, -, -, -, hparams, hcfg, -⟩ := exec_accepts_frame hexec hidle
    exact ⟨hparams, .inl hcfg⟩
  | configured ev c hevents hidle => exact ⟨rfl, .inr ⟨hidle, ev, hevents⟩⟩
  | waited | rejected | presented | taken | abandoned | ignored | masterWrote | masterRead | windowChanged =>
    exact ⟨rfl, .inl rfl⟩

section
variable {s t : State} (h : Moved s t) (hreset : ∀ b rest, s.events ≠ .reset b :: rest)
include h hreset

/-- Short of a reset a BUSY block makes a transaction, or the move is one outside the block (70_reset_and_hazards.md R242). -/
theorem Moved.of_busy (hbusy : s.seq.step.busy = true) :
    t.cmd = s.cmd ∧ t.taken = s.taken ∧ (t.seq.step.busy = true ∨ t.seq.step = .resp) := by
  obtain ⟨hidle, hresp⟩ := busy_ne hbusy
  cases h with
  | advanced ev _ _ hadvance | failed ev _ _ _ _ _ hadvance =>
    obtain ⟨-, -, hcmd, -, htaken, -⟩ := advance_frame hadvance
    exact ⟨hcmd, htaken, advance_busy_or_resp hadvance⟩
  | accepted _ _ _ _ h | rejected _ _ _ h => exact absurd h hidle
  | taken _ _ h => exact absurd h hresp
  | abandoned ev b hevents => exact absurd hevents (hreset b ev)
  | abandonedApplied ev u hevents => exact absurd hevents (hreset true ev)
  | waited | presented | configured | ignored | masterWrote | masterRead | windowChanged =>
    exact ⟨rfl, rfl, .inl hbusy⟩

/-- Short of a reset a response stays, or the host takes it (60_exceptions.md R211). -/
theorem Moved.of_resp (hresp : s.seq.step = .resp) : t.cmd = s.cmd ∧ t.rsp = s.rsp ∧
    ((t.seq = s.seq ∧ t.taken = s.taken) ∨
      (t.seq = ⟨.idle, .ri⟩ ∧ t.taken = s.taken ++ [s.rsp] ∧ ∃ rest, s.events = .take :: rest)) := by
  have hidle : s.seq.step ≠ .idle := by rw [hresp]; nofun
  have hbusy : s.seq.step.busy ≠ true := by rw [hresp]; nofun
  cases h with
  | taken ev hevents => exact ⟨rfl, rfl, .inr ⟨rfl, rfl, ev, hevents⟩⟩
  | advanced _ _ h | failed _ _ _ _ _ h => exact absurd h hbusy
  | accepted _ _ _ _ h | rejected _ _ _ h => exact absurd h hidle
  | abandoned ev b hevents => exact absurd hevents (hreset b ev)
  | abandonedApplied ev u hevents => exact absurd hevents (hreset true ev)
  | waited | presented | configured | ignored | masterWrote | masterRead | windowChanged =>
    exact ⟨rfl, rfl, .inl ⟨rfl, rfl⟩⟩

/-- Short of a reset an IDLE block stays IDLE, or accepts what is on its port (41_accessor.md R100). -/
theorem Moved.of_idle (hidle : s.seq.step = .idle) : t.taken = s.taken ∧
    ((t.seq = s.seq ∧ t.cmd = s.cmd) ∨
      (t.seq.step ≠ .idle ∧ ∃ q, s.port = some q ∧ t.port = none ∧ t.cmd = Cmd.ofRecord q)) := by
  have hresp : s.seq.step ≠ .resp := by rw [hidle]; nofun
  have hbusy : s.seq.step.busy ≠ true := by rw [hidle]; nofun
  cases h with
  | accepted ev q i _ _ hport hdecode hexec =>
    obtain ⟨hcmd, hfree, -, -, -, -, htaken, -⟩ := exec_accepts_frame hexec hidle
    refine ⟨htaken, .inr ⟨?_, q, hport, hfree, hcmd.trans (latchOf_ofRecord hdecode)⟩⟩
    rcases (exec_accepts hexec hidle).2 with ⟨_, _, -, hseq, -⟩ | ⟨_, _, -, hseq, -⟩ |
      ⟨_, _, _, -, -, ⟨hseq, -⟩ | ⟨hseq, -⟩⟩ | ⟨_, _, -, hseq, -⟩ | ⟨_, _, -, hseq, -⟩ <;> rw [hseq] <;> nofun
  | rejected ev q e _ hport => exact ⟨rfl, .inr ⟨nofun, q, hport, rfl, rfl⟩⟩
  | advanced _ _ h | failed _ _ _ _ _ h => exact absurd h hbusy
  | taken _ _ h => exact absurd h hresp
  | abandoned ev b hevents => exact absurd hevents (hreset b ev)
  | abandonedApplied ev u hevents => exact absurd hevents (hreset true ev)
  | waited | presented | configured | ignored | masterWrote | masterRead | windowChanged =>
    exact ⟨rfl, .inl ⟨rfl, rfl⟩⟩

end

/-- Settles O51: the three lemmas on what moves a BUSY block, a response and an IDLE block. -/
theorem onlyCompletionTakingAndResetMoveTheBlock : Obligations.OnlyCompletionTakingAndResetMoveTheBlock := by
  unfold Obligations.OnlyCompletionTakingAndResetMoveTheBlock
  intro s t hstep hreset
  have hmoved : Moved s t := (step_next hstep).2
  exact ⟨hmoved.of_busy hreset, hmoved.of_resp hreset, hmoved.of_idle hreset⟩

/-! IDX between an index write and its data access (41_accessor.md R106, R113). -/

/-- An index word is a zero-extended half (10_state.md R31). -/
theorem high_of_indexWord {v r : Word} (h : v = indexWord r) : v >>> 16 = 0#32 := by
  have hr := r.isLt
  subst h
  apply BitVec.eq_of_toNat_eq
  simp only [BitVec.toNat_ushiftRight, indexWord_toNat, Nat.shiftRight_eq_div_pow, BitVec.toNat_ofNat]
  omega

/-- After a transaction IDX is the index word of the step's register: an index write sets it, and a data access leaves it. -/
theorem advance_idx {s t : State} (hselects : s.selectsRegister) (h : advance s = .next t) :
    t.window.idx = indexWord s.reg := by
  obtain ⟨huses, -, rfl⟩ := advance_eq_next.1 h
  have hselects := hselects (uses_busy huses)
  rw [donePhase_window]
  cases hf : s.seq.phase
  · rfl
  · exact (Window.answer_idx ..).trans (hselects (.inl hf))
  · rfl
  · exact (Window.receive_data_idx ..).trans (hselects (.inr hf))

/-- A transaction keeps the selection. -/
theorem advance_selectsRegister {s t : State} (hselects : s.selectsRegister) (h : advance s = .next t) :
    t.selectsRegister := by
  intro _ hphase
  obtain ⟨hparams, -, hcmd, -⟩ := advance_frame h
  rcases (advance_seq h).2 with hstep | hri
  · have hreg : t.reg = s.reg := by simp only [State.reg, hstep, hparams, hcmd]
    exact hreg ▸ advance_idx hselects h
  · simp [hri] at hphase

/-- At the start of a step, or of a write, nothing need be selected yet. -/
theorem selectsRegister_of_start {s : State} (h : s.seq.phase = .ri ∨ s.seq.phase = .wi) : s.selectsRegister := by
  intro _ hphase
  rcases h with h | h <;> simp [h] at hphase

/-- Outside the block's commands nothing need be selected. -/
theorem selectsRegister_of_not_busy {s : State} (h : s.seq.step.busy = false) : s.selectsRegister :=
  fun hbusy => absurd hbusy (Bool.eq_false_iff.1 h)

/-- Acceptance leads to the start of a step. -/
theorem exec_accepts_start {i : Instr} {s t : State} (h : exec i s = .next t) (hidle : s.seq.step = .idle) :
    t.seq.phase = .ri ∨ t.seq.phase = .wi := by
  rcases (exec_accepts h hidle).2 with ⟨_, _, -, hseq, -⟩ | ⟨_, _, -, hseq, -⟩ |
    ⟨_, _, _, -, -, ⟨hseq, -⟩ | ⟨hseq, -⟩⟩ | ⟨_, _, -, hseq, -⟩ | ⟨_, _, -, hseq, -⟩ <;> rw [hseq] <;> simp

/-- Settles O47: no bus error being next, a BUSY block's transactions keep the selection, and no other move touches IDX
while the block is BUSY. -/
theorem everyStepKeepsTheSelection : Obligations.EveryStepKeepsTheSelection := by
  unfold Obligations.EveryStepKeepsTheSelection
  intro s t hselects hstep herror
  cases (step_next hstep).2 with
  | advanced ev _ _ hadvance => exact advance_selectsRegister (s := s.withEvents ev) hselects hadvance
  | failed ev u b _ hevents => exact absurd hevents (herror u b ev)
  | accepted ev q i _ hidle _ _ hexec => exact selectsRegister_of_start (exec_accepts_start hexec hidle)
  | rejected | taken | abandoned | abandonedApplied => exact selectsRegister_of_not_busy rfl
  | configured ev c _ hidle => exact selectsRegister_of_not_busy (by rw [State.withCfg_seq, State.withEvents_seq, hidle]; rfl)
  | masterWrote ev x v hbusy | masterRead ev x hbusy => exact selectsRegister_of_not_busy hbusy
  | waited | presented | ignored | windowChanged => exact hselects

/-- Settles O48: the move appended to the bus record, so it made a transaction, after which IDX is an index word. -/
theorem indexHighHalfIsZeroAfterAccess : Obligations.IndexHighHalfIsZeroAfterAccess := by
  unfold Obligations.IndexHighHalfIsZeroAfterAccess
  intro s t hselects hstep herror hbus
  cases (step_next hstep).2 with
  | advanced ev _ _ hadvance | abandonedApplied ev _ _ _ hadvance =>
    have hidx := advance_idx (s := s.withEvents ev) hselects hadvance
    exact high_of_indexWord hidx
  | failed ev u b _ hevents => exact absurd hevents (herror u b ev)
  | accepted ev q i _ hidle _ _ hexec =>
    obtain ⟨-, -, hkept, -⟩ := exec_accepts_frame hexec hidle
    exact absurd hkept hbus
  | waited | rejected | presented | taken | abandoned | configured | ignored | masterWrote | masterRead
  | windowChanged => exact absurd rfl hbus

end Sys2Proof.Machine
end

section
/-! Events and stops, one step each (spec/10_state.md R20, R30; spec/70_reset_and_hazards.md R240, R251, R252; spec/93). -/

namespace Sys2Proof.Machine

/-- Settles O56: every step tests the parameters and the inputs first. -/
theorem illFormedParametersAreRefused : Obligations.IllFormedParametersAreRefused := by
  unfold Obligations.IllFormedParametersAreRefused
  intro s h
  have hill : s.wellSet = false := by simpa [State.wellSet, imp_iff_not_or] using h
  rcases step_cases s with ⟨-, hrefused⟩ | ⟨hwell, -⟩ | ⟨_, _, hwell, -⟩
  · exact hrefused
  · simp [hill] at hwell
  · simp [hill] at hwell

/-- Settles O9: a response waits in the block's turn, and taking it is `takeResponse`. -/
theorem responseWaitsAndIsTaken : Obligations.ResponseWaitsAndIsTaken := by
  unfold Obligations.ResponseWaitsAndIsTaken
  refine fun s hw hresp => ⟨fun hevents => ?_, fun rest hevents => ?_⟩
  · exact (step_noEvents hw hevents).trans (blockTurn_resp hresp)
  · exact step_event hw hevents (by simp [Event.ready, hresp])

/-- Block reset leaves the parameters, the inputs, the window and what is outside the block (10_state.md R37, log 18). -/
theorem State.blockReset_eq (s : State) : s.blockReset =
    ⟨s.params, s.cfg, ⟨.idle, .ri⟩, Cmd.reset, 0#32, 0, Rsp.reset, s.window, s.port, s.bus, s.taken, s.events⟩ := rfl

/-- Block reset with no transaction that takes effect. -/
theorem resetTurn_plain {s : State} {applied : Bool} (h : applied = false ∨ s.seq.step.busy = false) :
    resetTurn applied s = .next s.blockReset := by
  have hnone : (applied && s.seq.step.busy) = false := by rcases h with h | h <;> simp [h]
  simp [resetTurn, hnone]

/-- Block reset after the transaction in flight. -/
theorem resetTurn_applied {s u : State} (hbusy : s.seq.step.busy = true) (h : advance s = .next u) :
    resetTurn true s = .next u.blockReset := by
  simp [resetTurn, hbusy, h]

/-- The schedule has no part in what a transaction does to the window and the bus. -/
theorem donePhase_withEvents (s : State) (ev : List Event) :
    ((s.withEvents ev).donePhase).window = s.donePhase.window ∧ ((s.withEvents ev).donePhase).bus = s.donePhase.bus := by
  rw [donePhase_window, donePhase_window, donePhase_txn, donePhase_txn]
  exact ⟨rfl, rfl⟩

/-- Settles O8: block reset is `blockReset`, after the transaction in flight where it is taken to have been applied. -/
theorem blockResetAbandonsTheCommand : Obligations.BlockResetAbandonsTheCommand := by
  unfold Obligations.BlockResetAbandonsTheCommand
  intro s applied rest hw hevents
  have hstep : step s = resetTurn applied (s.withEvents rest) := step_event hw hevents rfl
  refine ⟨fun hplain => hstep.trans (resetTurn_plain hplain), fun happlied hbusy u hadvance => ?_⟩
  subst happlied
  obtain ⟨huses, ha, rfl⟩ := advance_eq_next.1 hadvance
  obtain ⟨hwindow, hbus⟩ := donePhase_withEvents s rest
  obtain ⟨hparams, hcfg, -, hport, htaken, hev, -⟩ := donePhase_frame (s.withEvents rest) (e := .ok)
  have hturn : resetTurn true (s.withEvents rest) = .next (s.withEvents rest).donePhase.blockReset :=
    resetTurn_applied hbusy (advance_of huses ha)
  rw [hstep, hturn, State.blockReset_eq, hparams, hcfg, hport, htaken, hev, hwindow, hbus]
  rfl

/-- Settles O53: the two events are tested before they happen. -/
theorem hostDutiesAreKept : Obligations.HostDutiesAreKept := by
  unfold Obligations.HostDutiesAreKept
  refine ⟨fun s x w rest hw hbusy hevents => ?_, fun s c rest hw hidle hc hevents => ?_⟩
  · calc step s = otherAccess x w (s.withEvents rest) := step_event hw hevents rfl
      _ = .refused .otherMaster := if_pos hbusy
  · calc step s = configure c (s.withEvents rest) := step_event hw hevents rfl
      _ = .refused .configChanged := by
        simp [configure, hc, hidle]

/-- Another master's write of a target with a meaning reaches the window (70_reset_and_hazards.md R251). -/
theorem step_masterWrite {s : State} {x : Target} {v : Word} {rest : List Event} (hw : s.wellSet = true)
    (hbusy : s.seq.step.busy = false) (hevents : s.events = .master x (some v) :: rest) (ha : s.accessible x = true) :
    step s = .next ((s.withEvents rest).withWindow (s.window.write s.params .idle x v)) := by
  have ha' : (s.withEvents rest).accessible x = true := ha
  rw [step_event hw hevents rfl]
  simp [happen, otherAccess, hbusy, ha']

/-- Its read does too. -/
theorem step_masterRead {s : State} {x : Target} {rest : List Event} (hw : s.wellSet = true)
    (hbusy : s.seq.step.busy = false) (hevents : s.events = .master x none :: rest) (ha : s.accessible x = true) :
    step s = .next ((s.withEvents rest).withWindow (s.window.read s.params .idle x).2) := by
  have ha' : (s.withEvents rest).accessible x = true := ha
  rw [step_event hw hevents rfl]
  simp [happen, otherAccess, hbusy, ha']

/-- A data write of the reference window is read back from REG. -/
theorem Window.loadWord_write (p : Params) (x : SeqStep) (o : Half) (v : Word) (w : Window) (hk : w.kind = .reference) :
    (w.write p x (.data o) v).reg.loadWord p.byteOrder (w.select o) = v := by
  rw [Window.write_data_reg, if_pos hk]
  exact Memory.loadWord_storeWord_same ..

/-- A data write of the chip's window leaves no mark (log 9). -/
theorem Window.write_oracle (p : Params) (x : SeqStep) (o : Half) (v : Word) (w : Window) (hk : w.kind = .oracle) :
    w.write p x (.data o) v = w := by
  simp [Window.write, hk]

/-- Outside S3D a data write of the reference window ends the self-clearing where it reaches R_DIG_CTRL, and leaves it alone
elsewhere (log 10). -/
theorem Window.write_vr_of_ne_s3d (p : Params) {x : SeqStep} (o : Half) (v : Word) (w : Window) (hx : x ≠ .s3d) :
    (w.write p x (.data o) v).vr = if w.kind = .reference ∧ w.select o = p.rDigCtrl then .none else w.vr := by
  split
  · rename_i h
    rw [Window.write_digCtrl p x v w o h.1 h.2 hx]
  · rename_i h
    exact Window.write_data_vr p x v w o h

/-- Only a poll read of R_DIG_CTRL advances the self-clearing. -/
theorem Window.read_vr (p : Params) {x : SeqStep} (o : Half) (w : Window) (h : x ≠ .s3p ∨ w.select o ≠ p.rDigCtrl) :
    (w.read p x (.data o)).2.vr = w.vr := by
  unfold Window.read
  cases w.kind
  · rfl
  · simp only
    split
    · rename_i hn
      have hx : x ≠ .s3p := h.resolve_right (not_not.2 hn)
      unfold Window.readDigCtrl
      split <;> simp [hx]
    · rfl

/-- A read leaves REG alone but where F_VR_RST clears itself in R_DIG_CTRL (10_state.md R36). -/
theorem Window.read_reg_of_not_clearing (p : Params) (x : SeqStep) (o : Half) (w : Window)
    (h : ¬(w.kind = .reference ∧ w.select o = p.rDigCtrl ∧ w.vr = .setFor 0)) : (w.read p x (.data o)).2.reg = w.reg := by
  rcases Window.read_reg_cases p x w o with hkept | ⟨hk, hn, hv, -⟩
  · exact hkept
  · exact absurd ⟨hk, hn, hv⟩ h

/-- With the draw spent a read of R_DIG_CTRL answers its word with F_VR_RST clear, and stores that in REG. -/
theorem Window.read_spent (p : Params) (x : SeqStep) (o : Half) (w : Window) (hk : w.kind = .reference)
    (hn : w.select o = p.rDigCtrl) (hv : w.vr = .setFor 0) : w.read p x (.data o) =
      (clr p.fVrRst (w.reg.loadWord p.byteOrder (w.select o)),
        { w with reg := w.reg.storeWord p.byteOrder (w.select o) (clr p.fVrRst (w.reg.loadWord p.byteOrder (w.select o))) }) := by
  rw [Window.read_digCtrl p x w o hk hn, Window.readDigCtrl_spent p x _ w hv, hn]

/-- Settles O54: the step is the window's own write or read in no step of the block, with the lemmas on these. -/
theorem otherMastersReachTheFreeWindow : Obligations.OtherMastersReachTheFreeWindow := by
  unfold Obligations.OtherMastersReachTheFreeWindow
  intro s rest hw hbusy
  refine ⟨fun v hevents ha => step_masterWrite hw hbusy hevents ha, fun hevents ha => step_masterRead hw hbusy hevents ha,
    fun o v hevents ha => ?_, fun o hevents ha => ?_⟩
  · refine ⟨_, step_masterWrite hw hbusy hevents ha, Window.write_data_idx .., Window.write_kind ..,
      (Window.write_data_draws _ .idle _ _ _ (by decide)).1, Window.write_oracle _ _ _ _ _, fun a => Window.write_byte _ _ _ _ _,
      fun hk => ⟨Window.loadWord_write _ _ _ _ _ hk, ?_⟩⟩
    rw [Window.write_vr_of_ne_s3d _ _ _ _ (by decide)]
    simp only [hk, true_and]
    rfl
  · refine ⟨_, step_masterRead hw hbusy hevents ha, Window.read_idx .., Window.read_kind ..,
      Window.read_vr _ _ _ (.inl (by decide)), Window.read_vrScript .., Window.read_reg_of_not_clearing _ _ _ _,
      fun hk hn hv => ⟨?_, fun a => Window.read_byte _ _ _ _⟩⟩
    rw [Window.read_spent _ _ _ _ hk hn hv]
    exact Memory.loadWord_storeWord_same ..

/-- The state after the reference window's own change of a register (log 22). -/
def State.changed (s : State) (n v : Word) : State :=
  s.withWindow { s.window with reg := s.window.reg.storeWord s.params.byteOrder n v }

/-- The reference window changes a register it has (10_state.md R34, R36). -/
theorem windowChange_reference {s : State} {n : Word} (v : Word) (hk : s.window.kind = .reference) (hn : n.toNat % 4 = 0) :
    windowChange n v s = .next (s.changed n v) := by
  unfold windowChange
  rw [if_pos hn]
  split
  · rename_i horacle
    cases horacle.symm.trans hk
  · rfl

/-- Settles O55: the chip's window shows nothing, the reference window stores the word in a register it has. -/
theorem windowChangesOnlyItsOwnRegisters : Obligations.WindowChangesOnlyItsOwnRegisters := by
  unfold Obligations.WindowChangesOnlyItsOwnRegisters
  intro s n v rest hw hevents
  have hstep : step s = windowChange n v (s.withEvents rest) := step_event hw hevents rfl
  rw [hstep]
  refine ⟨fun hk => ?_, fun hk hn => ⟨_, windowChange_reference (s := s.withEvents rest) v hk hn, ?_, fun a ha => ?_⟩,
    fun hk hn => ?_⟩
  · simp only [windowChange, State.withEvents_window, hk]
    rfl
  · exact Memory.loadWord_storeWord_same ..
  · exact Memory.byte_storeWord_other _ _ _ _ (not_inRegister ha)
  · simp only [windowChange, State.withEvents_window, hk, if_neg hn]

end Sys2Proof.Machine
end

section
/-! Transactions without a meaning and bus errors (spec/20_memory.md R64, R65, R67; spec/41_accessor.md R107; spec/93). -/

namespace Sys2Proof.Machine

/-- The transaction the current phase issues (20_memory.md R51). -/
def State.phaseRequest (s : State) : Request :=
  match s.seq.phase with
  | .rd => .read (s.addrOf s.phaseTarget)
  | .wd => .write (s.addrOf s.phaseTarget) s.acc
  | .ri | .wi => .write (s.addrOf s.phaseTarget) (indexWord s.reg)

/-- A phase whose target has no meaning is refused with the transaction it issued. -/
theorem advance_refused {s : State} {e : BusEnd} (huses : s.seq.step.uses s.seq.phase = true)
    (ha : s.accessible s.phaseTarget = false) :
    advance s e = .refused (s.refusalOf s.phaseTarget s.phaseRequest) := by
  have hwrite (t : Target) (v : Word) (u : State) (h : u.accessible t = false) :
      busWrite t v u e = .refused (u.refusalOf t (.write (u.addrOf t) v)) := by simp [busWrite, h]
  have hread (t : Target) (u : State) (h : u.accessible t = false) :
      busRead t u e = .refused (u.refusalOf t (.read (u.addrOf t))) := by simp [busRead, h]
  rw [advance, if_pos huses]
  unfold State.phaseRequest
  unfold State.phaseTarget at ha ⊢
  cases hf : s.seq.phase <;> simp only [hf] at ha ⊢
  · exact congrArg (andThen · _) (hwrite .index (indexWord s.reg) s ha)
  · exact congrArg (andThen · _) (hread (.data (lo s.reg)) s ha)
  · let modified := s.withAcc (s.seq.step.modify s.params s.cfg.fixedSpeedTest s.acc)
    exact congrArg (andThen · _) (hwrite .index (indexWord s.reg) modified ha)
  · exact congrArg (andThen · _) (hwrite (.data (lo s.reg)) s.acc s ha)

/-- An address of the mapping, in the terms of 20_memory.md R64: the sum of a data address does not wrap. -/
theorem State.isMapped_iff (s : State) (x : Target) : s.isMapped x = true ↔
    (x = .index ∨ s.cfg.base + s.offsetOf x < 2 ^ s.params.aw) ∧
      ∃ g ∈ s.cfg.mapping, g.start ≤ s.addrOf x ∧ s.addrOf x + 4 ≤ g.start + g.size := by
  have hrange : s.staysInRange x = true ↔ x = .index ∨ s.cfg.base + s.offsetOf x < 2 ^ s.params.aw := by
    cases x <;> simp [State.staysInRange, State.offsetOf]
  simp only [State.isMapped, Bool.and_eq_true, hrange, List.any_eq_true, inRegion, decide_eq_true_eq]

theorem State.isAligned_iff (s : State) (x : Target) : s.isAligned x = true ↔ s.addrOf x % 4 = 0 := by
  simp [State.isAligned]

/-- A data access overlaps the index register where neither ends before the other begins (20_memory.md R67). -/
theorem State.missesIndex_iff (s : State) (x : Target) : s.missesIndex x = true ↔
    x = .index ∨ s.addrOf x + 4 ≤ s.addrOf .index ∨ s.addrOf .index + 4 ≤ s.addrOf x := by
  cases x <;> simp [State.missesIndex]

section
variable {s : State} {x : Target} (q : Request)

theorem State.refusalOf_outside (h : ¬s.isMapped x = true) : s.accessible x = false ∧
    s.refusalOf x q = .outsideMapping q := by
  simp [State.accessible, State.refusalOf, h]

theorem State.refusalOf_misaligned (hm : s.isMapped x = true) (h : ¬s.isAligned x = true) : s.accessible x = false ∧
    s.refusalOf x q = .misaligned q := by
  simp [State.accessible, State.refusalOf, hm, h]

theorem State.refusalOf_overlaps (hm : s.isMapped x = true) (ha : s.isAligned x = true) (h : ¬s.missesIndex x = true) :
    s.accessible x = false ∧ s.refusalOf x q = .overlapsIndex q := by
  simp [State.accessible, State.refusalOf, hm, ha, h]

theorem State.refusalOf_outsideReference (hm : s.isMapped x = true) (ha : s.isAligned x = true)
    (hi : s.missesIndex x = true) (h : ¬s.inModel x = true) :
    s.accessible x = false ∧ s.refusalOf x q = .outsideReference q := by
  simp [State.accessible, State.refusalOf, hm, ha, hi, h]

end

/-- Settles O57: the four tests of `refusalOf` in their order, each in the terms of the addresses. -/
theorem accessWithoutMeaningIsRefused : Obligations.AccessWithoutMeaningIsRefused := by
  unfold Obligations.AccessWithoutMeaningIsRefused
  intro s huses x a b mapped q
  have hx : x = s.phaseTarget := by
    unfold x State.phaseTarget
    cases s.seq.phase <;> simp
  have hq : q = s.phaseRequest := by
    unfold q a State.phaseRequest
    rw [hx]
    cases s.seq.phase <;> rfl
  have refuses {r : Refusal} (h : s.accessible x = false ∧ s.refusalOf x q = r) : advance s = .refused r := by
    rw [hx, hq] at h
    rw [advance_refused huses h.1, h.2]
  have hmapped : mapped ↔ s.isMapped x = true := (s.isMapped_iff x).symm
  rw [hmapped]
  have haligned : a % 4 = 0 ↔ s.isAligned x = true := (s.isAligned_iff x).symm
  rw [Ne, haligned]
  refine ⟨fun hm => ?_, fun hm ha => ?_, fun hm ha hx hab hba => ?_, fun hm ha hx hmiss hk ho => ?_⟩
  · exact refuses (State.refusalOf_outside q hm)
  · exact refuses (State.refusalOf_misaligned q hm ha)
  · refine refuses (State.refusalOf_overlaps q hm ha fun hmiss => ?_)
    rcases (s.missesIndex_iff x).1 hmiss with h | h | h
    · exact hx h
    · exact absurd hba (Nat.not_lt.2 h)
    · exact absurd hab (Nat.not_lt.2 h)
  · refine refuses (State.refusalOf_outsideReference q hm ha ((s.missesIndex_iff x).2 (.inr hmiss)) ?_)
    have hdata : x = .data (lo s.reg) := by
      unfold x at hx ⊢
      split at hx
      · exact absurd rfl hx
      · rename_i hphase
        exact if_neg hphase
    rw [hdata]
    simpa [State.inModel, hk] using ho

/-! Bus errors. -/

/-- The decision after a step neither reads the window nor changes it (42_sequencer.md R134). -/
theorem completeStep_withWindow (s : State) (w : Window) :
    completeStep (s.withWindow w) = (completeStep s).withWindow w := by
  cases hx : s.seq.step <;>
    simp only [completeStep, State.withWindow_seq, hx, afterS1, afterPoll, clearPoll, apply_ite (State.withWindow · w),
      apply_ite (State.goto · .s3p)] <;> rfl

/-- A write counts as complete however the bus ends it: but for the window it leaves what it leaves without an error. -/
theorem donePhase_error_write {s : State} (e : BusEnd) (hf : s.seq.phase ≠ .rd) :
    s.donePhase e = s.donePhase.withWindow (s.donePhase e).window := by
  unfold State.donePhase
  cases h : s.seq.phase
  case rd => exact absurd h hf
  case ri | wi => rfl
  case wd =>
    calc completeStep (s.haveWritten e) = completeStep (s.haveWritten.withWindow (s.haveWritten e).window) := rfl
      _ = (completeStep s.haveWritten).withWindow (s.haveWritten e).window := completeStep_withWindow ..
      _ = (completeStep s.haveWritten).withWindow (completeStep (s.haveWritten e)).window := by rw [completeStep_window]

/-- The state a data read leaves, from the word read and the window after it. -/
theorem donePhase_read {s : State} (e : BusEnd) (hf : s.seq.phase = .rd) :
    s.donePhase e = if s.seq.step.uses .wi = true then (s.haveRead e).withSeq ⟨s.seq.step, .wi⟩
      else completeStep (countPoll (s.haveRead e)) := by
  unfold State.donePhase
  rw [hf]
  rfl

/-- An accessible register's phases all have a meaning (70 R241). -/
theorem State.accessible_phaseTarget {s : State} (ha : s.canAccess s.reg = true) :
    s.accessible s.phaseTarget = true := by
  obtain ⟨hindex, hdata⟩ := Bool.and_eq_true_iff.1 ha
  unfold State.phaseTarget
  cases s.seq.phase
  case ri | wi => exact hindex
  case rd | wd => exact hdata

/-- Settles O49: the step is the phase's own, ended by the error, and what the error touches is the word read and the
window. -/
theorem busErrorDoesNotChangeTheSequence : Obligations.BusErrorDoesNotChangeTheSequence := by
  unfold Obligations.BusErrorDoesNotChangeTheSequence
  intro s w lands rest hw hevents huses ha
  let s' := s.withEvents rest
  have htarget : s'.accessible s'.phaseTarget = true := State.accessible_phaseTarget (s := s) ha
  have hstep : step s = .next (s'.donePhase (.error w lands)) :=
    (step_event hw hevents (uses_busy huses)).trans (advance_of (s := s') huses htarget)
  have hwindow := donePhase_window s' (e := .error w lands)
  have hseq : s'.seq = s.seq := rfl
  rw [hseq] at hwindow
  refine ⟨_, hstep, fun hf => ⟨s'.donePhase, advance_of (s := s') huses htarget, donePhase_error_write _ hf⟩, fun hf => ?_,
    fun hlost => ?_, fun hlands => ⟨fun hf => ?_, fun hf => ?_, fun hf => ?_⟩⟩
  · rw [hf] at hwindow
    rw [hwindow]
    exact donePhase_read (s := s') _ hf
  · rw [hwindow, hlost]
    cases s.seq.phase <;> rfl
  · rw [hwindow, hlands]
    rcases hf with hf | hf <;> rw [hf] <;> rfl
  · rw [hwindow, hlands, hf]
    rfl
  · rw [hwindow, hlands, hf]
    rfl

end Sys2Proof.Machine
end

section
/-! The next-step function (spec/42_sequencer.md R134) and the poll counter (R161 to R163). -/

namespace Sys2Proof.Machine

theorem softResetSet_iff (p : Params) (a : Word) : softResetSet p a = true ↔ ext p.fSoftRst a = 1#32 := beq_iff_eq

theorem vrResetSet_iff (p : Params) (a : Word) : vrResetSet p a = true ↔ ext p.fVrRst a = 1#32 := beq_iff_eq

/-! The three decisions of the poll (42_sequencer.md R162, R163). -/

theorem afterPoll_clear {s : State} (h : vrResetSet s.params s.acc = false) : afterPoll s = s.goto .s4 := if_pos h

theorem afterPoll_spent {s : State} (h : vrResetSet s.params s.acc = true) (hlimit : s.cfg.pollLimit = some s.pollcnt) :
    afterPoll s = s.raise .pollTimeout := by
  simp [afterPoll, h, pollSpent, hlimit]

theorem afterPoll_again {s : State} (h : vrResetSet s.params s.acc = true) (hlimit : s.cfg.pollLimit ≠ some s.pollcnt) :
    afterPoll s = s.goto .s3p := by
  simp [afterPoll, h, pollSpent, hlimit]

/-- The last phase of a step completes it, from a state that differs in `acc`, the counter, the window and the bus only. -/
theorem advance_completes {s t : State} {b : BusEnd} (h : advance s b = .next t)
    (hlast : s.seq.phase = .wd ∨ (s.seq.phase = .rd ∧ s.seq.step.uses .wi = false)) :
    ∃ u, t = completeStep u ∧ u.seq = s.seq ∧ u.params = s.params ∧ u.cfg = s.cfg ∧ u.cmd = s.cmd := by
  rcases advance_cases h with ⟨-, -, -, ⟨hf, -⟩ | ⟨hf, -, hwi⟩ | ⟨hf, -⟩⟩ | ⟨-, -, rfl⟩ | ⟨-, -, rfl⟩
  · simp [hf] at hlast
  · simp [hf, hwi] at hlast
  · simp [hf] at hlast
  · exact ⟨_, rfl, by simp [State.haveRead], by simp [State.haveRead], by simp [State.haveRead], by simp [State.haveRead]⟩
  · exact ⟨_, rfl, rfl, rfl, rfl, rfl⟩

/-- Settles O22: the step's last phase leaves `completeStep`, which is read row by row. -/
theorem nextStepFollowsTheTable : Obligations.NextStepFollowsTheTable := by
  unfold Obligations.NextStepFollowsTheTable
  intro s t b h hlast
  have hbusy : s.seq.step.busy = true := uses_busy (advance_uses h)
  obtain ⟨u, rfl, hseq, hparams, hcfg, hcmd⟩ := advance_completes h hlast
  rw [← hseq] at hbusy ⊢
  rw [← hparams, ← hcfg, ← hcmd, completeStep_acc]
  cases hx : u.seq.step <;> simp only [completeStep, hx]
  case idle | resp => simp [hx, SeqStep.busy] at hbusy
  case s1 =>
    simp only [afterS1, softResetSet_iff]
    split_ifs
    case pos => exact ⟨rfl, rfl⟩
    all_goals rfl
  case s2b => split_ifs <;> rfl
  case s3d =>
    refine ⟨rfl, fun hlimit => ?_⟩
    simp [clearPoll, hlimit]
  case s3p =>
    refine ⟨fun hclear => ?_, fun hset => ?_⟩
    · have hclear' : vrResetSet u.params u.acc = false := by simp [vrResetSet, hclear]
      rw [afterPoll_clear hclear']
      rfl
    · have hset' : vrResetSet u.params u.acc = true := (vrResetSet_iff ..).2 hset
      by_cases hlimit : u.cfg.pollLimit = some u.pollcnt
      · rw [afterPoll_spent hset' hlimit]
        exact (if_pos hlimit).mpr ⟨rfl, rfl⟩
      · rw [afterPoll_again hset' hlimit]
        exact (if_neg hlimit).mpr rfl
  case xrd | xwr | s5 | sane => exact ⟨rfl, rfl⟩
  all_goals rfl

theorem completeStep_s3p {s : State} (h : s.seq.step = .s3p) : completeStep s = afterPoll s := by
  simp only [completeStep, h]

/-- The state in which a poll read is made and counted, and nothing is decided yet. -/
abbrev State.polled (s : State) : State := countPoll s.haveRead

/-- A poll read answers the decision on what it read. -/
theorem advance_poll {s : State} (hseq : s.seq = ⟨.s3p, .rd⟩) (ha : s.accessible (.data (lo s.reg)) = true) :
    advance s = .next (afterPoll s.polled) := by
  have hphase : s.seq.phase = .rd := congrArg Seq.phase hseq
  have hstep : s.seq.step = .s3p := congrArg Seq.step hseq
  have huses : s.seq.step.uses s.seq.phase = true := by rw [hseq]; rfl
  have htarget : s.phaseTarget = .data (lo s.reg) := by rw [State.phaseTarget, hphase]
  have hpolled : s.polled.seq.step = .s3p := (congrArg Seq.step (countPoll_seq _)).trans hstep
  rw [advance_of huses (htarget ▸ ha), donePhase_read _ hphase, hstep, if_neg (by decide), completeStep_s3p hpolled]

/-- The count after a poll read, where there is a counter (10_state.md R25). -/
theorem polled_pollcnt {s : State} (hstep : s.seq.step = .s3p) :
    s.polled.pollcnt = if s.cfg.pollLimit = none then s.pollcnt else s.pollcnt + 1 := by
  refine (countPoll_pollcnt _).trans ?_
  by_cases hlimit : s.cfg.pollLimit = none <;> simp [State.haveRead, hstep, hlimit]

/-- Settles O30: the data read of S3P is counted and decided on. -/
theorem pollReadDecides : Obligations.PollReadDecides := by
  unfold Obligations.PollReadDecides
  intro s hseq ha
  have hstep : s.seq.step = .s3p := congrArg Seq.step hseq
  have hreg : s.reg = s.params.rDigCtrl := by rw [State.reg, hstep]; rfl
  have hpolled : s.polled.seq.step = .s3p := (congrArg Seq.step (countPoll_seq _)).trans hstep
  have hparams : s.polled.params = s.params := countPoll_params _
  have hcfg : s.polled.cfg = s.cfg := countPoll_cfg _
  have hrsp : s.polled.rsp = s.rsp := countPoll_rsp _
  have hcount := polled_pollcnt hstep
  have hspent (hlimit : s.cfg.pollLimit = some (s.pollcnt + 1)) : s.polled.cfg.pollLimit = some s.polled.pollcnt := by
    rw [hcfg, hcount, if_neg (by simp [hlimit]), hlimit]
  have hagain (hlimit : s.cfg.pollLimit ≠ some (s.pollcnt + 1)) : s.polled.cfg.pollLimit ≠ some s.polled.pollcnt := by
    rw [hcfg, hcount]
    split <;> simp_all
  refine ⟨_, advance_poll hseq (hreg ▸ ha), ?_⟩
  rw [← completeStep_s3p hpolled, completeStep_acc, completeStep_pollcnt, completeStep_s3p hpolled, ← hrsp]
  have hacc : s.polled.acc = s.peek (.data (lo s.params.rDigCtrl)) := (countPoll_acc _).trans (by rw [← hreg]; rfl)
  refine ⟨hacc, ?_, fun hclear => ?_, fun hset hlimit => ?_, fun hset hlimit => ?_⟩
  · rw [if_neg (by rw [hpolled]; nofun), hcount]
  · rw [afterPoll_clear (by rwa [hparams])]
    exact ⟨rfl, rfl⟩
  · rw [afterPoll_spent (by rwa [hparams]) (hspent hlimit)]
    exact ⟨rfl, rfl⟩
  · rw [afterPoll_again (by rwa [hparams]) (hagain hlimit)]
    exact ⟨rfl, rfl⟩

/-! `pollcnt` (42_sequencer.md R161). -/

/-- `pollcnt` after a transaction: S3D's write clears it and S3P's read counts, where there is a counter. -/
theorem advance_pollcnt {s t : State} {b : BusEnd} (h : advance s b = .next t) :
    t.pollcnt = if s.cfg.pollLimit = none then s.pollcnt else if s.seq = ⟨.s3d, .wd⟩ then 0
      else if s.seq = ⟨.s3p, .rd⟩ then s.pollcnt + 1 else s.pollcnt := by
  have hseq (x : SeqStep) (f : Phase) : s.seq = ⟨x, f⟩ ↔ s.seq.step = x ∧ s.seq.phase = f :=
    ⟨fun h => h ▸ ⟨rfl, rfl⟩, fun h => State.seq_eq h.1 h.2⟩
  simp only [hseq]
  rcases advance_cases h with ⟨-, -, hcount, ⟨hf, -⟩ | ⟨hf, -, hwi⟩ | ⟨hf, -⟩⟩ | ⟨hf, hreads, rfl⟩ | ⟨hf, hwd, rfl⟩
  · simp [hcount, hf]
  · have hwrites : s.seq.step ≠ .s3p := fun hx => by rw [hx] at hwi; cases hwi
    simp [hcount, hf, hwrites]
  · simp [hcount, hf]
  · rw [completeStep_pollcnt, countPoll_pollcnt, countPoll_seq, countPoll_cfg]
    rcases hreads with hx | hx | hx <;> simp [State.haveRead, hx, hf, ite_not]
  · rw [completeStep_pollcnt]
    have hwrites : s.seq.step ≠ .s3p := (uses_wd_ne hwd).2.1
    by_cases hlimit : s.cfg.pollLimit = none <;> simp [State.haveWritten, hf, hlimit]

/-- The steps behind the poll. -/
abbrev SeqStep.pastPoll (x : SeqStep) : Prop := x = .s4 ∨ x = .s5 ∨ x = .resp

/-- Past the poll an INIT does not come back to it (42_sequencer.md R134). -/
theorem exec_init_pastPoll {s t : State} {m : PcsMode} {r d : Word} (h : exec (.init m r d) s = .next t)
    (hpast : s.seq.step.pastPoll) : t.seq.step.pastPoll := by
  rw [exec_init] at h
  rcases runCommand_cases h with ⟨hidle, -⟩ | ⟨-, -, -, hadvance⟩ | ⟨-, -, rfl⟩
  · simp [hidle, SeqStep.pastPoll] at hpast
  · rcases advance_cases hadvance with ⟨hstep, -⟩ | ⟨-, hreads, -⟩ | ⟨-, hwd, rfl⟩
    · rwa [hstep]
    · rcases hreads with hx | hx | hx <;> simp [hx, SeqStep.pastPoll] at hpast
    · rcases hpast with hx | hx | hx <;> simp [completeStep, State.haveWritten, hx, SeqStep.pastPoll]
  · exact hpast

theorem execRun_init_pastPoll {s t : State} {m : PcsMode} {r d : Word} {k : Nat} (h : execRun (.init m r d) k s = .next t)
    (hpast : s.seq.step.pastPoll) : t.seq.step.pastPoll := by
  induction k generalizing s with
  | zero =>
    cases h
    exact hpast
  | succ k ih =>
    obtain ⟨u, hu, h⟩ := andThen_eq_next.1 h
    exact ih h (exec_init_pastPoll hu hpast)

/-- After a poll read the block polls again, or is past the poll. -/
theorem advance_poll_goes {s t : State} (h : advance s = .next t) (hseq : s.seq = ⟨.s3p, .rd⟩) :
    t.seq = ⟨.s3p, .ri⟩ ∨ t.seq.step.pastPoll := by
  obtain ⟨-, ha, -⟩ := advance_eq_next.1 h
  have htarget : s.phaseTarget = .data (lo s.reg) := by rw [State.phaseTarget, hseq]
  rw [advance_poll hseq (htarget ▸ ha)] at h
  obtain rfl := Host.Outcome.next.inj h
  unfold afterPoll
  split_ifs
  · exact .inr (.inl rfl)
  · exact .inr (.inr (.inr rfl))
  · exact .inl rfl

/-- One poll of an INIT USXGMII: the index write and the counted read. -/
theorem execRun_poll {s t : State} {r d : Word} (hseq : s.seq = ⟨.s3p, .ri⟩) (hcmd : s.cmd = cmdInit .usxgmii r d)
    (hlimit : s.cfg.pollLimit ≠ none) (h : execRun (.init .usxgmii r d) 2 s = .next t) :
    t.pollcnt = s.pollcnt + 1 ∧ t.cmd = s.cmd ∧ t.cfg = s.cfg ∧ (t.seq = ⟨.s3p, .ri⟩ ∨ t.seq.step.pastPoll) := by
  have inFlight {u : State} {f : Phase} (hu : u.seq = ⟨.s3p, f⟩) (hc : u.cmd = s.cmd) :
      exec (.init .usxgmii r d) u = advance u :=
    exec_eq_advance (by rw [hu]; rfl) (hc.trans hcmd)
  obtain ⟨u, hu, h⟩ := andThen_eq_next.1 h
  obtain ⟨_, ht, h⟩ := andThen_eq_next.1 h
  cases h
  rw [inFlight hseq rfl] at hu
  obtain ⟨-, hcfg, hcmd', -⟩ := advance_frame hu
  have hseq' : u.seq = ⟨.s3p, .rd⟩ := by
    obtain ⟨-, -, rfl⟩ := advance_eq_next.1 hu
    rw [State.donePhase, hseq]
    exact congrArg (Seq.mk · .rd) (congrArg Seq.step hseq)
  rw [inFlight hseq' hcmd'] at ht
  obtain ⟨-, hcfg', hcmd'', -⟩ := advance_frame ht
  refine ⟨?_, hcmd''.trans hcmd', hcfg'.trans hcfg, advance_poll_goes ht hseq'⟩
  rw [advance_pollcnt ht, advance_pollcnt hu, hcfg, if_neg hlimit, if_neg hlimit, hseq, hseq']
  rfl

/-- After k polls of an INIT that is still polling the counter stands k higher. -/
theorem execRun_poll_pollcnt {s t : State} {k : Nat} {r d : Word} (hseq : s.seq = ⟨.s3p, .ri⟩)
    (hcmd : s.cmd = cmdInit .usxgmii r d) (hlimit : s.cfg.pollLimit ≠ none)
    (h : execRun (.init .usxgmii r d) (2 * k) s = .next t) (hpolls : t.seq.step = .s3p) : t.pollcnt = s.pollcnt + k := by
  induction k generalizing s with
  | zero =>
    cases h
    rfl
  | succ k ih =>
    rw [Nat.mul_succ, Nat.add_comm, execRun_add] at h
    obtain ⟨u, hu, h⟩ := andThen_eq_next.1 h
    obtain ⟨hcount, hcmd', hcfg, hagain | hpast⟩ := execRun_poll hseq hcmd hlimit hu
    · rw [ih hagain (hcmd'.trans hcmd) (hcfg ▸ hlimit) h, hcount]
      omega
    · have hpast' := execRun_init_pastPoll h hpast
      simp [hpolls, SeqStep.pastPoll] at hpast'

/-- Settles O31. -/
theorem pollCounterCountsPollReads : Obligations.PollCounterCountsPollReads := by
  unfold Obligations.PollCounterCountsPollReads
  refine ⟨fun s t b h hlimit => ?_, fun s t b h hlimit => ?_, fun s t k r d hseq hcmd hzero hlimit h hpolls => ?_⟩
  · rw [advance_pollcnt h, if_neg hlimit]
  · rw [advance_pollcnt h, if_pos hlimit]
  · rw [execRun_poll_pollcnt hseq hcmd hlimit h hpolls, hzero, Nat.zero_add]

end Sys2Proof.Machine
end

section
/-! The reference window under the block's data accesses (spec/10_state.md R33, R36), with IDX selecting the step's register. -/

namespace Sys2Proof.Machine

/-- IDX selects a register where it holds its index word (10_state.md R31). -/
theorem Window.select_of_idx {w : Window} {r : Word} (h : w.idx = indexWord r) : w.select (lo r) = r := by
  rw [Window.select, h, indexWord_low, hi_append_lo]

/-- In a data access IDX selects the step's register, by the premise that shuts out a failed index write (log 21). -/
theorem State.selectsRegister.select {s : State} (h : s.selectsRegister) (huses : s.seq.step.uses s.seq.phase = true)
    (hf : s.seq.phase = .rd ∨ s.seq.phase = .wd) : s.window.select (lo s.reg) = s.reg :=
  Window.select_of_idx (h (uses_busy huses) hf)

section
variable {p : Params} {w : Window} {o : Half} (hk : w.kind = .reference) (hn : w.select o = p.rDigCtrl)
include hk hn

/-- A poll read while the draw lasts sees F_VR_RST set, and only the draw counts down (10_state.md R36). -/
theorem Window.read_polling {k : Nat} (hv : w.vr = .setFor (k + 1)) : w.read p .s3p (.data o) =
    (setb p.fVrRst (w.reg.loadWord p.byteOrder p.rDigCtrl), { w with vr := .setFor k }) := by
  rw [Window.read_digCtrl p .s3p w o hk hn, Window.readDigCtrl_poll p _ w hv]

/-- A poll read of a draw that never clears sees it set and changes nothing. -/
theorem Window.read_never (hv : w.vr = .never) : w.read p .s3p (.data o) =
    (setb p.fVrRst (w.reg.loadWord p.byteOrder p.rDigCtrl), w) := by
  rw [Window.read_digCtrl p .s3p w o hk hn, Window.readDigCtrl_never p _ w hv]

end

/-- A word in which F_VR_RST was set reads it set (00_scope.md R12). -/
theorem vrResetSet_setb {p : Params} (hwf : p.wf = true) (a : Word) : vrResetSet p (setb p.fVrRst a) = true := by
  obtain ⟨hbit, hword⟩ := Params.bit_of_wf hwf (f := p.fVrRst) (by simp)
  exact (vrResetSet_iff ..).2 (ext_setb hbit hword a)

/-- A word in which it was cleared reads it clear. -/
theorem vrResetSet_clr (p : Params) (a : Word) : vrResetSet p (clr p.fVrRst a) = false := by
  simp [vrResetSet, ext_clr]

/-- A data read with a meaning takes the word read into `acc`, and the window is as the read leaves it. -/
theorem advance_dataRead {s : State} (hf : s.seq.phase = .rd) (huses : s.seq.step.uses s.seq.phase = true)
    (ha : s.accessible (.data (lo s.reg)) = true) : ∃ t, advance s = .next t ∧ t.params = s.params ∧
      (t.acc, t.window) = s.window.read s.params s.seq.step (.data (lo s.reg)) := by
  have htarget : s.phaseTarget = .data (lo s.reg) := by rw [State.phaseTarget, hf]
  have hadvance := advance_of huses (htarget ▸ ha) (e := .ok)
  refine ⟨_, hadvance, (advance_frame hadvance).1, ?_⟩
  rw [donePhase_acc, donePhase_window, hf]
  rfl

/-- Settles O32: the word and the window after the read are those of the window's own rows. -/
theorem referenceWindowClearsTheResetBit : Obligations.ReferenceWindowClearsTheResetBit := by
  unfold Obligations.ReferenceWindowClearsTheResetBit
  intro s x hseq huses hk hselects ha hwf
  have hf : s.seq.phase = .rd := congrArg Seq.phase hseq
  obtain rfl : s.seq.step = x := congrArg Seq.step hseq
  have hn : s.window.select (lo s.reg) = s.reg := hselects.select (hf ▸ huses) (.inl hf)
  obtain ⟨t, hadvance, hparams, hread⟩ := advance_dataRead hf (hf ▸ huses) ha
  refine ⟨t, hadvance, fun hother => ?_, fun hdig => ⟨fun hv => ?_, fun k hv hpoll => ?_, fun hv hpoll => ?_, fun hv => ?_⟩⟩
  · rw [Window.read_other _ _ _ _ hk (hn.trans_ne hother), hn] at hread
    exact Prod.mk.inj hread
  all_goals have hn := hn.trans hdig
  · rw [Window.read_spent _ _ _ _ hk hn hv, hn] at hread
    obtain ⟨hacc, hwindow⟩ := Prod.mk.inj hread
    have hreg : t.regValue s.params.rDigCtrl = clr s.params.fVrRst (s.regValue s.params.rDigCtrl) := by
      rw [State.regValue, hparams, hwindow]
      exact Memory.loadWord_storeWord_same ..
    exact ⟨hacc ▸ vrResetSet_clr _ _, hwindow ▸ hv, hreg, hacc.trans hreg.symm⟩
  · rw [hpoll, Window.read_polling hk hn hv] at hread
    obtain ⟨hacc, hwindow⟩ := Prod.mk.inj hread
    exact ⟨hacc ▸ vrResetSet_setb hwf _, hwindow⟩
  · rw [hpoll, Window.read_never hk hn hv] at hread
    obtain ⟨hacc, hwindow⟩ := Prod.mk.inj hread
    exact ⟨hacc ▸ vrResetSet_setb hwf _, hwindow⟩
  · rw [Window.read_digCtrl _ _ _ _ hk hn, Window.readDigCtrl_reg _ _ _ _ hv, ← hdig] at hread
    exact Prod.mk.inj hread

/-- A data write with a meaning is received by the window, and is the transaction of the step. -/
theorem advance_dataWrite {s : State} (hf : s.seq.phase = .wd) (huses : s.seq.step.uses s.seq.phase = true)
    (ha : s.accessible (.data (lo s.reg)) = true) : ∃ t, advance s = .next t ∧ t.params = s.params ∧
      t.window = s.window.write s.params s.seq.step (.data (lo s.reg)) s.acc ∧
      t.bus = s.bus ++ [s.writeTxn s.reg s.acc] := by
  have htarget : s.phaseTarget = .data (lo s.reg) := by rw [State.phaseTarget, hf]
  have hadvance := advance_of huses (htarget ▸ ha) (e := .ok)
  refine ⟨_, hadvance, (advance_frame hadvance).1, ?_, ?_⟩
  · rw [donePhase_window, hf]
    rfl
  · rw [donePhase_txn, hf]
    rfl

/-- Settles O33: the window after the write, by the rows of `Window.write`. -/
theorem referenceWindowTakesWrites : Obligations.ReferenceWindowTakesWrites := by
  unfold Obligations.ReferenceWindowTakesWrites
  intro s x hseq huses hk hselects ha
  have hf : s.seq.phase = .wd := congrArg Seq.phase hseq
  obtain rfl : s.seq.step = x := congrArg Seq.step hseq
  have hn : s.window.select (lo s.reg) = s.reg := hselects.select (hf ▸ huses) (.inr hf)
  obtain ⟨t, hadvance, hparams, hwindow, -⟩ := advance_dataWrite hf (hf ▸ huses) ha
  refine ⟨t, hadvance, ?_, ?_, fun a hout => ?_, fun hother => ?_, fun hdig hs3d => ?_, fun draw rest hs3d hdraw => ?_⟩
  · rw [State.regValue, hparams, hwindow]
    have hload := Window.loadWord_write s.params s.seq.step (lo s.reg) s.acc s.window hk
    rwa [hn] at hload
  · rw [hwindow, Window.write_data_idx]
  · rw [hwindow, Window.write_byte _ _ _ _ _ (by rwa [hn])]
  · rw [hwindow, Window.write_other _ _ _ _ _ hk (hn.trans_ne hother)]
    exact ⟨rfl, rfl⟩
  · rw [hwindow, Window.write_digCtrl _ _ _ _ _ hk (hn.trans hdig) hs3d]
    exact ⟨rfl, rfl⟩
  · have hdig : s.reg = s.params.rDigCtrl := by rw [State.reg, hs3d]; rfl
    rw [hwindow, hs3d, Window.write_s3d _ _ _ _ hk (hn.trans hdig), Window.startReset_cons _ (by exact hdraw)]
    exact ⟨by cases draw <;> rfl, rfl⟩

end Sys2Proof.Machine
end

section
/-! The window's own change between a step's read and its write (spec/70_reset_and_hazards.md R253), and the poll that never
ends (spec/42_sequencer.md R164). -/

namespace Sys2Proof.Machine

/-! The transactions of an access depend on the parameters and the inputs alone. -/

theorem indexTxn_congr {s t : State} (hp : t.params = s.params) (hc : t.cfg = s.cfg) (r : Word) :
    t.indexTxn r = s.indexTxn r := by
  rw [State.indexTxn, State.indexTxn, State.addrOf_congr hp hc]

theorem readTxn_congr {s t : State} (hp : t.params = s.params) (hc : t.cfg = s.cfg) (r v : Word) :
    t.readTxn r v = s.readTxn r v := by
  rw [State.readTxn, State.readTxn, State.addrOf_congr hp hc]

theorem writeTxn_congr {s t : State} (hp : t.params = s.params) (hc : t.cfg = s.cfg) (r v : Word) :
    t.writeTxn r v = s.writeTxn r v := by
  rw [State.writeTxn, State.writeTxn, State.addrOf_congr hp hc]

/-- In the reference window an accessible register's number is a multiple of 4 (10_state.md R36). -/
theorem State.reg_aligned {s : State} {r : Word} (hk : s.window.kind = .reference) (ha : s.canAccess r = true) :
    r.toNat % 4 = 0 := by
  obtain ⟨-, hmodel⟩ : _ ∧ (lo r).toNat % 4 = 0 := by
    simpa [State.accessible, State.inModel, hk] using (Bool.and_eq_true_iff.1 ha).2
  rw [lo_toNat] at hmodel
  omega

/-- The block, its record of the bus and what is outside it are as they were. -/
theorem State.changed_frame (s : State) (n v : Word) : (s.changed n v).params = s.params ∧ (s.changed n v).cfg = s.cfg ∧
    (s.changed n v).seq = s.seq ∧ (s.changed n v).acc = s.acc ∧ (s.changed n v).bus = s.bus ∧ (s.changed n v).events = s.events ∧
    (s.changed n v).reg = s.reg ∧ (s.changed n v).window.kind = s.window.kind ∧
    (s.changed n v).window.idx = s.window.idx := by
  generalize hw : { s.window with reg := s.window.reg.storeWord s.params.byteOrder n v } = w
  have hchanged : s.changed n v = s.withWindow w := congrArg s.withWindow hw
  rw [hchanged]
  exact ⟨rfl, rfl, rfl, rfl, rfl, rfl, rfl, hw ▸ rfl, hw ▸ rfl⟩

/-- The scheduled change of a register the reference window has. -/
theorem step_windowChange {s : State} {n v : Word} {rest : List Event} (hw : s.wellSet = true)
    (hevents : s.events = .window n v :: rest) (hk : s.window.kind = .reference) (hn : n.toNat % 4 = 0) :
    step s = .next ((s.withEvents rest).changed n v) :=
  (step_event hw hevents rfl).trans (windowChange_reference (s := s.withEvents rest) v hk hn)

/-- With nothing scheduled, or the block's turn, a BUSY block makes its transaction. -/
theorem step_busy {s : State} (hw : s.wellSet = true) (hevents : s.events = []) (hbusy : s.seq.step.busy = true) :
    step s = advance s :=
  (step_noEvents hw hevents).trans (blockTurn_busy hbusy)

/-- The data write of a read-modify-write step puts `acc` in the register, whatever the register held. -/
theorem step_dataWrite {s : State} (hw : s.wellSet = true) (hevents : s.events = []) (hf : s.seq.phase = .wd)
    (huses : s.seq.step.uses s.seq.phase = true) (hk : s.window.kind = .reference) (hidx : s.window.idx = indexWord s.reg)
    (ha : s.canAccess s.reg = true) :
    ∃ t, step s = .next t ∧ t.regValue s.reg = s.acc ∧ t.bus = s.bus ++ [s.writeTxn s.reg s.acc] := by
  obtain ⟨t, hadvance, hparams, hwindow, hbus⟩ := advance_dataWrite hf huses (Bool.and_eq_true_iff.1 ha).2
  refine ⟨t, (step_busy hw hevents (uses_busy huses)).trans hadvance, ?_, hbus⟩
  have hload := Window.loadWord_write s.params s.seq.step (lo s.reg) s.acc s.window hk
  rwa [Window.select_of_idx hidx, ← hwindow, ← hparams] at hload

/-- After the index write of a write IDX selects the step's register. -/
theorem doneWI_idx (s : State) : s.doneWI.window.idx = indexWord s.doneWI.reg := rfl

/-- The two transactions of a step's write, nothing being scheduled. -/
theorem run_write {s : State} (hw : s.wellSet = true) (hevents : s.events = []) (hf : s.seq.phase = .wi)
    (hwi : s.seq.step.uses .wi = true) (hwd : s.seq.step.uses .wd = true) (hk : s.window.kind = .reference)
    (ha : s.canAccess s.reg = true) : ∃ t, run 2 s = .next t ∧
      t.regValue s.reg = s.seq.step.modify s.params s.cfg.fixedSpeedTest s.acc ∧
      t.bus = s.bus ++ [s.indexTxn s.reg, s.writeTxn s.reg (s.seq.step.modify s.params s.cfg.fixedSpeedTest s.acc)] := by
  have hindex : step s = .next s.doneWI := (step_busy hw hevents (uses_busy hwi)).trans (advance_wi hf hwi ha)
  have ha' : s.doneWI.canAccess s.reg = true := (State.canAccess_congr (s := s) rfl rfl rfl _).trans ha
  obtain ⟨t, hdata, hvalue, hbus⟩ := step_dataWrite (s := s.doneWI) hw hevents rfl hwd hk (doneWI_idx s) ha'
  refine ⟨t, ?_, hvalue, hbus.trans (List.append_assoc ..)⟩
  rw [run_succ, hindex, andThen_next, run_succ, hdata]
  rfl

/-- The data write of a step's write, the window having changed the register since the index write. -/
theorem step_write_changed {s : State} (hw : s.wellSet = true) (hwd : s.seq.step.uses .wd = true)
    (hk : s.window.kind = .reference) (ha : s.canAccess s.reg = true) (v : Word) :
    ∃ t, step ((s.doneWI.withEvents []).changed s.reg v) = .next t ∧
      t.regValue s.reg = s.seq.step.modify s.params s.cfg.fixedSpeedTest s.acc ∧
      t.bus = s.bus ++ [s.indexTxn s.reg, s.writeTxn s.reg (s.seq.step.modify s.params s.cfg.fixedSpeedTest s.acc)] := by
  obtain ⟨hparams, hcfg, hseq, hacc, hbus, hevents, hreg, hkind, hidx⟩ :=
    (s.doneWI.withEvents []).changed_frame s.reg v
  generalize (s.doneWI.withEvents []).changed s.reg v = u at *
  have hw' : u.wellSet = true := by rw [State.wellSet, hparams, hcfg]; exact hw
  have ha' : u.canAccess u.reg = true := by rw [hreg, State.canAccess_congr (s := s) hparams hcfg hkind]; exact ha
  obtain ⟨t, hdata, hvalue, hwrite⟩ := step_dataWrite hw' hevents (by rw [hseq]; rfl) (by rw [hseq]; exact hwd)
    (hkind.trans hk) (by rw [hidx, hreg]; rfl) ha'
  rw [hreg, hacc] at hvalue
  rw [hreg, hacc, hbus, writeTxn_congr (s := s) hparams hcfg] at hwrite
  exact ⟨t, hdata, hvalue, hwrite.trans (List.append_assoc s.bus [_] [_])⟩

/-- Settles O39: the change moves one register's bytes only, and the data write that follows it puts the modify function's
word there, IDX selecting the register. -/
theorem ownChangeOfTheWindowIsOverwritten : Obligations.OwnChangeOfTheWindowIsOverwritten := by
  unfold Obligations.OwnChangeOfTheWindowIsOverwritten
  intro s x v hw hseq hri hwi hk ha hevents
  have hf : s.seq.phase = .wi := congrArg Seq.phase hseq
  obtain rfl : s.seq.step = x := congrArg Seq.step hseq
  have hwd : s.seq.step.uses .wd = true := uses_wi_all hri hwi .wd
  have haligned : s.reg.toNat % 4 = 0 := State.reg_aligned hk ha
  rcases hevents with hevents | hevents
  · have hchange := step_windowChange (v := v) hw hevents hk haligned
    obtain ⟨hparams, hcfg, hseq', hacc, hbus, hevents', hreg, hkind, -⟩ := (s.withEvents []).changed_frame s.reg v
    generalize (s.withEvents []).changed s.reg v = u at *
    have hw' : u.wellSet = true := by rw [State.wellSet, hparams, hcfg]; exact hw
    have ha' : u.canAccess u.reg = true := by rw [hreg, State.canAccess_congr (s := s) hparams hcfg hkind]; exact ha
    have hseq' : u.seq = s.seq := hseq'
    obtain ⟨t, hrun, hvalue, hwrite⟩ := run_write hw' hevents' (hseq' ▸ hf) (hseq' ▸ hwi) (hseq' ▸ hwd) (hkind.trans hk) ha'
    rw [hreg, hacc, hparams, hcfg, hseq'] at hvalue
    rw [hreg, hacc, hparams, hcfg, hseq', hbus, indexTxn_congr (s := s) hparams hcfg,
      writeTxn_congr (s := s) hparams hcfg] at hwrite
    exact ⟨t, by rw [run_succ, hchange, andThen_next, hrun], hvalue, hwrite⟩
  · let s₀ := s.withEvents [.window s.reg v]
    have hindex : step s = .next s₀.doneWI :=
      (step_event hw hevents rfl).trans ((blockTurn_busy (s := s₀) (uses_busy hwi)).trans (advance_wi (s := s₀) hf hwi ha))
    have hchange := step_windowChange (s := s₀.doneWI) hw rfl hk haligned
    obtain ⟨t, hdata, hvalue, hbus⟩ := step_write_changed (s := s₀) hw hwd hk ha v
    refine ⟨t, ?_, hvalue, hbus⟩
    rw [run_succ, hindex, andThen_next, run_succ, hchange, andThen_next, run_succ]
    exact congrArg (andThen · (run 0)) hdata

/-- What the unbounded poll of a reference window that never clears F_VR_RST starts from and returns to. -/
structure State.PollsForever (s : State) : Prop where
  wellSet : s.wellSet = true
  events : s.events = []
  poll : s.seq.step = .s3p
  phase : s.seq.step.uses s.seq.phase = true
  access : s.canAccess s.params.rDigCtrl = true
  reference : s.window.kind = .reference
  never : s.window.vr = .never
  selects : s.selectsRegister
  unbounded : s.cfg.pollLimit = none

/-- The poll only reads (10_state.md R22). -/
theorem State.PollsForever.phases {s : State} (h : s.PollsForever) : s.seq.phase = .ri ∨ s.seq.phase = .rd := by
  have huses := h.phase
  rw [h.poll] at huses
  cases hf : s.seq.phase <;> simp [hf, SeqStep.uses] at huses ⊢

/-- A poll read that sees F_VR_RST set, there being no POLL_LIMIT, goes back to the start of the poll. -/
theorem State.PollsForever.afterRead {s : State} (h : s.PollsForever) (hf : s.seq.phase = .rd) :
    s.donePhase.seq = ⟨.s3p, .ri⟩ ∧ s.donePhase.window = s.window := by
  have hreg : s.reg = s.params.rDigCtrl := by rw [State.reg, h.poll]; rfl
  have ha : s.accessible (.data (lo s.reg)) = true := hreg ▸ (Bool.and_eq_true_iff.1 h.access).2
  have hn : s.window.select (lo s.reg) = s.params.rDigCtrl := (h.selects.select h.phase (.inl hf)).trans hreg
  have hread := Window.read_never h.reference hn h.never
  have hadvance := advance_poll (State.seq_eq h.poll hf) ha
  have hdone : s.donePhase = afterPoll s.polled :=
    Host.Outcome.next.inj ((advance_of h.phase (by rwa [State.phaseTarget, hf])).symm.trans hadvance)
  have hset : vrResetSet s.polled.params s.polled.acc = true := by
    have hacc : s.polled.acc = (s.window.read s.params s.seq.step (.data (lo s.reg))).1 := countPoll_acc _
    have hparams : s.polled.params = s.params := countPoll_params _
    rw [hparams, hacc, h.poll, hread]
    exact vrResetSet_setb (Bool.and_eq_true_iff.1 h.wellSet).1 _
  have hcfg : s.polled.cfg.pollLimit = none := (congrArg _ (countPoll_cfg _)).trans h.unbounded
  refine ⟨?_, ?_⟩
  · rw [hdone, afterPoll_again hset (by rw [hcfg]; nofun)]
    rfl
  · rw [donePhase_window, hf, h.poll]
    exact congrArg Prod.snd hread

/-- Every step of the unbounded poll is a transaction, and the poll goes on (42_sequencer.md R163, R164). -/
theorem State.PollsForever.step {s : State} (h : s.PollsForever) : ∃ t, step s = .next t ∧ t.PollsForever ∧
    t.port = s.port ∧ t.taken = s.taken ∧ t.cmd = s.cmd ∧ t.bus.length = s.bus.length + 1 := by
  have hreg : s.reg = s.params.rDigCtrl := by rw [State.reg, h.poll]; rfl
  have ha : s.canAccess s.reg = true := hreg ▸ h.access
  have hstep : Machine.step s = advance s := step_busy h.wellSet h.events (uses_busy h.phase)
  have hadvance : advance s = .next s.donePhase := advance_of h.phase (State.accessible_phaseTarget ha)
  obtain ⟨hparams, hcfg, hcmd, hport, htaken, hevents, hkind⟩ := donePhase_frame s (e := .ok)
  obtain ⟨x, hbus⟩ := donePhase_bus s (e := .ok)
  refine ⟨s.donePhase, hstep.trans hadvance, ?_, hport, htaken, hcmd, by simp [hbus]⟩
  have hgoes : s.donePhase.seq.step = .s3p ∧ s.donePhase.seq.step.uses s.donePhase.seq.phase = true ∧
      s.donePhase.window.vr = .never := by
    rcases h.phases with hf | hf
    · rw [State.donePhase, hf]
      exact ⟨h.poll, by rw [State.doneRI, State.withSeq_seq, h.poll]; rfl, h.never⟩
    · obtain ⟨hseq, hwindow⟩ := h.afterRead hf
      rw [hseq, hwindow]
      exact ⟨rfl, rfl, h.never⟩
  obtain ⟨hpoll, hphase, hnever⟩ := hgoes
  exact ⟨by simpa only [State.wellSet, hparams, hcfg] using h.wellSet, hevents.trans h.events, hpoll, hphase,
    by rw [State.canAccess_congr hparams hcfg hkind, hparams]; exact h.access, hkind.trans h.reference, hnever,
    advance_selectsRegister h.selects hadvance, hcfg ▸ h.unbounded⟩

/-- Settles O29: the conditions of `PollsForever` are kept by every step of a run. -/
theorem unboundedPollNeverResponds : Obligations.UnboundedPollNeverResponds := by
  unfold Obligations.UnboundedPollNeverResponds
  intro s k hw hevents hpoll hphase ha hk hnever hselects hlimit
  have h : s.PollsForever := ⟨hw, hevents, hpoll, hphase, ha, hk, hnever, hselects, hlimit⟩
  clear hw hevents hpoll hphase ha hk hnever hselects hlimit
  induction k generalizing s with
  | zero => exact ⟨s, rfl, h.poll, rfl, rfl, rfl, rfl⟩
  | succ k ih =>
    obtain ⟨u, hu, h', hport, htaken, hcmd, hlength⟩ := h.step
    obtain ⟨t, ht, hpoll, hport', htaken', hcmd', hlength'⟩ := ih u h'
    refine ⟨t, ?_, hpoll, hport'.trans hport, htaken'.trans htaken, hcmd'.trans hcmd, by omega⟩
    rw [run_succ, hu, andThen_next, ht]

end Sys2Proof.Machine
end

section
/-! The commands of the Accessor from acceptance to the response (spec/41_accessor.md R110 to R112), and MODIFY (spec/30_encoding.md
R91). -/

namespace Sys2Proof.Machine

/-- The response of a READ, from the window its index write left. -/
def State.readDone (s : State) (r d : Word) : State :=
  { s with seq := ⟨.resp, .ri⟩, cmd := cmdRead r d, acc := s.wouldRead .xrd r, rsp := ⟨.ok, s.wouldRead .xrd r⟩,
           window := ((s.window.selecting r).read s.params .xrd (.data (lo r))).2,
           bus := s.bus ++ [s.indexTxn r, s.readTxn r (s.wouldRead .xrd r)] }

/-- The response of a WRITE. -/
def State.writeDone (s : State) (r v : Word) : State :=
  { s with seq := ⟨.resp, .ri⟩, cmd := cmdWrite r v, acc := v, rsp := ⟨.ok, 0#32⟩,
           window := (s.window.selecting r).write s.params .xwr (.data (lo r)) v,
           bus := s.bus ++ [s.indexTxn r, s.writeTxn r v] }

@[simp] theorem State.readDone_params (s : State) (r d : Word) : (s.readDone r d).params = s.params := rfl
@[simp] theorem State.readDone_port (s : State) (r d : Word) : (s.readDone r d).port = s.port := rfl
@[simp] theorem State.writeDone_params (s : State) (r v : Word) : (s.writeDone r v).params = s.params := rfl
@[simp] theorem State.writeDone_port (s : State) (r v : Word) : (s.writeDone r v).port = s.port := rfl

/-- A command that an IDLE block accepts and that then makes two transactions to its response. -/
structure Runs (i : Instr) (s s₁ s₂ s₃ : State) : Prop where
  accepts : exec i s = .next s₁
  owned : ownsStep i s₁.seq.step = true ∧ ownsStep i s₂.seq.step = true
  first : exec i s₁ = .next s₂
  second : exec i s₂ = .next s₃
  responds : s₃.seq.step = .resp

theorem exec_read_idle {s : State} (r d : Word) (hidle : s.seq.step = .idle) :
    exec (.read r d) s = .next { s with seq := ⟨.xrd, .ri⟩, cmd := cmdRead r d } :=
  (exec_read ..).trans (runCommand_idle hidle)

theorem exec_write_idle {s : State} (r v : Word) (hidle : s.seq.step = .idle) :
    exec (.write r v) s = .next { s with seq := ⟨.xwr, .wi⟩, cmd := cmdWrite r v, acc := v } :=
  (exec_write ..).trans (runCommand_idle hidle)

/-- READ is accepted, writes the index and reads the data (41_accessor.md R110). -/
theorem runs_read {s : State} {r : Word} (d : Word) (hidle : s.seq.step = .idle) (ha : s.canAccess r = true) :
    ∃ s₂, Runs (.read r d) s { s with seq := ⟨.xrd, .ri⟩, cmd := cmdRead r d } s₂ (s.readDone r d) := by
  let s₁ : State := { s with seq := ⟨.xrd, .ri⟩, cmd := cmdRead r d }
  have hdata : advance s₁.doneRI = .next (completeStep (countPoll s₁.afterRead)) := advance_rd (s := s₁) rfl ha
  rw [countPoll_of_ne_s3p (s := s₁.afterRead) nofun] at hdata
  exact ⟨s₁.doneRI, exec_read_idle r d hidle, ⟨rfl, rfl⟩,
    (exec_eq_advance (s := s₁) rfl rfl).trans (advance_ri (s := s₁) rfl rfl ha),
    (exec_eq_advance (s := s₁.doneRI) rfl rfl).trans hdata, rfl⟩

/-- WRITE is accepted, writes the index and writes the data (41_accessor.md R111). -/
theorem runs_write {s : State} {r : Word} (v : Word) (hidle : s.seq.step = .idle) (ha : s.canAccess r = true) :
    ∃ s₂, Runs (.write r v) s { s with seq := ⟨.xwr, .wi⟩, cmd := cmdWrite r v, acc := v } s₂ (s.writeDone r v) := by
  let s₁ : State := { s with seq := ⟨.xwr, .wi⟩, cmd := cmdWrite r v, acc := v }
  exact ⟨s₁.doneWI, exec_write_idle r v hidle, ⟨rfl, rfl⟩,
    (exec_eq_advance (s := s₁) rfl rfl).trans (advance_wi (s := s₁) rfl rfl ha),
    (exec_eq_advance (s := s₁.doneWI) rfl rfl).trans (advance_wd (s := s₁) rfl ha), rfl⟩

/-- Settles O15. -/
theorem readRunsToItsResponse : Obligations.ReadRunsToItsResponse := by
  unfold Obligations.ReadRunsToItsResponse
  intro s r d hidle ha
  obtain ⟨s₂, h⟩ := runs_read d hidle ha
  exact ⟨_, s₂, h.accepts, h.first, rfl, h.second⟩

/-- Settles O16. -/
theorem writeRunsToItsResponse : Obligations.WriteRunsToItsResponse := by
  unfold Obligations.WriteRunsToItsResponse
  intro s r v hidle ha
  obtain ⟨s₂, h⟩ := runs_write v hidle ha
  exact ⟨_, s₂, h.accepts, h.first, rfl, h.second⟩

theorem Runs.execRun {i : Instr} {s s₁ s₂ s₃ : State} (h : Runs i s s₁ s₂ s₃) : execRun i 3 s = .next s₃ := by
  rw [execRun_succ, h.accepts, andThen_next, execRun_succ, h.first, andThen_next, execRun_succ, h.second]
  rfl

/-- A WRITE's value stands in the reference window's register (10_state.md R36). -/
theorem writeDone_regValue {s : State} (r v : Word) (hk : s.window.kind = .reference) : (s.writeDone r v).regValue r = v := by
  have hload := Window.loadWord_write s.params .xwr (lo r) v (s.window.selecting r) hk
  rwa [Window.selecting_select] at hload

/-- Settles O18: the two runs are those of READ and of WRITE, whose transactions are at the same addresses. -/
theorem modifyIsReadThenWrite : Obligations.ModifyIsReadThenWrite := by
  unfold Obligations.ModifyIsReadThenWrite
  intro s t u r c m hidle ha hread hwrite
  obtain ⟨_, hruns⟩ := runs_read 0#32 hidle ha
  obtain rfl : t = s.readDone r 0#32 := Host.Outcome.next.inj (hread.symm.trans hruns.execRun)
  let s' := (s.readDone r 0#32).takeResponse
  have hkind : s'.window.kind = s.window.kind := Window.read_kind ..
  have ha' : s'.canAccess r = true := (State.canAccess_congr (s := s) (t := s') rfl rfl hkind r).trans ha
  obtain ⟨_, hruns'⟩ := runs_write (s := s') ((s.wouldRead .xrd r &&& ~~~c) ||| m) rfl ha'
  obtain rfl : u = s'.writeDone r ((s.wouldRead .xrd r &&& ~~~c) ||| m) :=
    Host.Outcome.next.inj (hwrite.symm.trans hruns'.execRun)
  exact ⟨List.append_assoc s.bus [_, _] [_, _], rfl, rfl, fun hk => writeDone_regValue r _ (hkind.trans hk)⟩

/-! A command presented and its response taken, as the next two events. -/

/-- While no response waits, the event that takes it waits, and the block takes its turn (log 2). -/
theorem step_take_waits {s : State} {rest : List Event} (hw : s.wellSet = true) (hevents : s.events = .take :: rest)
    (hresp : s.seq.step ≠ .resp) : step s = blockTurn s := by
  have hready : Event.ready s .take = false := by simpa [Event.ready] using hresp
  unfold State.wellSet at hw
  simp [step, turn, hw, hevents, hready]

/-- A command's own steps are BUSY (00_scope.md R19). -/
theorem busy_of_ownsStep {i : Instr} {x : SeqStep} (h : ownsStep i x = true) : x.busy = true := by
  revert h
  cases i <;> cases x <;> simp [ownsStep, SeqStep.ofInit, SeqStep.busy]

/-- A step of the command in flight, the host waiting for its response. -/
theorem step_inFlight {i : Instr} {s : State} {rest : List Event} (hw : s.wellSet = true)
    (hevents : s.events = .take :: rest) (ho : ownsStep i s.seq.step = true) (hc : s.cmd = latchOf i) :
    step s = exec i s := by
  have hbusy : s.seq.step.busy = true := busy_of_ownsStep ho
  calc step s = blockTurn s := step_take_waits hw hevents (busy_ne hbusy).2
    _ = advance s := blockTurn_busy hbusy
    _ = exec i s := (exec_eq_advance ho hc).symm

/-- What the command in flight keeps for its next step. -/
theorem exec_inFlight_frame {i : Instr} {s t : State} (ho : ownsStep i s.seq.step = true) (hc : s.cmd = latchOf i)
    (h : exec i s = .next t) : t.wellSet = s.wellSet ∧ t.events = s.events ∧ t.cmd = latchOf i := by
  rw [exec_eq_advance ho hc] at h
  obtain ⟨hparams, hcfg, hcmd, -, -, hevents, -⟩ := advance_frame h
  exact ⟨by rw [State.wellSet, hparams, hcfg]; rfl, hevents, hcmd.trans hc⟩

/-- The host presents a command to an IDLE block and takes its response: five steps. -/
theorem run_command {i : Instr} {s s₁ s₂ s₃ : State} {rest : List Event} (hw : s.wellSet = true)
    (hidle : s.seq.step = .idle) (hport : s.port = none) (hevents : s.events = .present (encode i) :: .take :: rest)
    (h : Runs i (s.withEvents (.take :: rest)) s₁ s₂ s₃) : run 5 s = .next (s₃.withEvents rest).takeResponse := by
  let u := s.withEvents (.take :: rest)
  have hpresent : step s = .next (u.withPort (some (encode i))) :=
    step_event hw hevents (by simp [Event.ready, hport])
  have hfree : (u.withPort (some (encode i))).withPort none = u := by
    rw [← hport]
    rfl
  have haccept : step (u.withPort (some (encode i))) = .next s₁ := by
    have hbusy : (u.withPort (some (encode i))).seq.step ≠ .resp := hidle.trans_ne nofun
    rw [step_take_waits (s := u.withPort (some (encode i))) hw rfl hbusy,
      blockTurn_idle_some (s := u.withPort (some (encode i))) hidle rfl, hfree, acceptRecord_of_ok (decode_encode i)]
    exact h.accepts
  obtain ⟨ho₁, ho₂⟩ := h.owned
  have hframe := (exec_accepts h.accepts hidle).1
  have hw₁ : s₁.wellSet = true := hframe ▸ hw
  have hevents₁ : s₁.events = .take :: rest := hframe ▸ rfl
  have hcmd₁ : s₁.cmd = latchOf i := hframe ▸ rfl
  obtain ⟨hw₂, hevents₂, hcmd₂⟩ := exec_inFlight_frame ho₁ hcmd₁ h.first
  obtain ⟨hw₃, hevents₃, -⟩ := exec_inFlight_frame ho₂ hcmd₂ h.second
  have hfirst : step s₁ = .next s₂ := (step_inFlight hw₁ hevents₁ ho₁ hcmd₁).trans h.first
  have hsecond : step s₂ = .next s₃ :=
    (step_inFlight (hw₂.trans hw₁) (hevents₂.trans hevents₁) ho₂ hcmd₂).trans h.second
  have htake : step s₃ = .next (s₃.withEvents rest).takeResponse :=
    step_event ((hw₃.trans hw₂).trans hw₁) ((hevents₃.trans hevents₂).trans hevents₁) (by simp [Event.ready, h.responds])
  simp only [run_succ, hpresent, haccept, hfirst, hsecond, htake, andThen_next, run_zero]

/-- After a WRITE a READ of the register answers the value: a write of R_DIG_CTRL ends the self-clearing of F_VR_RST
(41_accessor.md R112, log 10). -/
theorem writeDone_read {s : State} (r v : Word) (hk : s.window.kind = .reference) :
    let w := (s.writeDone r v).window
    (w.selecting r).read s.params .xrd (.data (lo r)) = (v, w) := by
  intro w
  have hidx : w.idx = indexWord r := Window.write_data_idx ..
  have hselecting : w.selecting r = w := by rw [Window.selecting, ← hidx]
  have hkind : w.kind = .reference := (Window.write_kind ..).trans hk
  have hn : w.select (lo r) = r := Window.select_of_idx hidx
  have hload : w.reg.loadWord s.params.byteOrder r = v := writeDone_regValue r v hk
  rw [hselecting]
  by_cases hdig : r = s.params.rDigCtrl
  · have hends : w.vr = .none := by
      have hn' := ((s.window.selecting_select r).trans hdig)
      exact congrArg Window.vr (Window.write_digCtrl s.params .xwr v (s.window.selecting r) (lo r) hk hn' (by decide))
    rw [Window.read_digCtrl _ _ _ _ hkind (hn.trans hdig), Window.readDigCtrl_reg _ _ _ _ (.inl hends), ← hdig, hload]
  · rw [Window.read_other _ _ _ _ hkind (by rwa [hn]), hn, hload]

/-- Settles O17: two presented commands, the second of which reads what the first wrote. -/
theorem writeThenReadReturnsTheValue : Obligations.WriteThenReadReturnsTheValue := by
  unfold Obligations.WriteThenReadReturnsTheValue
  intro s r v d hw hidle hport hk ha hevents
  let s₀ := s.withEvents [.take, .present (encode (.read r d)), .take]
  obtain ⟨_, hwrite⟩ := runs_write (s := s₀) v hidle ha
  let t := ((s₀.writeDone r v).withEvents [.present (encode (.read r d)), .take]).takeResponse
  have hfirst : run 5 s = .next t := run_command hw hidle hport hevents hwrite
  have hkind : t.window.kind = s.window.kind := Window.write_kind ..
  have ha' : t.canAccess r = true := (State.canAccess_congr (s := s) (t := t) rfl rfl hkind r).trans ha
  obtain ⟨_, hread⟩ := runs_read (s := t.withEvents [.take]) d rfl ha'
  let t' := (((t.withEvents [.take]).readDone r d).withEvents []).takeResponse
  have hsecond : run 5 t = .next t' := run_command (s := t) hw rfl hport rfl hread
  have hanswer : (t.window.selecting r).read t.params .xrd (.data (lo r)) = (v, t.window) := writeDone_read (s := s₀) r v hk
  have hword : (t.withEvents [.take]).wouldRead .xrd r = v := congrArg Prod.fst hanswer
  have hwindow : t'.window = t.window := congrArg Prod.snd hanswer
  have htaken : t'.taken = s.taken ++ [⟨.ok, 0#32⟩] ++ [⟨.ok, v⟩] := hword ▸ rfl
  have hbus : t'.bus = s.bus ++ [s.indexTxn r, s.writeTxn r v] ++ [s.indexTxn r, s.readTxn r v] :=
    congrArg (fun a => s.bus ++ [s.indexTxn r, s.writeTxn r v] ++ [s.indexTxn r, s.readTxn r a]) hword
  have hidx : t.window.idx = indexWord r := Window.write_data_idx s.params .xwr v (s.window.selecting r) (lo r)
  have hvalue : t.window.reg.loadWord s.params.byteOrder r = v := writeDone_regValue (s := s₀) r v hk
  have hrun : run 10 s = .next t' := by rw [show 10 = 5 + 5 from rfl, run_add, hfirst, andThen_next, hsecond]
  rw [List.append_assoc] at htaken hbus
  rw [← hwindow] at hidx hvalue
  have hparams : t'.params = s.params := by simp [t', t, s₀]
  have hport' : t'.port = none := by simpa [t', t, s₀] using hport
  rw [← hparams] at hvalue
  exact ⟨t', hrun, htaken, rfl, hvalue, hidx, hport', hbus⟩

end Sys2Proof.Machine
end

section
/-! Frames (spec/41_accessor.md R110, R111; spec/42_sequencer.md R130; spec/10_state.md R24, R36): what a transaction leaves alone
of the window, of `acc` and of RSP, and with it what each command's meaning leaves alone. -/

namespace Sys2Proof.Machine

/-- Everything a command's meaning can answer: acceptance, its next transaction, or waiting. -/
theorem exec_cases {i : Instr} {s t : State} (h : exec i s = .next t) : s.seq.step = .idle ∨
    (s.seq.step ≠ .idle ∧ ownsStep i s.seq.step = true ∧ s.cmd = latchOf i ∧ advance s = .next t) ∨
    (s.seq.step ≠ .idle ∧ ¬(ownsStep i s.seq.step = true ∧ s.cmd = latchOf i) ∧ t = s) := by
  by_cases hidle : s.seq.step = .idle
  · exact .inl hidle
  · refine .inr ?_
    cases i
    · exact (runCommand_cases (exec_read .. ▸ h)).resolve_left fun h => hidle h.1
    · exact (runCommand_cases (exec_write .. ▸ h)).resolve_left fun h => hidle h.1
    · exact (runCommand_cases (exec_init .. ▸ h)).resolve_left fun h => hidle h.1
    · exact (runCommand_cases (exec_setane .. ▸ h)).resolve_left fun h => hidle h.1

section
variable {s t : State} (h : advance s = .next t)
include h

/-- The window after a transaction that the bus ends without an error. -/
theorem advance_window : t.window =
    match s.seq.phase with
    | .ri | .wi => { s.window with idx := indexWord s.reg }
    | .rd => (s.window.read s.params s.seq.step (.data (lo s.reg))).2
    | .wd => s.window.write s.params s.seq.step (.data (lo s.reg)) s.acc := by
  obtain ⟨-, -, rfl⟩ := advance_eq_next.1 h
  rw [donePhase_window]
  cases s.seq.phase <;> rfl

/-- `acc` changes in a data read and in a modify only (10_state.md R24). -/
theorem advance_acc (hf : s.seq.phase = .ri ∨ s.seq.phase = .wd) : t.acc = s.acc := by
  obtain ⟨-, -, rfl⟩ := advance_eq_next.1 h
  rw [donePhase_acc]
  rcases hf with hf | hf <;> rw [hf]

/-- An index write leaves everything of the window but IDX. -/
theorem advance_index_window (hf : s.seq.phase = .ri ∨ s.seq.phase = .wi) :
    t.window = { s.window with idx := indexWord s.reg } := by
  rw [advance_window h]
  rcases hf with hf | hf <;> rw [hf]

/-- A data access leaves IDX (10_state.md R31). -/
theorem advance_data_idx (hf : s.seq.phase = .rd ∨ s.seq.phase = .wd) : t.window.idx = s.window.idx := by
  rw [advance_window h]
  rcases hf with hf | hf <;> rw [hf]
  · exact Window.read_idx ..
  · exact Window.write_data_idx ..

/-- The coming draws change in S3D's data write only (10_state.md R33). -/
theorem advance_vrScript (hf : s.seq ≠ ⟨.s3d, .wd⟩) : t.window.vrScript = s.window.vrScript := by
  rw [advance_window h]
  cases hphase : s.seq.phase
  case ri | wi => rfl
  case rd => exact Window.read_vrScript ..
  case wd => exact (Window.write_data_draws _ _ _ _ _ fun hs3d => hf (State.seq_eq hs3d hphase)).1

/-- The self-clearing changes in a data write and a poll read of R_DIG_CTRL only (10_state.md R36, log 10). -/
theorem advance_vr (hf : (s.seq.phase ≠ .wd ∧ s.seq ≠ ⟨.s3p, .rd⟩) ∨ s.window.select (lo s.reg) ≠ s.params.rDigCtrl) :
    t.window.vr = s.window.vr := by
  rw [advance_window h]
  cases hphase : s.seq.phase
  case ri | wi => rfl
  case rd => exact Window.read_vr _ _ _ (hf.imp_left fun h hs3p => h.2 (State.seq_eq hs3p hphase))
  case wd => exact Window.write_data_vr _ _ _ _ _ fun h => hf.resolve_left (fun h => h.1 hphase) h.2

/-- A byte of the reference window changes in a data write of its register, and in a read that clears F_VR_RST there. -/
theorem advance_byte {a : Nat} (hout : s.window.kind = .reference →
    (s.seq.phase = .wd ∨ (s.seq.phase = .rd ∧ s.window.select (lo s.reg) = s.params.rDigCtrl ∧ s.window.vr = .setFor 0)) →
      ¬inRegister (s.window.select (lo s.reg)) a) : t.window.reg.byte a = s.window.reg.byte a := by
  rw [advance_window h]
  cases hf : s.seq.phase
  case ri | wi => rfl
  case rd =>
    by_cases hclears : s.window.kind = .reference ∧ s.window.select (lo s.reg) = s.params.rDigCtrl ∧ s.window.vr = .setFor 0
    · exact Window.read_byte _ _ _ _ (hout hclears.1 (.inr ⟨hf, hclears.2⟩))
    · exact congrArg (Memory.byte · a) (Window.read_reg_of_not_clearing _ _ _ _ hclears)
  case wd =>
    by_cases hk : s.window.kind = .reference
    · exact Window.write_byte _ _ _ _ _ (hout hk (.inl hf))
    · have horacle : s.window.kind = .oracle := by cases hkind : s.window.kind <;> simp_all
      show (s.window.write _ _ _ _).reg.byte a = _
      rw [Window.write_oracle _ _ _ _ _ horacle]

/-- An index write leaves RSP. -/
theorem advance_index_rsp (hf : s.seq.phase = .ri ∨ s.seq.phase = .wi) : t.rsp = s.rsp := by
  rcases advance_cases h with ⟨-, hrsp, -⟩ | ⟨hphase, -⟩ | ⟨hphase, -⟩
  · exact hrsp
  · simp [hphase] at hf
  · simp [hphase] at hf

/-- Outside S3D and S3P `pollcnt` stays (42_sequencer.md R161). -/
theorem advance_pollcnt_of_ne (hs3d : s.seq.step ≠ .s3d) (hs3p : s.seq.step ≠ .s3p) : t.pollcnt = s.pollcnt := by
  rw [advance_pollcnt h, if_neg (fun h => hs3d (congrArg Seq.step h)), if_neg (fun h => hs3p (congrArg Seq.step h)),
    ite_self]

end

/-- Acceptance of another command than WRITE leaves `acc`. -/
theorem exec_accepts_acc {i : Instr} {s t : State} (h : exec i s = .next t) (hidle : s.seq.step = .idle)
    (hi : ∀ r v, i ≠ .write r v) : t.acc = s.acc := by
  rcases (exec_accepts h hidle).2 with ⟨_, _, -, -, hacc, -⟩ | ⟨r, v, hwrite, -⟩ | ⟨_, _, _, -, hacc, -⟩ |
    ⟨_, _, -, -, hacc, -⟩ | ⟨_, _, -, -, hacc, -⟩
  · exact hacc
  · exact absurd hwrite (hi r v)
  · exact hacc
  · exact hacc
  · exact hacc

/-- Settles O42: acceptance touches the latch, the sequencer and RSP, and a transaction what the lemmas above say. -/
theorem sequencerFrame : Obligations.SequencerFrame := by
  unfold Obligations.SequencerFrame
  intro s t i hi hexec
  rcases exec_cases hexec with hidle | ⟨hidle, howns, hcmd, hadvance⟩ | ⟨hidle, -, rfl⟩
  · obtain ⟨-, hport, hbus, hwindow, hparams, hcfg, htaken, hpollcnt⟩ := exec_accepts_frame hexec hidle
    have hframe := (exec_accepts hexec hidle).1
    have hevents : t.events = s.events := hframe ▸ rfl
    have hacc : t.acc = s.acc := exec_accepts_acc hexec hidle (by rintro r v rfl; simp at hi)
    have hrsp : t.seq.step ≠ .resp → t.rsp = s.rsp := (exec_accepts_rsp hexec hidle).resolve_right
    rw [hwindow]
    exact ⟨hparams, hcfg, hport, htaken, hevents, rfl, fun _ _ => rfl, fun h => absurd hidle h,
      fun _ => ⟨rfl, hbus, hacc, hpollcnt⟩, fun _ => hacc, fun _ => hpollcnt, fun _ => rfl, fun _ => rfl, fun _ => rfl, hrsp⟩
  · obtain ⟨hparams, hcfg, hcmd, hport, htaken, hevents, hkind⟩ := advance_frame hadvance
    have hbusy : s.seq.step.busy = true := busy_of_ownsStep howns
    refine ⟨hparams, hcfg, hport, htaken, hevents, hkind, fun a hout => advance_byte hadvance fun hk hf => hout ⟨hbusy, hk, hf⟩,
      fun _ => hcmd, fun h => absurd h hidle, advance_acc hadvance, fun hcount => ?_, advance_vr hadvance,
      advance_vrScript hadvance, advance_data_idx hadvance, (advance_rsp hadvance).resolve_right⟩
    rw [advance_pollcnt hadvance]
    split_ifs <;> simp_all
  · exact ⟨rfl, rfl, rfl, rfl, rfl, rfl, fun _ _ => rfl, fun _ => rfl, fun h => absurd h hidle, fun _ => rfl, fun _ => rfl,
      fun _ => rfl, fun _ => rfl, fun _ => rfl, fun _ => rfl⟩

/-- Settles O40: READ's two transactions are those of XRD, which writes nothing but IDX and, in its data read, `acc` and RSP. -/
theorem readFrame : Obligations.ReadFrame := by
  unfold Obligations.ReadFrame
  intro s t r d hexec
  rcases exec_cases hexec with hidle | ⟨hidle, howns, hcmd, hadvance⟩ | ⟨hidle, hwaits, rfl⟩
  · obtain rfl := Host.Outcome.next.inj ((exec_read_idle r d hidle).symm.trans hexec)
    exact ⟨rfl, rfl, rfl, rfl, rfl, rfl, fun _ _ => rfl, rfl, rfl, rfl, fun h => absurd hidle h,
      fun _ => ⟨rfl, rfl, rfl⟩, fun _ => rfl, fun _ => ⟨rfl, rfl⟩, fun h => absurd hidle h⟩
  · have hxrd : s.seq.step = .xrd := eq_of_beq howns
    have hcmd : s.cmd = cmdRead r d := hcmd
    have hreg : s.reg = r := by rw [State.reg, hxrd, hcmd]; rfl
    have hphase : s.seq.phase = .ri ∨ s.seq.phase = .rd := by
      have huses := advance_uses hadvance
      rw [hxrd] at huses
      cases hf : s.seq.phase <;> simp [hf, SeqStep.uses] at huses ⊢
    have hvr : t.window.vr = s.window.vr :=
      advance_vr hadvance (.inl ⟨by rcases hphase with hf | hf <;> simp [hf], fun h => by simp [h] at hxrd⟩)
    have hdraws : t.window.vrScript = s.window.vrScript := advance_vrScript hadvance fun h => by simp [h] at hxrd
    obtain ⟨hparams, hcfg, hcmd', hport, htaken, hevents, hkind⟩ := advance_frame hadvance
    refine ⟨hparams, hcfg, advance_pollcnt_of_ne hadvance (by simp [hxrd]) (by simp [hxrd]), hport, htaken, hevents,
      fun a hout => advance_byte hadvance fun hk hf => ?_, hkind, hvr, hdraws, fun _ => hcmd', fun hnot => ?_,
      fun hnot => ?_, fun hnot => absurd ⟨hxrd, hcmd⟩ hnot, fun _ hnot => absurd ⟨hxrd, hcmd⟩ hnot⟩
    · obtain ⟨hf, hn, hv⟩ := hf.resolve_left (by rcases hphase with hf | hf <;> simp [hf])
      rw [hn]
      exact hout ⟨State.seq_eq hxrd hf, hcmd, hk, hreg ▸ hn, hv⟩
    · have hf : s.seq.phase = .ri := hphase.resolve_right fun hf => hnot ⟨State.seq_eq hxrd hf, hcmd⟩
      exact ⟨advance_acc hadvance (.inl hf), advance_index_rsp hadvance (.inl hf),
        by rw [advance_index_window hadvance (.inl hf)]⟩
    · have hf : s.seq.phase = .rd := hphase.resolve_left fun hf => hnot ⟨State.seq_eq hxrd hf, hcmd⟩
      exact advance_data_idx hadvance (.inl hf)
  · have hnot : ¬(t.seq.step = .xrd ∧ t.cmd = cmdRead r d) := fun h => hwaits ⟨by rw [h.1]; rfl, h.2⟩
    exact ⟨rfl, rfl, rfl, rfl, rfl, rfl, fun _ _ => rfl, rfl, rfl, rfl, fun _ => rfl, fun _ => ⟨rfl, rfl, rfl⟩, fun _ => rfl,
      fun _ => ⟨rfl, rfl⟩, fun _ _ => rfl⟩

/-- Settles O41: WRITE's two transactions are those of XWR, which writes IDX, and in its data write the register and RSP. -/
theorem writeFrame : Obligations.WriteFrame := by
  unfold Obligations.WriteFrame
  intro s t r v hexec
  rcases exec_cases hexec with hidle | ⟨hidle, howns, hcmd, hadvance⟩ | ⟨hidle, hwaits, rfl⟩
  · obtain rfl := Host.Outcome.next.inj ((exec_write_idle r v hidle).symm.trans hexec)
    have hnot : s.seq ≠ ⟨.xwr, .wd⟩ := fun h => by simp [h] at hidle
    exact ⟨rfl, rfl, rfl, rfl, rfl, rfl, rfl, rfl, rfl, (if_neg fun h => hnot h.1).symm, fun _ _ => rfl,
      fun h => absurd hidle h, fun _ => rfl, fun _ => rfl, fun h => absurd hidle h⟩
  · have hxwr : s.seq.step = .xwr := eq_of_beq howns
    have hcmd : s.cmd = cmdWrite r v := hcmd
    have hreg : s.reg = r := by rw [State.reg, hxwr, hcmd]; rfl
    have hphase : s.seq.phase = .wi ∨ s.seq.phase = .wd := by
      have huses := advance_uses hadvance
      rw [hxwr] at huses
      cases hf : s.seq.phase <;> simp [hf, SeqStep.uses] at huses ⊢
    have hscript : t.window.vrScript = s.window.vrScript := advance_vrScript hadvance fun h => by simp [h] at hxwr
    have hdraws : t.window.draws = s.window.draws := by
      rw [advance_window hadvance, hxwr]
      rcases hphase with hf | hf <;> rw [hf]
      exact (Window.write_data_draws _ _ _ _ _ (by decide)).2
    have hvr : t.window.vr = if s.seq = ⟨.xwr, .wd⟩ ∧ s.cmd = cmdWrite r v ∧ s.window.kind = .reference ∧
        s.window.select (lo r) = s.params.rDigCtrl then .none else s.window.vr := by
      rw [advance_window hadvance]
      rcases hphase with hf | hf <;> rw [State.seq_eq hxwr hf]
      · simp
      · simp only [hcmd, true_and, hreg]
        exact Window.write_vr_of_ne_s3d _ _ _ _ (by decide)
    obtain ⟨hparams, hcfg, hcmd', hport, htaken, hevents, hkind⟩ := advance_frame hadvance
    refine ⟨hparams, hcfg, advance_pollcnt_of_ne hadvance (by simp [hxwr]) (by simp [hxwr]), hport, htaken, hevents,
      hkind, hscript, hdraws, hvr, fun a hout => advance_byte hadvance fun hk hf => ?_,
      fun _ => ⟨hcmd', advance_xwr_acc hadvance hxwr⟩, fun hnot => ?_, fun hnot => ?_,
      fun _ hnot => absurd ⟨hxwr, hcmd⟩ hnot⟩
    · have hf : s.seq.phase = .wd := hf.resolve_right (by rcases hphase with hf | hf <;> simp [hf])
      rw [hreg]
      exact hout ⟨State.seq_eq hxwr hf, hcmd, hk⟩
    · have hf : s.seq.phase = .wi := hphase.resolve_right fun hf => hnot ⟨State.seq_eq hxwr hf, hcmd⟩
      exact advance_index_rsp hadvance (.inr hf)
    · have hf : s.seq.phase = .wd := hphase.resolve_left fun hf => hnot ⟨State.seq_eq hxwr hf, hcmd⟩
      exact advance_data_idx hadvance (.inr hf)
  · have hnot : ¬(t.seq.step = .xwr ∧ t.cmd = cmdWrite r v) := fun h => hwaits ⟨by rw [h.1]; rfl, h.2⟩
    refine ⟨rfl, rfl, rfl, rfl, rfl, rfl, rfl, rfl, rfl, (if_neg fun h => hnot ⟨congrArg Seq.step h.1, h.2.1⟩).symm,
      fun _ _ => rfl, fun _ => ⟨rfl, rfl⟩, fun _ => rfl, fun _ => rfl, fun _ _ => rfl⟩

end Sys2Proof.Machine
end

section
/-! Nothing is kept between commands (spec/10_state.md R21): two blocks that agree where a value is still to be read make the
same transactions. -/

namespace Sys2Proof.Machine

/-- Two machines whose blocks agree in everything a command still reads: the latch while a command runs, `acc` from a modify to
its write, `pollcnt` in a bounded poll, RSP while it waits. -/
structure Alike (s s' : State) : Prop where
  params : s'.params = s.params
  cfg : s'.cfg = s.cfg
  seq : s'.seq = s.seq
  bus : s'.bus = s.bus
  window : s'.window = s.window
  cmd : s.seq.step ≠ .idle → s'.cmd = s.cmd
  acc : s.seq.step.busy = true → (s.seq.phase = .wi ∨ s.seq.phase = .wd) → s'.acc = s.acc
  pollcnt : s.seq.step = .s3p → s.cfg.pollLimit ≠ none → s'.pollcnt = s.pollcnt
  rsp : s.seq.step = .resp → s'.rsp = s.rsp

/-- The poll is entered from S3D and from itself (42_sequencer.md R134). -/
theorem completeStep_to_poll {s : State} (hbusy : s.seq.step.busy = true) (h : (completeStep s).seq.step = .s3p) :
    s.seq.step = .s3d ∨ s.seq.step = .s3p := by
  rcases completeStep_rows s hbusy with ⟨y, n, hgoto, hrow⟩ | ⟨st, d, hfinish, -⟩
  · rw [hgoto] at h
    obtain rfl : y = .s3p := h
    simp only [reduceCtorEq, false_and, and_false, false_or, or_false, true_and] at hrow
    exact hrow.imp And.left And.left
  · rw [hfinish] at h
    cases h

/-- Without a POLL_LIMIT the poll is never spent (42_sequencer.md R164). -/
theorem pollSpent_congr {l : Option Nat} {n n' : Nat} (h : l ≠ none → n' = n) : pollSpent l n' = pollSpent l n := by
  cases l with
  | none => rfl
  | some l => rw [h nofun]

/-- The decision after a step reads `acc`, the mode and, in a bounded poll, `pollcnt`; what it leaves is alike. -/
theorem Alike.completes {s s' : State} (hbusy : s.seq.step.busy = true) (hparams : s'.params = s.params)
    (hcfg : s'.cfg = s.cfg) (hseq : s'.seq = s.seq) (hbus : s'.bus = s.bus) (hwindow : s'.window = s.window)
    (hcmd : s'.cmd = s.cmd) (hacc : s'.acc = s.acc)
    (hpollcnt : s.seq.step = .s3p → s.cfg.pollLimit ≠ none → s'.pollcnt = s.pollcnt) :
    Alike (completeStep s) (completeStep s') := by
  have hgo : (completeStep s').seq = (completeStep s).seq ∧
      ((completeStep s).seq.step = .resp → (completeStep s').rsp = (completeStep s).rsp) := by
    cases hx : s.seq.step <;> simp only [completeStep, hseq, hx]
    case idle | resp => simp [hx, SeqStep.busy] at hbusy
    case s1 =>
      simp only [afterS1, hparams, hacc, hcmd]
      split_ifs <;> simp_all
    case s2b =>
      rw [hcfg]
      split_ifs <;> simp_all
    case s3p =>
      simp only [afterPoll, hparams, hacc, hcfg, pollSpent_congr (hpollcnt hx)]
      split_ifs <;> simp_all
    case xrd => exact ⟨rfl, fun _ => by rw [State.finish_rsp, State.finish_rsp, hacc]⟩
    case xwr | s5 | sane => exact ⟨rfl, fun _ => rfl⟩
    all_goals exact ⟨rfl, nofun⟩
  refine ⟨?_, ?_, hgo.1, ?_, ?_, fun _ => ?_, fun _ hf => ?_, fun hs3p hlimit => ?_, hgo.2⟩
  · simp only [completeStep_params, hparams]
  · simp only [completeStep_cfg, hcfg]
  · simp only [completeStep_bus, hbus]
  · simp only [completeStep_window, hwindow]
  · simp only [completeStep_cmd, hcmd]
  · simp [(completeStep_phase hbusy).2] at hf
  · rw [completeStep_cfg] at hlimit
    rw [completeStep_pollcnt, completeStep_pollcnt, hseq, hcfg]
    rcases completeStep_to_poll hbusy hs3p with hx | hx
    · simp [hx, hlimit]
    · simp [hx, hpollcnt hx hlimit]

theorem exec_setane_idle {s : State} (r d : Word) (hidle : s.seq.step = .idle) :
    exec (.setane true r d) s = .next { s with seq := ⟨.sane, .ri⟩, cmd := cmdSetane true r d } :=
  (exec_setane ..).trans (runCommand_idle hidle)

/-- A command that is not the one in flight changes nothing (30_encoding.md R86, log 1). -/
theorem exec_waits {i : Instr} {s : State} (hidle : s.seq.step ≠ .idle)
    (hwaits : ¬(ownsStep i s.seq.step = true ∧ s.cmd = latchOf i)) : exec i s = .next s := by
  have key (c : Cmd) (own : SeqStep → Bool) (start : State → State) (h : ¬(own s.seq.step = true ∧ s.cmd = c)) :
      runCommand c own start s = .next s := by
    have hown : (own s.seq.step && s.cmd == c) = false := by simpa using h
    simp [runCommand, hidle, hown]
  cases i
  · exact (exec_read ..).trans (key _ _ _ hwaits)
  · exact (exec_write ..).trans (key _ _ _ hwaits)
  · exact (exec_init ..).trans (key _ _ _ hwaits)
  · exact (exec_setane ..).trans (key _ _ _ hwaits)

section
variable {s s' t : State} (h : Alike s s')
include h

theorem Alike.reg (hidle : s.seq.step ≠ .idle) : s'.reg = s.reg := by
  rw [State.reg, State.reg, h.seq, h.params, h.cmd hidle]

/-- Two machines alike make the same transaction and are alike after it. -/
theorem Alike.advances (hadvance : advance s = .next t) : ∃ t', advance s' = .next t' ∧ Alike t t' := by
  obtain ⟨huses, ha, rfl⟩ := advance_eq_next.1 hadvance
  have hbusy : s.seq.step.busy = true := uses_busy huses
  have hcmd : s'.cmd = s.cmd := h.cmd (busy_ne hbusy).1
  have hreg : s'.reg = s.reg := h.reg (busy_ne hbusy).1
  have htarget : s'.phaseTarget = s.phaseTarget := by rw [State.phaseTarget, State.phaseTarget, h.seq, hreg]
  have ha' : s'.accessible s'.phaseTarget = true := by
    rw [htarget, State.accessible_congr h.params h.cfg (congrArg Window.kind h.window)]
    exact ha
  refine ⟨s'.donePhase, advance_of (h.seq ▸ huses) ha', ?_⟩
  have haddr (x : Target) : s'.addrOf x = s.addrOf x := State.addrOf_congr h.params h.cfg x
  cases hf : s.seq.phase <;> simp only [State.donePhase, h.seq, hf]
  case ri =>
    refine ⟨h.params, h.cfg, ?_, ?_, ?_, fun _ => hcmd, fun _ hf => ?_, fun hs3p => h.pollcnt hs3p, fun hr => h.rsp hr⟩
    · simp [State.doneRI, h.seq]
    · simp [State.doneRI, h.bus, haddr, hreg]
    · simp [State.doneRI, h.window, h.params, h.seq, hreg]
    · simp [State.doneRI] at hf
  case rd =>
    have hpeek : s'.peek (.data (lo s.reg)) = s.peek (.data (lo s.reg)) := by
      rw [State.peek, State.peek, h.window, h.params, h.seq]
    have hbus : s'.haveRead.bus = s.haveRead.bus := by simp [State.haveRead, h.bus, haddr, hreg, hpeek]
    have hwindow : s'.haveRead.window = s.haveRead.window := by
      simp [State.haveRead, h.window, h.params, h.seq, hreg]
    have hacc : s'.haveRead.acc = s.haveRead.acc := by simp [State.haveRead, hreg, hpeek]
    simp only [State.doneRD, h.seq]
    split_ifs with hwi
    · exact ⟨h.params, h.cfg, rfl, hbus, hwindow, fun _ => hcmd, fun _ _ => hacc, fun hs3p => h.pollcnt hs3p,
        fun hr => h.rsp hr⟩
    · have hcount (hs3p : s.seq.step = .s3p) (hlimit : s.cfg.pollLimit ≠ none) :
          s'.polled.pollcnt = s.polled.pollcnt := by
        rw [polled_pollcnt hs3p, polled_pollcnt (h.seq ▸ hs3p), h.cfg, h.pollcnt hs3p hlimit]
      refine .completes (s := s.polled) (s' := s'.polled) ?_ ?_ ?_ ?_ ?_ ?_ ?_ ?_ ?_ <;>
        simp only [countPoll_seq, countPoll_params, countPoll_cfg, countPoll_bus, countPoll_window, countPoll_cmd,
          countPoll_acc]
      exacts [hbusy, h.params, h.cfg, h.seq, hbus, hwindow, hcmd, hacc, hcount]
  case wi =>
    have hacc : s'.acc = s.acc := h.acc hbusy (.inl hf)
    refine ⟨h.params, h.cfg, ?_, ?_, ?_, fun _ => hcmd, fun _ hf => ?_, fun hs3p => h.pollcnt hs3p, fun hr => h.rsp hr⟩
    · simp [State.doneWI, h.seq]
    · simp [State.doneWI, h.bus, haddr, hreg]
    · simp [State.doneWI, h.window, h.params, h.seq, hreg]
    · simp [State.doneWI, h.seq, h.params, h.cfg, hacc]
  case wd =>
    have hacc : s'.acc = s.acc := h.acc hbusy (.inr hf)
    refine .completes (s := s.haveWritten) (s' := s'.haveWritten) hbusy h.params h.cfg h.seq ?_ ?_ hcmd hacc h.pollcnt
    · simp [State.haveWritten, h.bus, haddr, hreg, hacc]
    · simp [State.haveWritten, h.window, h.params, h.seq, hreg, hacc]

/-- An IDLE block accepts a command alike, whatever the block holds from the one before. -/
theorem Alike.accepts {i : Instr} (hidle : s.seq.step = .idle) (hexec : exec i s = .next t) :
    ∃ t', exec i s' = .next t' ∧ Alike t t' := by
  have hidle' : s'.seq.step = .idle := h.seq ▸ hidle
  cases i with
  | read r d =>
    obtain rfl := Host.Outcome.next.inj ((exec_read_idle r d hidle).symm.trans hexec)
    exact ⟨_, exec_read_idle r d hidle', h.params, h.cfg, rfl, h.bus, h.window, fun _ => rfl, fun _ => nofun, nofun, nofun⟩
  | write r v =>
    obtain rfl := Host.Outcome.next.inj ((exec_write_idle r v hidle).symm.trans hexec)
    exact ⟨_, exec_write_idle r v hidle', h.params, h.cfg, rfl, h.bus, h.window, fun _ => rfl, fun _ _ => rfl, nofun, nofun⟩
  | init m r d =>
    by_cases hm : (m = .other ∨ m = .other3) ∧ s.cfg.unsupportedModeFails = true
    · obtain rfl := Host.Outcome.next.inj ((exec_init_fails r d hidle hm.1 hm.2).symm.trans hexec)
      exact ⟨_, exec_init_fails r d hidle' hm.1 (h.cfg ▸ hm.2), h.params, h.cfg, rfl, h.bus, h.window, fun _ => rfl, nofun,
        nofun, fun _ => rfl⟩
    · obtain rfl := Host.Outcome.next.inj ((exec_init_starts r d hidle hm).symm.trans hexec)
      exact ⟨_, exec_init_starts r d hidle' (h.cfg ▸ hm), h.params, h.cfg, rfl, h.bus, h.window, fun _ => rfl,
        fun _ => nofun, nofun, nofun⟩
  | setane e r d =>
    cases e with
    | false =>
      obtain rfl := Host.Outcome.next.inj ((setaneZeroIsANoOpThatResponds s r d hidle).symm.trans hexec)
      exact ⟨_, setaneZeroIsANoOpThatResponds s' r d hidle', h.params, h.cfg, rfl, h.bus, h.window, fun _ => rfl, nofun,
        nofun, fun _ => rfl⟩
    | true =>
      obtain rfl := Host.Outcome.next.inj ((exec_setane_idle r d hidle).symm.trans hexec)
      exact ⟨_, exec_setane_idle r d hidle', h.params, h.cfg, rfl, h.bus, h.window, fun _ => rfl, fun _ => nofun, nofun,
        nofun⟩

/-- Two machines alike run a command's next block step alike. -/
theorem Alike.exec {i : Instr} (hexec : exec i s = .next t) : ∃ t', exec i s' = .next t' ∧ Alike t t' := by
  rcases exec_cases hexec with hidle | ⟨hidle, howns, hcmd, hadvance⟩ | ⟨hidle, hwaits, rfl⟩
  · exact h.accepts hidle hexec
  · obtain ⟨t', hadvance', halike⟩ := h.advances hadvance
    exact ⟨t', (exec_eq_advance (h.seq ▸ howns) ((h.cmd hidle).trans hcmd)).trans hadvance', halike⟩
  · rw [← h.seq, ← h.cmd hidle] at hwaits
    exact ⟨s', exec_waits (h.seq ▸ hidle) hwaits, h⟩

omit h in
theorem Alike.execRun {i : Instr} {k : Nat} (h : Alike s s') (hrun : execRun i k s = .next t) :
    ∃ t', execRun i k s' = .next t' ∧ Alike t t' := by
  induction k generalizing s s' with
  | zero =>
    cases hrun
    exact ⟨s', rfl, h⟩
  | succ k ih =>
    obtain ⟨u, hu, hrun⟩ := andThen_eq_next.1 hrun
    obtain ⟨u', hu', h'⟩ := h.exec hu
    obtain ⟨t', ht', halike⟩ := ih h' hrun
    exact ⟨t', andThen_eq_next.2 ⟨u', hu', ht'⟩, halike⟩

end

/-- Settles O38: an IDLE block reads none of CMD, `acc`, `pollcnt` and RSP, so the two are alike. -/
theorem nothingIsKeptBetweenCommands : Obligations.NothingIsKeptBetweenCommands := by
  unfold Obligations.NothingIsKeptBetweenCommands
  intro s t c a n q i k hidle hrun
  have hbusy : s.seq.step.busy ≠ true := by rw [hidle]; nofun
  have h : Alike s { s with cmd := c, acc := a, pollcnt := n, rsp := q } :=
    ⟨rfl, rfl, rfl, rfl, rfl, fun h => absurd hidle h, fun h => absurd h hbusy, fun h => by simp [hidle] at h,
      fun h => by simp [hidle] at h⟩
  obtain ⟨t', hrun', h'⟩ := h.execRun hrun
  exact ⟨t', hrun', h'.seq, h'.bus, h'.window, h'.rsp⟩

end Sys2Proof.Machine
end

section
/-! Runs of INIT and SETANE (spec/42_sequencer.md sections 2 and 4): what every state of a run keeps of the state after
acceptance, and the chain of read-modify-write steps. -/

namespace Sys2Proof.Machine

/-- What no transaction of a run changes. -/
structure Keeps (s t : State) : Prop where
  params : t.params = s.params
  cfg : t.cfg = s.cfg
  cmd : t.cmd = s.cmd
  port : t.port = s.port
  taken : t.taken = s.taken
  events : t.events = s.events
  kind : t.window.kind = s.window.kind

theorem Keeps.refl (s : State) : Keeps s s := ⟨rfl, rfl, rfl, rfl, rfl, rfl, rfl⟩

theorem Keeps.trans {s t u : State} (h : Keeps s t) (h' : Keeps t u) : Keeps s u :=
  ⟨h'.params.trans h.params, h'.cfg.trans h.cfg, h'.cmd.trans h.cmd, h'.port.trans h.port, h'.taken.trans h.taken,
    h'.events.trans h.events, h'.kind.trans h.kind⟩

theorem Keeps.canAccess {s t : State} (h : Keeps s t) (r : Word) : t.canAccess r = s.canAccess r :=
  State.canAccess_congr h.params h.cfg h.kind r

theorem Keeps.rmwTxns {s t : State} (h : Keeps s t) (x : SeqStep) (a : Word) : t.rmwTxns x a = s.rmwTxns x a :=
  rmwTxns_congr h.params h.cfg (by rw [h.cmd]) a

/-- The register a step accesses in this state's run. -/
abbrev State.registerOf (s : State) (x : SeqStep) : Word := x.register s.params s.cmd

/-- The word a step reads first. -/
abbrev State.stepReads (s : State) (x : SeqStep) : Word := s.wouldRead x (s.registerOf x)

/-- A read-modify-write step with its four transactions made and nothing decided yet. -/
def State.does (s : State) (x : SeqStep) : State := (s.goto x).afterRmw

section
variable (s : State) (x : SeqStep)

@[simp] theorem does_step : (s.does x).seq.step = x := rfl
@[simp] theorem does_params : (s.does x).params = s.params := rfl
@[simp] theorem does_cfg : (s.does x).cfg = s.cfg := rfl

theorem keeps_does : Keeps s (s.does x) :=
  ⟨rfl, rfl, rfl, rfl, rfl, rfl, (Window.write_kind ..).trans (Window.read_kind ..)⟩

theorem does_bus : (s.does x).bus = s.bus ++ s.rmwTxns x (s.stepReads x) := rfl

theorem does_vrScript (hx : x ≠ .s3d) : (s.does x).window.vrScript = s.window.vrScript :=
  afterRmw_vrScript (s := s.goto x) hx

theorem does_regValue (hk : s.window.kind = .reference) : (s.does x).regValue (s.registerOf x) =
    x.modify s.params s.cfg.fixedSpeedTest (s.stepReads x) :=
  afterRmw_regValue (s := s.goto x) hk

end

/-- A read-modify-write step of the command in flight: four transactions, then the decision (42_sequencer.md R130). -/
theorem execRun_does {i : Instr} {s : State} {x : SeqStep} (ho : ownsStep i x = true) (hc : s.cmd = latchOf i)
    (hri : x.uses .ri = true) (hwi : x.uses .wi = true) (ha : s.canAccess (s.registerOf x) = true) :
    execRun i 4 (s.goto x) = .next (completeStep (s.does x)) :=
  execRun_rmw (s := s.goto x) ho hc rfl hri hwi ha

/-- Settles O36: SETANE 1 is the step SANE between its acceptance and its response. -/
theorem setaneRunsToItsResponse : Obligations.SetaneRunsToItsResponse := by
  unfold Obligations.SetaneRunsToItsResponse
  intro s r d hidle ha a v
  let s₁ : State := { s with seq := ⟨.sane, .ri⟩, cmd := cmdSetane true r d }
  have hrun : execRun (.setane true r d) 4 s₁ = .next (s₁.afterRmw.finish .ok 0#32) :=
    execRun_rmw (i := .setane true r d) (s := s₁) rfl rfl rfl rfl rfl ha
  exact ⟨s₁, _, exec_setane_idle r d hidle, rfl, hrun, rfl, rfl, rfl, fun hk => afterRmw_regValue (s := s₁) hk,
    afterRmw_idx s₁, rfl, rfl, rfl, rfl, rfl, rfl⟩

/-! S1, and the decision by mode. -/

theorem keeps_afterRead (s : State) : Keeps s s.afterRead := ⟨rfl, rfl, rfl, rfl, rfl, rfl, Window.read_kind ..⟩

/-- The state in which S1 has read of an accepted INIT and found F_SOFT_RST clear. -/
abbrev State.afterS1Read (s : State) (m : PcsMode) (r d : Word) : State := (s.startedInit m r d).afterRead

theorem afterS1Read_bus (s : State) (m : PcsMode) (r d : Word) : (s.afterS1Read m r d).bus = s.bus ++
    [s.indexTxn s.params.rMiiCtrl, s.readTxn s.params.rMiiCtrl (s.wouldRead .s1 s.params.rMiiCtrl)] := rfl

theorem afterS1_of_sgmii {s : State} (h : softResetSet s.params s.acc = false) (hm : s.cmd.mode = 0#2) :
    afterS1 s = s.goto .s2a := by
  rw [afterS1, if_neg (Bool.eq_false_iff.1 h), if_pos hm]

theorem afterS1_of_usxgmii {s : State} (h : softResetSet s.params s.acc = false) (hm : s.cmd.mode = 1#2) :
    afterS1 s = s.goto .s3a := by
  rw [afterS1, if_neg (Bool.eq_false_iff.1 h), if_neg (by rw [hm]; decide), if_pos hm]

/-- A run goes on where another ends. -/
theorem execRun_trans {i : Instr} {j k : Nat} {s t u : State} (h : execRun i j s = .next t) (h' : execRun i k t = .next u) :
    execRun i (j + k) s = .next u := by
  rw [execRun_add, h, andThen_next, h']

/-- An INIT whose registers can be accessed, in the middle of its run: `s` is its state after acceptance. -/
structure InRun (m : PcsMode) (r d : Word) (s t : State) : Prop extends Keeps s t where
  latched : s.cmd = cmdInit m r d
  access : s.canAccessAll = true

section
variable {m : PcsMode} {r d : Word} {s t : State} (h : InRun m r d s t)
include h

theorem InRun.next {u : State} (h' : Keeps t u) : InRun m r d s u := ⟨h.toKeeps.trans h', h.latched, h.access⟩

theorem InRun.cmd_eq : t.cmd = cmdInit m r d := h.cmd.trans h.latched

/-- Every register of INIT's read-modify-write steps can be accessed. -/
theorem InRun.canAccess {x : SeqStep} (hx : x.ofInit = true) (hs1 : x.uses .wi = true) :
    t.canAccess (t.registerOf x) = true := by
  obtain ⟨hmii, hpcs, han, hdig, h2p5g, husxg, hmiiDig⟩ := s.canAccessAll_iff.1 h.access
  rw [h.toKeeps.canAccess, State.registerOf, h.params]
  cases x
  case s2a | s3a => exact hpcs
  case s2b | s4 => exact han
  case s2c => exact h2p5g
  case s3b | s3d => exact hdig
  case s3c => exact husxg
  case s5 => exact hmiiDig
  case s1 | s3p => cases hs1
  case idle | xrd | xwr | sane | resp => cases hx

/-- One read-modify-write step of an INIT, with the step that follows it. -/
theorem InRun.does {x y : SeqStep} (hx : x.ofInit = true) (hri : x.uses .ri = true) (hwi : x.uses .wi = true)
    (hnext : completeStep (t.does x) = (t.does x).goto y) :
    execRun (.init m r d) 4 (t.goto x) = .next ((t.does x).goto y) ∧ InRun m r d s (t.does x) :=
  ⟨hnext ▸ execRun_does (i := .init m r d) hx h.cmd_eq hri hwi (h.canAccess hx hwi), h.next (keeps_does t x)⟩

/-- The end of every INIT that completes. -/
theorem InRun.s4_s5 : execRun (.init m r d) 8 (t.goto .s4) = .next t.afterS4S5 :=
  execRun_s4_s5 h.cmd_eq (h.canAccess (x := .s4) rfl rfl) (h.canAccess (x := .s5) rfl rfl)

theorem InRun.s4_s5_bus : ∃ e f, t.afterS4S5.bus = t.bus ++ s.rmwTxns .s4 e ++ s.rmwTxns .s5 f := by
  obtain ⟨e, f, hbus⟩ := afterS4S5_bus t
  exact ⟨e, f, by rw [hbus, h.toKeeps.rmwTxns, h.toKeeps.rmwTxns]⟩

end

theorem keeps_afterS4S5 (t : State) : Keeps t t.afterS4S5 := by
  have h := ((keeps_does t .s4).trans (keeps_does (t.does .s4) .s5))
  exact ⟨rfl, rfl, rfl, rfl, rfl, rfl, h.kind⟩

theorem afterS4S5_params (t : State) : t.afterS4S5.params = t.params := rfl
theorem afterS4S5_pollcnt (t : State) : t.afterS4S5.pollcnt = t.pollcnt := rfl
theorem afterS4S5_window (t : State) : t.afterS4S5.window = ((t.does .s4).does .s5).window := rfl

/-- The tail answers OK (42_sequencer.md R153). -/
theorem afterS4S5_responds (t : State) : t.afterS4S5.seq.step = .resp ∧ t.afterS4S5.rsp = ⟨.ok, 0#32⟩ := ⟨rfl, rfl⟩

/-- The state in which an INIT SGMII has run its mode steps, from S1's read. -/
def State.sgmiiSteps (s : State) : State :=
  if s.cfg.fixedSpeedTest then ((s.does .s2a).does .s2b).does .s2c else (s.does .s2a).does .s2b

/-- An INIT SGMII runs S2A, S2B and, with FIXED_SPEED_TEST, S2C (42_sequencer.md R143 to R145). -/
theorem InRun.sgmii {r d : Word} {s t : State} (h : InRun .sgmii r d s t) :
    execRun (.init .sgmii r d) (if s.cfg.fixedSpeedTest then 12 else 8) (t.goto .s2a) = .next (t.sgmiiSteps.goto .s4) ∧
      InRun .sgmii r d s t.sgmiiSteps := by
  obtain ⟨hs2a, h2a⟩ := h.does (x := .s2a) rfl rfl rfl rfl
  unfold State.sgmiiSteps
  cases hfixed : s.cfg.fixedSpeedTest with
  | false =>
    obtain ⟨hs2b, h2b⟩ := h2a.does (x := .s2b) (y := .s4) rfl rfl rfl (by simp [completeStep, h.cfg, hfixed])
    rw [h.cfg, hfixed]
    exact ⟨execRun_trans hs2a hs2b, h2b⟩
  | true =>
    obtain ⟨hs2b, h2b⟩ := h2a.does (x := .s2b) (y := .s2c) rfl rfl rfl (by simp [completeStep, h.cfg, hfixed])
    obtain ⟨hs2c, h2c⟩ := h2b.does (x := .s2c) rfl rfl rfl rfl
    rw [h.cfg, hfixed]
    exact ⟨execRun_trans (execRun_trans hs2a hs2b) hs2c, h2c⟩

/-- The transactions of those steps. -/
theorem InRun.sgmii_bus {r d : Word} {s t : State} (h : InRun .sgmii r d s t) : ∃ a b c, t.sgmiiSteps.bus =
    t.bus ++ s.rmwTxns .s2a a ++ s.rmwTxns .s2b b ++ if s.cfg.fixedSpeedTest then s.rmwTxns .s2c c else [] := by
  refine ⟨t.stepReads .s2a, (t.does .s2a).stepReads .s2b, ((t.does .s2a).does .s2b).stepReads .s2c, ?_⟩
  rw [State.sgmiiSteps, h.cfg]
  have h2a := h.toKeeps.trans (keeps_does t .s2a)
  cases s.cfg.fixedSpeedTest with
  | false => rw [if_neg nofun, if_neg nofun, does_bus, does_bus, h2a.rmwTxns, h.toKeeps.rmwTxns, List.append_nil]
  | true =>
    rw [if_pos rfl, if_pos rfl, does_bus, does_bus, does_bus, (h2a.trans (keeps_does _ _)).rmwTxns, h2a.rmwTxns,
      h.toKeeps.rmwTxns]

theorem sgmiiSteps_pollcnt (t : State) : t.sgmiiSteps.pollcnt = t.pollcnt := by
  unfold State.sgmiiSteps
  split <;> rfl

/-- After S1's read an INIT is in its run. -/
theorem inRun_afterS1Read {s : State} (m : PcsMode) (r d : Word) (ha : s.canAccessAll = true) :
    InRun m r d (s.startedInit m r d) (s.afterS1Read m r d) :=
  ⟨keeps_afterRead _, rfl, ha⟩

/-- INIT's steps make the same transactions whatever the latch holds. -/
theorem startedInit_rmwTxns (s : State) (m : PcsMode) (r d : Word) {x : SeqStep} (hx : x.ofInit = true) (a : Word) :
    (s.startedInit m r d).rmwTxns x a = s.rmwTxns x a := by
  refine rmwTxns_congr (s := s) (t := s.startedInit m r d) rfl rfl ?_ a
  cases x
  case idle | xrd | xwr | sane | resp => cases hx
  all_goals rfl

/-- INIT SGMII from acceptance: S1, the mode steps and the tail, one after the other. -/
theorem execRun_initSgmii {s : State} (r d : Word) (ha : s.canAccessAll = true)
    (hclear : softResetSet s.params (s.wouldRead .s1 s.params.rMiiCtrl) = false) :
    execRun (.init .sgmii r d) (if s.cfg.fixedSpeedTest then 22 else 18) (s.startedInit .sgmii r d) =
      .next (s.afterS1Read .sgmii r d).sgmiiSteps.afterS4S5 := by
  have hs1 : execRun (.init .sgmii r d) 2 (s.startedInit .sgmii r d) = .next ((s.afterS1Read .sgmii r d).goto .s2a) :=
    (execRun_s1 .sgmii r d (s.canAccessAll_iff.1 ha).1).trans (congrArg _ (afterS1_of_sgmii hclear rfl))
  obtain ⟨hmode, hin⟩ := (inRun_afterS1Read .sgmii r d ha).sgmii
  have hcount : 2 + (if s.cfg.fixedSpeedTest then 12 else 8) + 8 = if s.cfg.fixedSpeedTest then 22 else 18 := by
    split <;> rfl
  exact hcount ▸ execRun_trans (execRun_trans hs1 hmode) hin.s4_s5

/-- Settles O25: what the whole run leaves, told from the state after S1's read. -/
theorem initSgmiiRunsToItsResponse : Obligations.InitSgmiiRunsToItsResponse := by
  unfold Obligations.InitSgmiiRunsToItsResponse
  intro s r d hidle ha hclear
  have hrun := execRun_initSgmii r d ha hclear
  obtain ⟨-, hin⟩ := (inRun_afterS1Read .sgmii r d ha).sgmii
  obtain ⟨a, b, c, hbus⟩ := (inRun_afterS1Read .sgmii r d ha).sgmii_bus
  obtain ⟨e, f, hbus'⟩ := hin.s4_s5_bus
  have hkeeps := hin.toKeeps.trans (keeps_afterS4S5 _)
  have hpollcnt : (s.afterS1Read .sgmii r d).sgmiiSteps.afterS4S5.pollcnt = s.pollcnt :=
    (afterS4S5_pollcnt _).trans (sgmiiSteps_pollcnt _)
  have hidx := afterS4S5_idx (s.afterS1Read .sgmii r d).sgmiiSteps
  obtain ⟨hresp, hrsp⟩ := afterS4S5_responds (s.afterS1Read .sgmii r d).sgmiiSteps
  rw [hbus, afterS1Read_bus] at hbus'
  simp only [startedInit_rmwTxns s .sgmii r d (x := .s2a) rfl, startedInit_rmwTxns s .sgmii r d (x := .s2b) rfl,
    startedInit_rmwTxns s .sgmii r d (x := .s2c) rfl, startedInit_rmwTxns s .sgmii r d (x := .s4) rfl,
    startedInit_rmwTxns s .sgmii r d (x := .s5) rfl] at hbus'
  rw [hin.params] at hidx
  generalize (s.afterS1Read .sgmii r d).sgmiiSteps.afterS4S5 = t at *
  obtain ⟨hparams, hcfg, hcmd, hport, htaken, hevents, -⟩ := hkeeps
  exact ⟨s.startedInit .sgmii r d, t, a, b, c, e, f, exec_init_starts r d hidle (by simp), hrun, hresp, hrsp, hcmd, hidx,
    hbus', hpollcnt, hparams, hcfg, hport, htaken, hevents⟩

end Sys2Proof.Machine
end

section
/-! The poll of INIT USXGMII under the reference window with its draw (spec/42_sequencer.md R161 to R164; spec/10_state.md R33,
R36): the polls that see F_VR_RST set, and the one that ends the poll. -/

namespace Sys2Proof.Machine

/-- The self-clearing leaves F_VR_RST set for at least `k` more poll reads. -/
def VrReset.lasts (v : VrReset) (k : Nat) : Prop := v = .never ∨ ∃ n, v = .setFor n ∧ k ≤ n

/-- The self-clearing after `k` more poll reads. -/
def VrReset.after : VrReset → Nat → VrReset
  | .setFor n, k => .setFor (n - k)
  | v, _ => v

theorem VrReset.lasts_of_le {v : VrReset} {j k : Nat} (h : v.lasts k) (hle : j ≤ k) : v.lasts j :=
  h.imp_right fun ⟨n, hv, hk⟩ => ⟨n, hv, hle.trans hk⟩

theorem VrReset.lasts_after {v : VrReset} {j k : Nat} (h : v.lasts (j + k)) : (v.after j).lasts k := by
  rcases h with rfl | ⟨n, rfl, hk⟩
  · exact .inl rfl
  · exact .inr ⟨n - j, rfl, by omega⟩

@[simp] theorem VrReset.after_zero (v : VrReset) : v.after 0 = v := by cases v <;> rfl

theorem VrReset.after_after (v : VrReset) (j k : Nat) : (v.after j).after k = v.after (j + k) := by
  cases v with
  | setFor n => exact congrArg VrReset.setFor (Nat.sub_sub n j k)
  | none | never => rfl

/-- A draw lasts for at least as many poll reads as it says. -/
theorem VrReset.ofDraw_lasts {draw : Option Nat} {k : Nat} (h : ∀ n, draw = some n → k ≤ n) : (VrReset.ofDraw draw).lasts k := by
  cases draw with
  | none => exact .inl rfl
  | some n => exact .inr ⟨n, rfl, h n rfl⟩

/-- A poll read while the self-clearing lasts sees F_VR_RST set; only the draw counts down (10_state.md R36). -/
theorem Window.read_lasting {p : Params} {w : Window} {o : Half} (hk : w.kind = .reference) (hn : w.select o = p.rDigCtrl)
    (hv : w.vr.lasts 1) : w.read p .s3p (.data o) =
      (setb p.fVrRst (w.reg.loadWord p.byteOrder p.rDigCtrl), { w with vr := w.vr.after 1 }) := by
  rcases hv with hv | ⟨n, hv, hpos⟩
  · rw [Window.read_never hk hn hv, hv]
    simp only [VrReset.after, ← hv]
  · obtain ⟨k, rfl⟩ : ∃ k, n = k + 1 := ⟨n - 1, by omega⟩
    rw [Window.read_polling hk hn hv, hv]
    rfl

/-- The state after one poll of R_DIG_CTRL, before the decision. -/
def State.pollOnce (s : State) : State := countPoll (s.goto .s3p).afterRead

section
variable (s : State)

theorem keeps_pollOnce : Keeps s s.pollOnce := by
  unfold State.pollOnce
  exact ⟨countPoll_params _, countPoll_cfg _, countPoll_cmd _, countPoll_port _, countPoll_taken _, countPoll_events _,
    (congrArg Window.kind (countPoll_window _)).trans (Window.read_kind ..)⟩

theorem pollOnce_window : s.pollOnce.window =
    ((s.window.selecting s.params.rDigCtrl).read s.params .s3p (.data (lo s.params.rDigCtrl))).2 :=
  countPoll_window _

theorem pollOnce_acc : s.pollOnce.acc = s.wouldRead .s3p s.params.rDigCtrl := countPoll_acc _

theorem pollOnce_bus : s.pollOnce.bus = s.bus ++ [s.indexTxn s.params.rDigCtrl,
    s.readTxn s.params.rDigCtrl (s.wouldRead .s3p s.params.rDigCtrl)] :=
  countPoll_bus _

theorem pollOnce_idx : s.pollOnce.window.idx = indexWord s.params.rDigCtrl := by
  rw [pollOnce_window, Window.read_idx]
  rfl

theorem pollOnce_vrScript : s.pollOnce.window.vrScript = s.window.vrScript := by
  rw [pollOnce_window, Window.read_vrScript]
  rfl

theorem pollOnce_pollcnt : s.pollOnce.pollcnt = s.pollcnt + if s.cfg.pollLimit = none then 0 else 1 := by
  refine (countPoll_pollcnt _).trans ?_
  by_cases hlimit : s.cfg.pollLimit = none <;> simp [State.afterRead, hlimit]

end

/-- The poll's two transactions are made and the decision follows (42_sequencer.md R131). -/
theorem InRun.pollOnce {m : PcsMode} {r d : Word} {s t : State} (h : InRun m r d s t) :
    execRun (.init m r d) 2 (t.goto .s3p) = .next (afterPoll t.pollOnce) := by
  have ha : t.canAccess t.params.rDigCtrl = true := h.canAccess (x := .s3d) rfl rfl
  have hpoll : t.pollOnce.seq.step = .s3p := congrArg Seq.step (countPoll_seq _)
  have hread : execRun (.init m r d) 2 (t.goto .s3p) = .next (completeStep t.pollOnce) :=
    execRun_logicalRead (s := t.goto .s3p) rfl h.cmd_eq rfl rfl ha
  rw [hread, completeStep_s3p hpoll]

/-- The two transactions of a poll that reads a word. -/
abbrev State.pollTxns (s : State) (v : Word) : List Txn := [s.indexTxn s.params.rDigCtrl, s.readTxn s.params.rDigCtrl v]

theorem Keeps.pollTxns {s t : State} (h : Keeps s t) (v : Word) : t.pollTxns v = s.pollTxns v := by
  simp only [State.pollTxns, h.params, indexTxn_congr h.params h.cfg, readTxn_congr h.params h.cfg]

/-- What a poll of R_DIG_CTRL reads while F_VR_RST reads set. -/
abbrev State.setWord (s : State) : Word := setb s.params.fVrRst (s.regValue s.params.rDigCtrl)

/-- `u` is the state `n` polls after `t`, each of which read F_VR_RST set and left REG alone. -/
structure SetPolls (t : State) (n : Nat) (u : State) : Prop extends Keeps t u where
  reg : u.window.reg = t.window.reg
  vr : u.window.vr = t.window.vr.after n
  vrScript : u.window.vrScript = t.window.vrScript
  bus : u.bus = t.bus ++ (List.replicate n (t.pollTxns t.setWord)).flatten
  pollcnt : u.pollcnt = t.pollcnt + if t.cfg.pollLimit = none then 0 else n

theorem SetPolls.zero (t : State) : SetPolls t 0 t where
  toKeeps := .refl t
  reg := rfl
  vr := (VrReset.after_zero _).symm
  vrScript := rfl
  bus := (List.append_nil _).symm
  pollcnt := by simp

section
variable {t u : State} {n : Nat} (h : SetPolls t n u)
include h

theorem SetPolls.regValue (r : Word) : u.regValue r = t.regValue r := by rw [State.regValue, State.regValue, h.params, h.reg]

variable (hk : t.window.kind = .reference) (hv : t.window.vr.lasts (n + 1))
include hk hv

/-- What the next poll reads while the self-clearing lasts, and the window it leaves. -/
theorem SetPolls.read : (u.window.selecting u.params.rDigCtrl).read u.params .s3p (.data (lo u.params.rDigCtrl)) =
    (t.setWord, { u.window.selecting u.params.rDigCtrl with vr := u.window.vr.after 1 }) := by
  have hlasts : u.window.vr.lasts 1 := h.vr ▸ VrReset.lasts_after hv
  have hread := Window.read_lasting (p := u.params) (w := u.window.selecting u.params.rDigCtrl) (h.kind.trans hk)
    (Window.selecting_select ..) hlasts
  rw [hread, State.setWord, ← h.regValue, h.params]
  exact congrArg (Prod.mk · _) (by rw [State.regValue, h.params]; rfl)

theorem SetPolls.wouldRead : u.wouldRead .s3p u.params.rDigCtrl = t.setWord := congrArg Prod.fst (h.read hk hv)

/-- One more poll while the self-clearing lasts. -/
theorem SetPolls.succ : SetPolls t (n + 1) u.pollOnce where
  toKeeps := h.toKeeps.trans (keeps_pollOnce u)
  reg := by
    rw [pollOnce_window, h.read hk hv]
    exact h.reg
  vr := by rw [pollOnce_window, h.read hk hv, ← VrReset.after_after, ← h.vr]
  vrScript := (pollOnce_vrScript u).trans h.vrScript
  bus := by
    rw [pollOnce_bus, h.wouldRead hk hv, h.bus, List.append_assoc, List.replicate_succ', List.flatten_append,
      List.flatten_singleton, ← h.pollTxns]
  pollcnt := by
    rw [pollOnce_pollcnt, h.pollcnt, h.cfg]
    split <;> omega

/-- The next poll sees F_VR_RST set. -/
theorem SetPolls.vrResetSet (hwf : t.params.wf = true) : vrResetSet u.pollOnce.params u.pollOnce.acc = true := by
  rw [(keeps_pollOnce u).params, pollOnce_acc, h.wouldRead hk hv, h.params]
  exact vrResetSet_setb hwf _

end

/-- The polls that see F_VR_RST set, none of which is the POLL_LIMIT-th (42_sequencer.md R163). -/
theorem InRun.setPolls {m : PcsMode} {r d : Word} {s t : State} (h : InRun m r d s t) (hwf : t.params.wf = true)
    (hk : t.window.kind = .reference) {n : Nat} (hv : t.window.vr.lasts n)
    (hlimit : ∀ l, t.cfg.pollLimit = some l → t.pollcnt + n < l) :
    ∃ u, execRun (.init m r d) (2 * n) (t.goto .s3p) = .next (u.goto .s3p) ∧ SetPolls t n u := by
  induction n with
  | zero => exact ⟨t, rfl, .zero t⟩
  | succ n ih =>
    obtain ⟨u, hrun, hpolls⟩ := ih (VrReset.lasts_of_le hv (by omega)) fun l hl => by have := hlimit l hl; omega
    have hsucc := hpolls.succ hk hv
    have hagain : u.pollOnce.cfg.pollLimit ≠ some u.pollOnce.pollcnt := by
      rw [hsucc.cfg, hsucc.pollcnt]
      intro hl
      have hlt := hlimit _ hl
      split at hlt
      case isTrue hnone => simp [hnone] at hl
      case isFalse => omega
    refine ⟨u.pollOnce, ?_, hsucc⟩
    have hpoll := (h.next hpolls.toKeeps).pollOnce
    rw [afterPoll_again (hpolls.vrResetSet hk hv hwf) hagain] at hpoll
    exact execRun_trans hrun hpoll

theorem keeps_clearPoll (s : State) : Keeps s (clearPoll s) := by
  rw [clearPoll_eq]
  exact ⟨rfl, rfl, rfl, rfl, rfl, rfl, rfl⟩

/-- The state before S3D of an INIT USXGMII, from S1's read. -/
def State.beforeS3D (s : State) : State := ((s.does .s3a).does .s3b).does .s3c

/-- The state in which it is about to poll. -/
def State.beforePoll (s : State) : State := clearPoll (s.beforeS3D.does .s3d)

/-- An INIT USXGMII runs S3A to S3D and comes to the poll (42_sequencer.md R146, R147). -/
theorem InRun.usxgmii {m : PcsMode} {r d : Word} {s t : State} (h : InRun m r d s t) :
    execRun (.init m r d) 16 (t.goto .s3a) = .next (t.beforePoll.goto .s3p) ∧ InRun m r d s t.beforePoll := by
  obtain ⟨hs3a, h3a⟩ := h.does (x := .s3a) rfl rfl rfl rfl
  obtain ⟨hs3b, h3b⟩ := h3a.does (x := .s3b) rfl rfl rfl rfl
  obtain ⟨hs3c, h3c⟩ := h3b.does (x := .s3c) rfl rfl rfl rfl
  have hs3d := execRun_does (i := .init m r d) (x := .s3d) rfl h3c.cmd_eq rfl rfl (h3c.canAccess rfl rfl)
  exact ⟨execRun_trans (execRun_trans (execRun_trans hs3a hs3b) hs3c) hs3d,
    h3c.next ((keeps_does _ .s3d).trans (keeps_clearPoll _))⟩

section
variable (t : State)

theorem keeps_beforeS3D : Keeps t t.beforeS3D :=
  (keeps_does t .s3a).trans ((keeps_does (t.does .s3a) .s3b).trans (keeps_does ((t.does .s3a).does .s3b) .s3c))

theorem keeps_beforePoll : Keeps t t.beforePoll :=
  (keeps_beforeS3D t).trans ((keeps_does t.beforeS3D .s3d).trans (keeps_clearPoll _))

/-- The transactions of S3A to S3D. -/
theorem beforePoll_bus : ∃ a b c, t.beforePoll.bus =
    t.bus ++ t.rmwTxns .s3a a ++ t.rmwTxns .s3b b ++ t.rmwTxns .s3c c ++ t.rmwTxns .s3d (t.beforeS3D.stepReads .s3d) := by
  refine ⟨t.stepReads .s3a, (t.does .s3a).stepReads .s3b, ((t.does .s3a).does .s3b).stepReads .s3c, ?_⟩
  have h3a := keeps_does t .s3a
  have h3b := h3a.trans (keeps_does (t.does .s3a) .s3b)
  rw [State.beforePoll, clearPoll_eq, State.withPollcnt_bus, does_bus, (keeps_beforeS3D t).rmwTxns]
  rw [State.beforeS3D, does_bus, does_bus, does_bus, h3a.rmwTxns, h3b.rmwTxns]

theorem beforePoll_window : t.beforePoll.window = (t.beforeS3D.does .s3d).window := by
  rw [State.beforePoll, clearPoll_eq, State.withPollcnt_window]

theorem beforePoll_pollcnt : t.beforePoll.pollcnt = if t.cfg.pollLimit = none then t.pollcnt else 0 := by
  rw [State.beforePoll, clearPoll_eq, State.withPollcnt_pollcnt, does_cfg, (keeps_beforeS3D t).cfg]
  rfl

variable (hk : t.window.kind = .reference)
include hk

/-- S3D leaves F_VR_RST set in R_DIG_CTRL. -/
theorem beforePoll_digCtrl :
    t.beforePoll.regValue t.params.rDigCtrl = setb t.params.fVrRst (t.beforeS3D.stepReads .s3d) := by
  have hvalue := does_regValue t.beforeS3D .s3d ((keeps_beforeS3D t).kind.trans hk)
  rw [State.regValue, beforePoll_window, (keeps_beforePoll t).params]
  exact hvalue

theorem beforePoll_setWord : t.beforePoll.setWord = setb t.params.fVrRst (t.beforeS3D.stepReads .s3d) := by
  rw [State.setWord, (keeps_beforePoll t).params, beforePoll_digCtrl t hk, setb, setb, BitVec.or_assoc, BitVec.or_self]

/-- S3D starts the self-clearing with the list's next draw (10_state.md R33). -/
theorem beforePoll_vr {draw : Option Nat} {rest : List (Option Nat)} (hdraw : t.window.vrScript = draw :: rest) :
    t.beforePoll.window.vr = .ofDraw draw ∧ t.beforePoll.window.vrScript = rest := by
  have hscript : t.beforeS3D.window.vrScript = draw :: rest := by
    rw [State.beforeS3D, does_vrScript _ .s3c nofun, does_vrScript _ .s3b nofun, does_vrScript _ .s3a nofun, hdraw]
  rw [beforePoll_window]
  exact afterRmw_s3d (s := t.beforeS3D.goto .s3d) ((keeps_beforeS3D t).kind.trans hk) rfl hscript

end

/-- An INIT USXGMII from an IDLE block of the reference window, its registers accessible and F_SOFT_RST read clear: what O27, O28
and O35 assume. -/
structure State.StartsUsxgmii (s : State) (draw : Option Nat) (rest : List (Option Nat)) : Prop where
  access : s.canAccessAll = true
  wf : s.params.wf = true
  reference : s.window.kind = .reference
  draws : s.window.vrScript = draw :: rest
  softReset : softResetSet s.params (s.wouldRead .s1 s.params.rMiiCtrl) = false

/-- The state in which an INIT USXGMII is about to poll, from acceptance. -/
abbrev State.atPoll (s : State) (r d : Word) : State := (s.afterS1Read .usxgmii r d).beforePoll

section
variable {s : State} {draw : Option Nat} {rest : List (Option Nat)} (h : s.StartsUsxgmii draw rest) (r d : Word)
include h

/-- The run up to the poll: S1 and the four mode steps. -/
theorem State.StartsUsxgmii.comesToPoll :
    execRun (.init .usxgmii r d) 18 (s.startedInit .usxgmii r d) = .next ((s.atPoll r d).goto .s3p) ∧
      InRun .usxgmii r d (s.startedInit .usxgmii r d) (s.atPoll r d) := by
  have hs1 : execRun (.init .usxgmii r d) 2 (s.startedInit .usxgmii r d) =
      .next ((s.afterS1Read .usxgmii r d).goto .s3a) :=
    (execRun_s1 .usxgmii r d (s.canAccessAll_iff.1 h.access).1).trans (congrArg _ (afterS1_of_usxgmii h.softReset rfl))
  obtain ⟨hsteps, hin⟩ := (inRun_afterS1Read .usxgmii r d h.access).usxgmii
  exact ⟨execRun_trans hs1 hsteps, hin⟩

theorem State.StartsUsxgmii.atPoll_vr :
    (s.atPoll r d).window.vr = .ofDraw draw ∧ (s.atPoll r d).window.vrScript = rest :=
  beforePoll_vr (s.afterS1Read .usxgmii r d) ((keeps_afterRead _).kind.trans h.reference)
    ((Window.read_vrScript ..).trans h.draws)

/-- The run up to the poll, and the `n` polls that see F_VR_RST set without reaching the POLL_LIMIT. -/
theorem State.StartsUsxgmii.polls {n : Nat} (hdraw : ∀ k, draw = some k → n ≤ k)
    (hlimit : ∀ l, s.cfg.pollLimit = some l → n < l) : ∃ u,
    execRun (.init .usxgmii r d) (18 + 2 * n) (s.startedInit .usxgmii r d) = .next (u.goto .s3p) ∧
      SetPolls (s.atPoll r d) n u ∧ InRun .usxgmii r d (s.startedInit .usxgmii r d) u := by
  obtain ⟨hprefix, hin⟩ := h.comesToPoll r d
  obtain ⟨hvr, -⟩ := h.atPoll_vr r d
  have hpollcnt := beforePoll_pollcnt (s.afterS1Read .usxgmii r d)
  have hfits (l : Nat) (hl : (s.atPoll r d).cfg.pollLimit = some l) : (s.atPoll r d).pollcnt + n < l := by
    rw [hin.cfg] at hl
    rw [hpollcnt, if_neg (by rw [(keeps_afterRead _).cfg]; exact hl ▸ nofun), Nat.zero_add]
    exact hlimit l hl
  obtain ⟨u, hrun, hpolls⟩ := hin.setPolls (hin.params ▸ h.wf) (hin.kind.trans h.reference)
    (hvr ▸ VrReset.ofDraw_lasts hdraw) hfits
  exact ⟨u, execRun_trans hprefix hrun, hpolls, hin.next hpolls.toKeeps⟩

/-- The transactions up to the poll and through `n` polls that see F_VR_RST set; `e` is the word S3D reads. -/
theorem State.StartsUsxgmii.polls_bus {n : Nat} {u : State} (hpolls : SetPolls (s.atPoll r d) n u) : ∃ a b c e,
    (s.atPoll r d).regValue s.params.rDigCtrl = setb s.params.fVrRst e ∧
    u.bus = s.bus ++ [s.indexTxn s.params.rMiiCtrl,
        s.readTxn s.params.rMiiCtrl (s.wouldRead .s1 s.params.rMiiCtrl)] ++ s.rmwTxns .s3a a ++ s.rmwTxns .s3b b ++
      s.rmwTxns .s3c c ++ s.rmwTxns .s3d e ++ (List.replicate n (s.pollTxns (setb s.params.fVrRst e))).flatten := by
  obtain ⟨a, b, c, hbus⟩ := beforePoll_bus (s.afterS1Read .usxgmii r d)
  have hword := beforePoll_setWord (s.afterS1Read .usxgmii r d) ((keeps_afterRead _).kind.trans h.reference)
  have hvalue := beforePoll_digCtrl (s.afterS1Read .usxgmii r d) ((keeps_afterRead _).kind.trans h.reference)
  have hread := keeps_afterRead (s.startedInit .usxgmii r d)
  have htxns (v : Word) : (s.atPoll r d).pollTxns v = s.pollTxns v := (hread.trans (keeps_beforePoll _)).pollTxns v
  refine ⟨a, b, c, _, hvalue, ?_⟩
  rw [hpolls.bus, hword, htxns, hbus, afterS1Read_bus]
  simp only [hread.rmwTxns, startedInit_rmwTxns s .usxgmii r d (x := .s3a) rfl, startedInit_rmwTxns s .usxgmii r d (x := .s3b) rfl,
    startedInit_rmwTxns s .usxgmii r d (x := .s3c) rfl, startedInit_rmwTxns s .usxgmii r d (x := .s3d) rfl, hread.params]
  rfl

/-- `pollcnt` after `n` polls, where there is a counter (42_sequencer.md R161). -/
theorem State.StartsUsxgmii.polls_pollcnt {n : Nat} {u : State} (hpolls : SetPolls (s.atPoll r d) n u) :
    u.pollcnt = if s.cfg.pollLimit = none then s.pollcnt else n := by
  have hcfg : (s.atPoll r d).cfg = s.cfg := (h.comesToPoll r d).2.cfg
  have hpollcnt := beforePoll_pollcnt (s.afterS1Read .usxgmii r d)
  rw [(keeps_afterRead _).cfg] at hpollcnt
  rw [hpolls.pollcnt, hpollcnt, hcfg]
  by_cases hlimit : s.cfg.pollLimit = none
  · rw [if_pos hlimit, if_pos hlimit]
    exact if_pos hlimit
  · rw [if_neg hlimit, if_neg hlimit]
    exact (congrArg (· + n) (if_neg hlimit)).trans (Nat.zero_add n)

end

/-- Settles O28: `l - 1` polls go on, and the `l`-th ends the poll. -/
theorem boundedPollTimesOut : Obligations.BoundedPollTimesOut := by
  unfold Obligations.BoundedPollTimesOut
  intro s r d l draw rest hidle ha hwf hk hdraws hlimit hpos hdraw hclear
  obtain ⟨k, rfl⟩ : ∃ k, l = k + 1 := ⟨l - 1, by omega⟩
  have h : s.StartsUsxgmii draw rest := ⟨ha, hwf, hk, hdraws, hclear⟩
  obtain ⟨-, hatPoll⟩ := h.comesToPoll r d
  have hlasts : (s.atPoll r d).window.vr.lasts (k + 1) := (h.atPoll_vr r d).1 ▸ VrReset.ofDraw_lasts hdraw
  obtain ⟨u, hrun, hpolls, hin⟩ := h.polls r d (n := k) (fun n hn => by have := hdraw n hn; omega)
    (fun l hl => by rw [hlimit] at hl; cases hl; omega)
  have hpoll := hin.pollOnce
  have hset := hpolls.vrResetSet (hatPoll.kind.trans hk) hlasts (hatPoll.params ▸ hwf)
  have hsucc := hpolls.succ (hatPoll.kind.trans hk) hlasts
  have hidx := pollOnce_idx u
  have hpollcnt := h.polls_pollcnt r d hsucc
  obtain ⟨a, b, c, e, -, hbus⟩ := h.polls_bus r d hsucc
  have hcfg := hsucc.cfg.trans hatPoll.cfg
  rw [hin.params] at hidx
  generalize u.pollOnce = t at *
  rw [hlimit, if_neg nofun] at hpollcnt
  rw [afterPoll_spent hset (hcfg ▸ hpollcnt ▸ hlimit)] at hpoll
  have hcount : 18 + 2 * k + 2 = 18 + 2 * (k + 1) := by omega
  exact ⟨s.startedInit .usxgmii r d, t.raise .pollTimeout, a, b, c, e, exec_init_starts r d hidle (by simp),
    hcount ▸ execRun_trans hrun hpoll, rfl, rfl, hpollcnt, hidx, hbus⟩

/-- An INIT USXGMII whose draw is `n` ends: the `n` polls that see F_VR_RST set, the one that sees it clear, S4 and S5. -/
theorem State.StartsUsxgmii.completes {s : State} {n : Nat} {rest : List (Option Nat)} (h : s.StartsUsxgmii (some n) rest)
    (r d : Word) (hlimit : ∀ l, s.cfg.pollLimit = some l → n < l) : ∃ u,
    execRun (.init .usxgmii r d) (28 + 2 * n) (s.startedInit .usxgmii r d) = .next u.pollOnce.afterS4S5 ∧
      SetPolls (s.atPoll r d) n u ∧ u.window.vr = .setFor 0 ∧ InRun .usxgmii r d (s.startedInit .usxgmii r d) u := by
  obtain ⟨u, hrun, hpolls, hin⟩ := h.polls r d (n := n) (fun k hk => by cases hk; rfl) hlimit
  obtain ⟨hvr, -⟩ := h.atPoll_vr r d
  have hspent : u.window.vr = .setFor 0 := by
    rw [hpolls.vr, hvr]
    exact congrArg VrReset.setFor (Nat.sub_self n)
  have hclear : vrResetSet u.pollOnce.params u.pollOnce.acc = false := by
    rw [(keeps_pollOnce u).params, pollOnce_acc, wouldRead_spent (hin.kind.trans h.reference) hspent]
    exact vrResetSet_clr _ _
  have hpoll := hin.pollOnce
  rw [afterPoll_clear hclear] at hpoll
  have htail := (hin.next (keeps_pollOnce u)).s4_s5
  have hcount : 18 + 2 * n + 2 + 8 = 28 + 2 * n := by omega
  exact ⟨u, hcount ▸ execRun_trans (execRun_trans hrun hpoll) htail, hpolls, hspent, hin⟩

theorem afterS4S5_vrScript (t : State) : t.afterS4S5.window.vrScript = t.window.vrScript := by
  rw [afterS4S5_window, does_vrScript _ .s5 nofun, does_vrScript _ .s4 nofun]

/-- Settles O27: what the whole run leaves, told from the state before its last poll. -/
theorem initUsxgmiiRunsToItsResponse : Obligations.InitUsxgmiiRunsToItsResponse := by
  unfold Obligations.InitUsxgmiiRunsToItsResponse
  intro s r d n rest hidle ha hwf hk hdraws hlimit hclear
  have h : s.StartsUsxgmii (some n) rest := ⟨ha, hwf, hk, hdraws, hclear⟩
  obtain ⟨u, hrun, hpolls, hspent, hin⟩ := h.completes r d hlimit
  have hin' := hin.next (keeps_pollOnce u)
  obtain ⟨a, b, c, e, hvalue, hbus⟩ := h.polls_bus r d hpolls
  obtain ⟨f, g, htail⟩ := hin'.s4_s5_bus
  have hread : u.wouldRead .s3p u.params.rDigCtrl = clr s.params.fVrRst (setb s.params.fVrRst e) := by
    rw [wouldRead_spent (hin.kind.trans hk) hspent, hpolls.regValue, hin.params]
    exact congrArg _ hvalue
  have hpollcnt : u.pollOnce.afterS4S5.pollcnt = if s.cfg.pollLimit = none then s.pollcnt else n + 1 := by
    have hcfg : u.cfg = s.cfg := hin.cfg
    rw [afterS4S5_pollcnt, pollOnce_pollcnt, h.polls_pollcnt r d hpolls, hcfg]
    split <;> rfl
  have hscript : u.pollOnce.afterS4S5.window.vrScript = rest := by
    rw [afterS4S5_vrScript, pollOnce_vrScript, hpolls.vrScript, (h.atPoll_vr r d).2]
  have hidx := afterS4S5_idx u.pollOnce
  obtain ⟨hresp, hrsp⟩ := afterS4S5_responds u.pollOnce
  obtain ⟨hparams, hcfg, hcmd, hport, htaken, hevents, -⟩ := hin'.toKeeps.trans (keeps_afterS4S5 _)
  rw [pollOnce_bus, hread, ← State.pollTxns, hin.pollTxns, hbus] at htail
  rw [hin'.params] at hidx
  simp only [startedInit_rmwTxns s .usxgmii r d (x := .s4) rfl, startedInit_rmwTxns s .usxgmii r d (x := .s5) rfl] at htail
  generalize u.pollOnce.afterS4S5 = t at *
  exact ⟨s.startedInit .usxgmii r d, t, a, b, c, e, f, g, exec_init_starts r d hidle (by simp), hrun, hresp, hrsp, hcmd,
    hpollcnt, hidx, hscript, htail, hparams, hcfg, hport, htaken, hevents⟩

end Sys2Proof.Machine
end

section
/-! What INIT leaves in the PCS fields under the reference window (spec/42_sequencer.md R156): a read-modify-write step sets its
own fields and keeps every other field the parameters name, registers that share a number included (spec/92 D34). -/

namespace Sys2Proof.Machine

/-- The fields of `Params.namedFields`, by name. -/
inductive NamedField where
  | softRst | anEn | pcsType | anMode | txCfg | anIntrEn | en2p5g | usxgEn | vrRst | usxgMode | macAutoSw
  deriving DecidableEq

/-- The register and the bits of a field (00_scope.md R11, R12). -/
def NamedField.place (p : Params) : NamedField → Word × Field
  | .softRst => (p.rMiiCtrl, p.fSoftRst)
  | .anEn => (p.rMiiCtrl, p.fAnEn)
  | .pcsType => (p.rPcsType, p.fPcsType)
  | .anMode => (p.rAnCtrl, p.fAnMode)
  | .txCfg => (p.rAnCtrl, p.fTxCfg)
  | .anIntrEn => (p.rAnCtrl, p.fAnIntrEn)
  | .en2p5g => (p.r2p5g, p.fEn2p5g)
  | .usxgEn => (p.rDigCtrl, p.fUsxgEn)
  | .vrRst => (p.rDigCtrl, p.fVrRst)
  | .usxgMode => (p.rUsxgMode, p.fUsxgMode)
  | .macAutoSw => (p.rMiiDigCtrl, p.fMacAutoSw)

/-- The order of `Params.namedFields`. -/
abbrev NamedField.all : List NamedField :=
  [.softRst, .anEn, .pcsType, .anMode, .txCfg, .anIntrEn, .en2p5g, .usxgEn, .vrRst, .usxgMode, .macAutoSw]

theorem Params.namedFields_eq (p : Params) : p.namedFields = NamedField.all.map (NamedField.place p) := rfl

theorem NamedField.mem_all (q : NamedField) : q ∈ NamedField.all := by cases q <;> decide

theorem field_disjoint_comm {f g : Field} (h : f.disjoint g = true) : g.disjoint f = true := by
  rwa [Field.disjoint, Bool.or_comm]

/-- Two fields of one register do not overlap, though the registers be named apart (92 D34). -/
theorem NamedField.disjoint {p : Params} (hwf : p.wf = true) {q q' : NamedField} (hne : q ≠ q')
    (hreg : (q.place p).1 = (q'.place p).1) : (q.place p).2.disjoint (q'.place p).2 = true := by
  obtain ⟨-, -, -, hdisjoint, -⟩ := Params.wf_iff.1 hwf
  have hpairs := of_decide_eq_true hdisjoint
  rw [Params.namedFields_eq, List.pairwise_map] at hpairs
  have hsymm : Std.Symm fun q q' : NamedField =>
      (q.place p).1 = (q'.place p).1 → (q.place p).2.disjoint (q'.place p).2 = true :=
    ⟨fun _ _ h hreg => field_disjoint_comm (h hreg.symm)⟩
  exact hpairs.forall q.mem_all q'.mem_all hne hreg

/-- The fields a step writes, by name. -/
def SeqStep.names : SeqStep → List NamedField
  | .s2a | .s3a => [.pcsType]
  | .s2b => [.anMode]
  | .s2c => [.en2p5g]
  | .s3b => [.usxgEn]
  | .s3c => [.usxgMode]
  | .s3d => [.vrRst]
  | .s4 => [.txCfg, .anIntrEn]
  | .s5 => [.macAutoSw]
  | .sane => [.anEn]
  | .idle | .xrd | .xwr | .s1 | .s3p | .resp => []

theorem SeqStep.fields_eq (p : Params) (x : SeqStep) : x.fields p = x.names.map fun q => (q.place p).2 := by
  cases x <;> rfl

/-- A step's fields lie in its register (42_sequencer.md R133). -/
theorem SeqStep.register_of_names {x : SeqStep} {q : NamedField} (h : q ∈ x.names) (p : Params) (c : Cmd) :
    (q.place p).1 = x.register p c := by
  revert h
  cases x <;> cases q <;> simp [SeqStep.names, NamedField.place, SeqStep.register]

/-- What the field of a name holds in the reference window. -/
def State.valueOf (s : State) (q : NamedField) : Word := ext (q.place s.params).2 (s.regValue (q.place s.params).1)

/-- A state of a run whose registers can all be accessed, in the reference window, with parameters that have a meaning. -/
structure State.Configures (s : State) : Prop where
  wf : s.params.wf = true
  reference : s.window.kind = .reference
  access : s.canAccessAll = true

theorem State.Configures.keeps {s t : State} (h : s.Configures) (hkeeps : Keeps s t) : t.Configures where
  wf := hkeeps.params ▸ h.wf
  reference := hkeeps.kind.trans h.reference
  access := by
    simpa only [State.canAccessAll_iff, hkeeps.canAccess, hkeeps.params] using h.access

section
variable {s : State} (h : s.Configures)
include h

theorem State.Configures.aligned (q : NamedField) : (q.place s.params).1.toNat % 4 = 0 := by
  obtain ⟨hmii, hpcs, han, hdig, h2p5g, husxg, hmiiDig⟩ := s.canAccessAll_iff.1 h.access
  refine State.reg_aligned h.reference ?_
  cases q
  case softRst | anEn => exact hmii
  case pcsType => exact hpcs
  case anMode | txCfg | anIntrEn => exact han
  case en2p5g => exact h2p5g
  case usxgEn | vrRst => exact hdig
  case usxgMode => exact husxg
  case macAutoSw => exact hmiiDig

/-- A data read of a register by name answers its fields, F_VR_RST aside. -/
theorem State.Configures.wouldRead {x : SeqStep} (hx : x ≠ .s3p) {q : NamedField} (hq : q ≠ .vrRst) :
    ext (q.place s.params).2 (s.wouldRead x (q.place s.params).1) = s.valueOf q := by
  by_cases hdig : (q.place s.params).1 = s.params.rDigCtrl ∧ s.window.vr = .setFor 0
  · obtain ⟨hreg, hspent⟩ := hdig
    have hdisjoint := NamedField.disjoint h.wf hq hreg
    rw [State.valueOf, hreg, wouldRead_spent h.reference hspent]
    exact ext_congr fun i hi => clr_getLsbD_outside (disjoint_masks hdisjoint hi) _
  · rw [State.valueOf, wouldRead_reference h.reference]
    rw [not_and_or] at hdig
    exact hdig.imp_right fun hv => .inr ⟨hx, hv⟩

/-- The read-modify-write steps access registers with fields of their own. -/
theorem State.Configures.register_aligned {x : SeqStep} (hx : x.names ≠ []) : (s.registerOf x).toNat % 4 = 0 := by
  obtain ⟨q, hq⟩ := List.exists_mem_of_ne_nil _ hx
  rw [State.registerOf, ← SeqStep.register_of_names hq]
  exact h.aligned q

end

/-- A read changes no register but the one it reaches. -/
theorem Window.loadWord_read_other (p : Params) (x : SeqStep) (w : Window) (o : Half) {r : Word} (ho : (w.select o).toNat % 4 = 0)
    (hr : r.toNat % 4 = 0) (hne : w.select o ≠ r) :
    (w.read p x (.data o)).2.reg.loadWord p.byteOrder r = w.reg.loadWord p.byteOrder r := by
  rcases Window.read_reg_cases p x w o with hkept | ⟨-, -, -, hstored⟩
  · rw [hkept]
  · rw [hstored, Memory.loadWord_storeWord_other _ _ _ ho hr hne]

/-- A read-modify-write step changes no register but its own. -/
theorem does_regValue_other {s : State} {x : SeqStep} (hk : s.window.kind = .reference) {r : Word}
    (ho : (s.registerOf x).toNat % 4 = 0) (hr : r.toNat % 4 = 0) (hne : s.registerOf x ≠ r) :
    (s.does x).regValue r = s.regValue r := by
  let w := ((s.window.selecting (s.registerOf x)).read s.params x (.data (lo (s.registerOf x)))).2
  have hselect := s.window.selecting_select (s.registerOf x)
  have hread : w.reg.loadWord s.params.byteOrder r = s.regValue r :=
    Window.loadWord_read_other s.params x _ _ (by rwa [hselect]) hr (by rwa [hselect])
  have hwrite := Window.write_data_reg s.params x (x.modify s.params s.cfg.fixedSpeedTest (s.stepReads x))
    (w.selecting (s.registerOf x)) (lo (s.registerOf x))
  rw [if_pos (by exact (Window.read_kind ..).trans hk), Window.selecting_select] at hwrite
  have hstored : (s.does x).window.reg = w.reg.storeWord s.params.byteOrder (s.registerOf x)
      (x.modify s.params s.cfg.fixedSpeedTest (s.stepReads x)) := hwrite
  rw [State.regValue, does_params, hstored, Memory.loadWord_storeWord_other _ _ _ ho hr hne, hread]

section
variable {s : State} (h : s.Configures) {x : SeqStep} (hx : x.names ≠ [])
include h hx

/-- A read-modify-write step keeps every field it does not name; F_VR_RST may clear itself. -/
theorem State.Configures.does_keeps {q : NamedField} (hq : q ∉ .vrRst :: x.names) :
    (s.does x).valueOf q = s.valueOf q := by
  have hvr : q ≠ .vrRst := List.ne_of_not_mem_cons hq
  have hout : q ∉ x.names := List.not_mem_of_not_mem_cons hq
  have hpoll : x ≠ .s3p := fun hs3p => hx (hs3p ▸ rfl)
  rw [State.valueOf, does_params]
  by_cases hreg : (q.place s.params).1 = s.registerOf x
  · have hread : ext (q.place s.params).2 (s.stepReads x) = s.valueOf q := by
      rw [← h.wouldRead hpoll hvr, hreg]
    rw [hreg, does_regValue s x h.reference, ← hread]
    refine ext_congr fun i hi => SeqStep.modify_getLsbD_outside _ _ _ _ _ fun f hf => ?_
    rw [SeqStep.fields_eq] at hf
    obtain ⟨q', hq', rfl⟩ := List.mem_map.1 hf
    have hne : q ≠ q' := fun heq => hout (heq ▸ hq')
    exact disjoint_masks (NamedField.disjoint h.wf hne (hreg.trans (SeqStep.register_of_names hq' _ _).symm)) hi
  · rw [does_regValue_other h.reference (h.register_aligned hx) (h.aligned q) (Ne.symm hreg)]
    rfl

end

/-- What a step leaves in its fields (42_sequencer.md R133, R156); F_VR_RST, which clears itself again, is not listed. -/
def SeqStep.leaves (p : Params) (fixed : Bool) : SeqStep → List (NamedField × Word)
  | .s2a => [(.pcsType, 1#32)]
  | .s2b => [(.anMode, p.vAnModeSgmii)]
  | .s2c => [(.en2p5g, 1#32)]
  | .s3a => [(.pcsType, 0#32)]
  | .s3b => [(.usxgEn, 1#32)]
  | .s3c => [(.usxgMode, 0#32)]
  | .s4 => [(.txCfg, 0#32), (.anIntrEn, 1#32)]
  | .s5 => [(.macAutoSw, if fixed then 0#32 else 1#32)]
  | .sane => [(.anEn, if fixed then 0#32 else 1#32)]
  | .idle | .xrd | .xwr | .s1 | .s3d | .s3p | .resp => []

theorem SeqStep.modify_leaves {p : Params} (hwf : p.wf = true) (fixed : Bool) (x : SeqStep) (a : Word) :
    ∀ e ∈ x.leaves p fixed, e.1 ∈ x.names ∧ ext (e.1.place p).2 (x.modify p fixed a) = e.2 := by
  obtain ⟨-, -, hrows⟩ := modifyFunctionsSetTheirFields
  obtain ⟨⟨h2a, -⟩, ⟨h2b, -⟩, ⟨h2c, -⟩, ⟨h3a, -⟩, ⟨h3b, -⟩, ⟨h3c, -⟩, -, ⟨h4tx, h4intr, -⟩, ⟨h5, -⟩, ⟨hsane, -⟩⟩ :=
    hrows p fixed a hwf
  cases x <;> simp [SeqStep.leaves, SeqStep.names, NamedField.place, *]

/-- The fields of a list hold the values given with them. -/
def State.Holds (s : State) (l : List (NamedField × Word)) : Prop := ∀ e ∈ l, s.valueOf e.1 = e.2

/-- After a read-modify-write step its own fields hold what it leaves, and the others what they held. -/
theorem State.Holds.does {s : State} (h : s.Configures) {l : List (NamedField × Word)} (hl : s.Holds l) (x : SeqStep)
    (hx : x.names ≠ []) (hout : ∀ e ∈ l, e.1 ∉ .vrRst :: x.names) :
    (s.does x).Holds (x.leaves s.params s.cfg.fixedSpeedTest ++ l) := by
  intro e he
  rcases List.mem_append.1 he with hown | hother
  · obtain ⟨hnamed, hvalue⟩ := SeqStep.modify_leaves h.wf s.cfg.fixedSpeedTest x (s.stepReads x) e hown
    rw [State.valueOf, does_params, SeqStep.register_of_names hnamed s.params s.cmd]
    exact (congrArg _ (does_regValue s x h.reference)).trans hvalue
  · exact (h.does_keeps hx (hout e hother)).trans (hl e hother)

/-- Whoever keeps the parameters and REG keeps every field. -/
theorem State.Holds.of_reg {s t : State} {l : List (NamedField × Word)} (hl : s.Holds l) (hp : t.params = s.params)
    (hreg : t.window.reg = s.window.reg) : t.Holds l := by
  intro e he
  have hvalue : t.valueOf e.1 = s.valueOf e.1 := by rw [State.valueOf, State.valueOf, State.regValue, State.regValue, hp, hreg]
  exact hvalue.trans (hl e he)

/-- The poll that sees F_VR_RST clear keeps every other field. -/
theorem State.Holds.pollOnce {s : State} (h : s.Configures) {l : List (NamedField × Word)} (hl : s.Holds l)
    (hspent : s.window.vr = .setFor 0) (hout : ∀ e ∈ l, e.1 ≠ .vrRst) : s.pollOnce.Holds l := by
  intro e he
  rw [← hl e he, State.valueOf, (keeps_pollOnce s).params]
  have haligned : s.params.rDigCtrl.toNat % 4 = 0 := h.aligned .vrRst
  have hselect := s.window.selecting_select s.params.rDigCtrl
  have hread := Window.read_spent s.params .s3p (lo s.params.rDigCtrl) (s.window.selecting s.params.rDigCtrl) h.reference
    hselect hspent
  have hreg : s.pollOnce.window.reg = s.window.reg.storeWord s.params.byteOrder s.params.rDigCtrl
      (clr s.params.fVrRst (s.regValue s.params.rDigCtrl)) := by
    rw [pollOnce_window, hread, hselect]
    rfl
  rw [State.regValue, (keeps_pollOnce s).params, hreg]
  by_cases hdig : (e.1.place s.params).1 = s.params.rDigCtrl
  · have hdisjoint := NamedField.disjoint h.wf (hout e he) hdig
    rw [State.valueOf, hdig, Memory.loadWord_storeWord_same]
    exact ext_congr fun i hi => clr_getLsbD_outside (disjoint_masks hdisjoint hi) _
  · rw [Memory.loadWord_storeWord_other _ _ _ haligned (h.aligned e.1) (Ne.symm hdig)]
    rfl

/-- The tail sets its own three fields and keeps the others (42_sequencer.md R148, R149). -/
theorem State.Holds.s4_s5 {s : State} (h : s.Configures) {l : List (NamedField × Word)} (hl : s.Holds l)
    (hout : ∀ e ∈ l, e.1 ∉ [.vrRst, .txCfg, .anIntrEn, .macAutoSw]) : s.afterS4S5.Holds
      ((.macAutoSw, if s.cfg.fixedSpeedTest then 0#32 else 1#32) :: (.txCfg, 0#32) :: (.anIntrEn, 1#32) :: l) := by
  have h4 := hl.does h .s4 nofun fun e he => by have := hout e he; simp_all [SeqStep.names]
  refine (h4.does (h.keeps (keeps_does s .s4)) .s5 nofun fun e he => ?_).of_reg (t := s.afterS4S5) (afterS4S5_params s)
    (congrArg Window.reg (afterS4S5_window s))
  have hcases : e = (.txCfg, 0#32) ∨ e = (.anIntrEn, 1#32) ∨ e ∈ l := by simpa [SeqStep.leaves] using he
  rcases hcases with rfl | rfl | he
  · simp [SeqStep.names]
  · simp [SeqStep.names]
  · have := hout e he
    simp_all [SeqStep.names]

/-- The mode steps of SGMII (42_sequencer.md R143 to R145). -/
theorem State.Configures.sgmiiSteps {s : State} (h : s.Configures) : s.sgmiiSteps.Holds
    ((if s.cfg.fixedSpeedTest then [(.en2p5g, 1#32)] else []) ++ [(.anMode, s.params.vAnModeSgmii), (.pcsType, 1#32)]) := by
  have h2a := State.Holds.does h (l := []) nofun .s2a nofun nofun
  have hc2a := h.keeps (keeps_does s .s2a)
  have h2b := h2a.does hc2a .s2b nofun (by simp [SeqStep.leaves, SeqStep.names])
  have hc2b := hc2a.keeps (keeps_does (s.does .s2a) .s2b)
  unfold State.sgmiiSteps
  split
  · exact h2b.does hc2b .s2c nofun (by simp [SeqStep.leaves, SeqStep.names])
  · exact h2b

/-- The mode steps of USXGMII before the poll (42_sequencer.md R146, R147). -/
theorem State.Configures.beforePoll {s : State} (h : s.Configures) :
    s.beforePoll.Holds [(.usxgMode, 0#32), (.usxgEn, 1#32), (.pcsType, 0#32)] := by
  have h3a := State.Holds.does h (l := []) nofun .s3a nofun nofun
  have hc3a := h.keeps (keeps_does s .s3a)
  have h3b := h3a.does hc3a .s3b nofun (by simp [SeqStep.leaves, SeqStep.names])
  have hc3b := hc3a.keeps (keeps_does (s.does .s3a) .s3b)
  have h3c := h3b.does hc3b .s3c nofun (by simp [SeqStep.leaves, SeqStep.names])
  have hc3c := hc3b.keeps (keeps_does ((s.does .s3a).does .s3b) .s3c)
  have h3d := h3c.does hc3c .s3d nofun (by simp [SeqStep.leaves, SeqStep.names])
  exact h3d.of_reg ((keeps_clearPoll _).params) (congrArg Window.reg (beforePoll_window s))

/-- An INIT of an IDLE block runs on from its acceptance. -/
theorem execRun_init_idle {s : State} {m : PcsMode} (r d : Word) (hidle : s.seq.step = .idle)
    (hm : ¬((m = .other ∨ m = .other3) ∧ s.cfg.unsupportedModeFails = true)) (k : Nat) :
    execRun (.init m r d) (k + 1) s = execRun (.init m r d) k (s.startedInit m r d) := by
  rw [execRun_succ, exec_init_starts r d hidle hm, andThen_next]

/-- An accepted INIT of the reference window is ready to set its fields. -/
theorem configures_startedInit {s : State} (m : PcsMode) (r d : Word) (ha : s.canAccessAll = true) (hwf : s.params.wf = true)
    (hk : s.window.kind = .reference) : (s.startedInit m r d).Configures := ⟨hwf, hk, ha⟩

/-- A field a state holds, told with the parameters of the state the run began in. -/
theorem State.Holds.ext_eq {s t : State} {l : List (NamedField × Word)} (hl : t.Holds l) (hp : t.params = s.params)
    {q : NamedField} {v : Word} (h : (q, v) ∈ l) : ext (q.place s.params).2 (t.regValue (q.place s.params).1) = v := by
  rw [← hp]
  exact hl (q, v) h

/-- Settles O34: the fields are followed through the steps; none is written again after the step that sets it. -/
theorem initSgmiiConfiguresThePcs : Obligations.InitSgmiiConfiguresThePcs := by
  unfold Obligations.InitSgmiiConfiguresThePcs
  intro s t r d hidle ha hwf hk hclear hrun
  have hcount : (if s.cfg.fixedSpeedTest then 23 else 19) = (if s.cfg.fixedSpeedTest then 22 else 18) + 1 := by split <;> rfl
  rw [hcount, execRun_init_idle r d hidle (by simp), execRun_initSgmii r d ha hclear] at hrun
  obtain ⟨-, hin⟩ := (inRun_afterS1Read .sgmii r d ha).sgmii
  have hc := configures_startedInit .sgmii r d ha hwf hk
  have hmode : (s.afterS1Read .sgmii r d).sgmiiSteps.Holds ((if s.cfg.fixedSpeedTest then [(.en2p5g, 1#32)] else []) ++
      [(.anMode, s.params.vAnModeSgmii), (.pcsType, 1#32)]) := (hc.keeps (keeps_afterRead _)).sgmiiSteps
  have hcfg : (s.afterS1Read .sgmii r d).sgmiiSteps.cfg = s.cfg := hin.cfg
  have hholds := hmode.s4_s5 (hc.keeps hin.toKeeps) (by split <;> simp)
  have hparams : (s.afterS1Read .sgmii r d).sgmiiSteps.afterS4S5.params = s.params :=
    (afterS4S5_params _).trans hin.params
  have hrsp := (afterS4S5_responds (s.afterS1Read .sgmii r d).sgmiiSteps).2
  rw [hcfg] at hholds
  rw [Host.Outcome.next.inj hrun] at hholds hparams hrsp
  exact ⟨hrsp, hholds.ext_eq hparams (q := .pcsType) (by simp), hholds.ext_eq hparams (q := .anMode) (by simp),
    hholds.ext_eq hparams (q := .anIntrEn) (by simp), hholds.ext_eq hparams (q := .txCfg) (by simp),
    hholds.ext_eq hparams (q := .macAutoSw) (by simp),
    fun hfixed => hholds.ext_eq hparams (q := .en2p5g) (by simp [hfixed])⟩

/-- Settles O35: the fields are followed as for SGMII, the polls keeping all but F_VR_RST, which the bus shows written set by S3D
and read clear by the last poll. -/
theorem initUsxgmiiConfiguresThePcs : Obligations.InitUsxgmiiConfiguresThePcs := by
  unfold Obligations.InitUsxgmiiConfiguresThePcs
  intro s t r d n rest hidle ha hwf hk hdraws hlimit hclear hrun
  have h : s.StartsUsxgmii (some n) rest := ⟨ha, hwf, hk, hdraws, hclear⟩
  obtain ⟨u, hcompletes, hpolls, hspent, hin⟩ := h.completes r d hlimit
  obtain ⟨s₁, t', a, b, c, e, f, g, hstart, hrun', -, hrsp, -, -, -, -, hbus, -⟩ :=
    initUsxgmiiRunsToItsResponse s r d n rest hidle ha hwf hk hdraws hlimit hclear
  have hcount : 29 + 2 * n = (28 + 2 * n) + 1 := by omega
  obtain rfl : t' = t := by
    rw [hcount, execRun_succ, hstart, andThen_next, hrun'] at hrun
    exact Host.Outcome.next.inj hrun
  rw [hcount, execRun_init_idle r d hidle (by simp), hcompletes] at hrun
  have hc := configures_startedInit .usxgmii r d ha hwf hk
  have hsteps : (s.atPoll r d).Holds [(.usxgMode, 0#32), (.usxgEn, 1#32), (.pcsType, 0#32)] :=
    (hc.keeps (keeps_afterRead _)).beforePoll
  have hpolled := (hsteps.of_reg hpolls.params hpolls.reg).pollOnce (hc.keeps hin.toKeeps) hspent (by simp)
  have hin' := hin.next (keeps_pollOnce u)
  have hholds := hpolled.s4_s5 (hc.keeps hin'.toKeeps) (by simp)
  have hcfg : u.pollOnce.cfg = s.cfg := hin'.cfg
  have hparams : u.pollOnce.afterS4S5.params = s.params := (afterS4S5_params _).trans hin'.params
  rw [hcfg] at hholds
  rw [Host.Outcome.next.inj hrun] at hholds hparams
  have hs3d : s.rmwTxns .s3d e = [s.indexTxn s.params.rDigCtrl, s.readTxn s.params.rDigCtrl e] ++
      [s.indexTxn s.params.rDigCtrl, s.writeTxn s.params.rDigCtrl (setb s.params.fVrRst e)] := rfl
  exact ⟨hrsp, hholds.ext_eq hparams (q := .pcsType) (by simp), hholds.ext_eq hparams (q := .usxgEn) (by simp),
    hholds.ext_eq hparams (q := .usxgMode) (by simp), hholds.ext_eq hparams (q := .anIntrEn) (by simp),
    hholds.ext_eq hparams (q := .txCfg) (by simp), hholds.ext_eq hparams (q := .macAutoSw) (by simp),
    setb s.params.fVrRst e, clr s.params.fVrRst (setb s.params.fVrRst e),
    [s.indexTxn s.params.rMiiCtrl, s.readTxn s.params.rMiiCtrl (s.wouldRead .s1 s.params.rMiiCtrl)] ++ s.rmwTxns .s3a a ++
      s.rmwTxns .s3b b ++ s.rmwTxns .s3c c ++ [s.indexTxn s.params.rDigCtrl, s.readTxn s.params.rDigCtrl e],
    (List.replicate n (s.pollTxns (setb s.params.fVrRst e))).flatten, s.rmwTxns .s4 f ++ s.rmwTxns .s5 g,
    vrResetSet_setb hwf e, vrResetSet_clr _ _, by rw [hbus, hs3d]; simp only [List.append_assoc]⟩

end Sys2Proof.Machine
end
